-- ==== Sys2Proof/Word.lean ====
section
/-! DEFINITION. The word types of QRG-CORE (spec/00_scope.md R9, spec/20_memory.md R61, R66):
every register access is 32 bits, every DATA and RAW element is one byte. -/

namespace Sys2Proof

/-- A 32-bit register or bus value; bit 0 is the least significant (R9, R61). -/
abbrev Word := BitVec 32

/-- One element of a byte store (R60). -/
abbrev Byte := BitVec 8

/-- A mathematical integer as it is written to a 32-bit register (R12). -/
abbrev word (n : Nat) : Word := BitVec.ofNat 32 n

end Sys2Proof
end

