-- ==== Sys2Proof/Syntax.lean ====
section
/-! DEFINITION. The commands of QRG-CORE, one constructor per row of spec/opcode_table.json
(spec/30_encoding.md R85). An immediate field is an unsigned number (R84); operands in ARG0, ARG1 and
CFG are state, not syntax (R81). -/

namespace Sys2Proof

/-- The register file RS_RD reads: field `sel` of format S, 0 = REM (`rem`), 1 = DIV (`div`)
(spec/42_reed_solomon.md R136). -/
inductive RsFile where
  | rem
  | div
  deriving DecidableEq, Repr

inductive Instr where
  | nop
  | memwr (space : Nat)
  | memrd (space : Nat)
  | bbClr
  | bbApb (width : Nat)
  | bbApby (n : Nat)
  | bbApnum (n : Nat)
  | bbApaln (n : Nat)
  | bbApeci
  | bbGet
  | gfMul (x y : Nat)
  | rsDiv (degree : Nat)
  | rsRem
  | rsRd (sel : RsFile) (index : Nat)
  | segDef (index mode : Nat)
  | vsel (minver maxver : Nat) (boost : Bool)
  | capq
  | segHdr (mode : Nat)
  | termpad
  | pack
  | intlv
  | mxInit
  | mxPlace
  | mxMask (mask : Nat)
  | mxFmt (mask : Nat)
  | mxRead (x y : Nat)
  | mxWr (x y : Nat)
  | mxPen
  | msel
  deriving DecidableEq, Repr

end Sys2Proof
end

