-- ==== Sys2Proof/WellFormed.lean ====
section
/-! DEFINITION. Which `Instr` terms a command word can hold: every immediate field within its field's
width (spec/30_encoding.md R82, R84). -/

namespace Sys2Proof

/-- Every immediate field of the command fits the field R82 gives it. -/
def Instr.wf : Instr → Bool
  | .nop | .bbClr | .bbApeci | .bbGet | .rsRem | .capq | .termpad | .pack | .intlv | .mxInit
  | .mxPlace | .mxPen | .msel => true
  | .memwr space | .memrd space => decide (space < 2 ^ 2)
  | .bbApb width => decide (width < 2 ^ 5)
  | .bbApby n | .bbApnum n | .bbApaln n => decide (n < 2 ^ 3)
  | .gfMul x y | .mxRead x y | .mxWr x y => decide (x < 2 ^ 8) && decide (y < 2 ^ 8)
  | .rsDiv degree => decide (degree < 2 ^ 9)
  | .rsRd _ index => decide (index < 2 ^ 8)
  | .segDef index mode => decide (index < 2 ^ 7) && decide (mode < 2 ^ 4)
  | .vsel minver maxver _ => decide (minver < 2 ^ 6) && decide (maxver < 2 ^ 6)
  | .segHdr mode => decide (mode < 2 ^ 4)
  | .mxMask mask | .mxFmt mask => decide (mask < 2 ^ 3)

/-- The command can be written as a command word. -/
abbrev Instr.WellFormed (i : Instr) : Prop := i.wf = true

end Sys2Proof
end

