-- ==== Sys2Proof/Decode.lean ====
section
/-! DEFINITION. Decoding and encoding of the 32-bit command word (spec/30_encoding.md R80 to R89). -/

namespace Sys2Proof

/-- `w[hi:lo]`, the field of bits `hi` down to `lo` read as an unsigned number (spec/00_scope.md R9). -/
def bits (w : Word) (hi lo : Nat) : Nat := w.toNat / 2 ^ lo % 2 ^ (hi + 1 - lo)

/-- The formats of R82. -/
inductive Format where
  | z | w | n | xy | d | s | sp | sd | v | m | k
  deriving DecidableEq, Repr

/-- The reserved bit ranges `(hi, lo)` of each format, R82's column "Reserved bits (must be 0)". -/
def Format.reserved : Format → List (Nat × Nat)
  | .z => [(31, 8)]
  | .w => [(31, 13)]
  | .n => [(31, 11)]
  | .xy => [(31, 24)]
  | .d => [(31, 17)]
  | .s => [(31, 17)]
  | .sp => [(31, 10)]
  | .sd => [(31, 20), (15, 15)]
  | .v => [(31, 21)]
  | .m => [(31, 12)]
  | .k => [(31, 11)]

/-- Why a word is no command: both raise IllegalCommand (R83, R86). -/
inductive Illegal where
  /-- OPC is not in the column of R85 (R86). -/
  | unassigned (opc : Nat)
  /-- OPC is assigned and a reserved bit of its format is 1 (R83). -/
  | reservedBits (opc : Nat)
  deriving DecidableEq, Repr

/-- Every reserved bit of the format is 0 in `w` (R83). -/
def Format.clear (f : Format) (w : Word) : Bool := f.reserved.all fun r => bits w r.1 r.2 == 0

/-- The reserved-bit test of R88 before a command is returned. -/
def checked (f : Format) (w : Word) (i : Instr) : Except Illegal Instr :=
  if f.clear w then .ok i else .error (.reservedBits (bits w 7 0))

/-- Field `sel` of format S (R82, R96). -/
def RsFile.ofSel (n : Nat) : RsFile := if n = 0 then .rem else .div

/-- Field `sel` of format S (R82, R96). -/
def RsFile.sel : RsFile → Nat
  | .rem => 0
  | .div => 1

/-- `decode` of R88, a total function of the command word, with the opcode map of R85. -/
def decode (w : Word) : Except Illegal Instr :=
  match bits w 7 0 with
  | 0x00 => checked .z w .nop
  | 0x01 => checked .sp w (.memwr (bits w 9 8))
  | 0x02 => checked .sp w (.memrd (bits w 9 8))
  | 0x10 => checked .z w .bbClr
  | 0x11 => checked .w w (.bbApb (bits w 12 8))
  | 0x12 => checked .n w (.bbApby (bits w 10 8))
  | 0x13 => checked .n w (.bbApnum (bits w 10 8))
  | 0x14 => checked .n w (.bbApaln (bits w 10 8))
  | 0x15 => checked .z w .bbApeci
  | 0x16 => checked .z w .bbGet
  | 0x20 => checked .xy w (.gfMul (bits w 15 8) (bits w 23 16))
  | 0x21 => checked .d w (.rsDiv (bits w 16 8))
  | 0x22 => checked .z w .rsRem
  | 0x23 => checked .s w (.rsRd (.ofSel (bits w 16 16)) (bits w 15 8))
  | 0x30 => checked .sd w (.segDef (bits w 14 8) (bits w 19 16))
  | 0x31 => checked .v w (.vsel (bits w 13 8) (bits w 19 14) (bits w 20 20 == 1))
  | 0x32 => checked .z w .capq
  | 0x33 => checked .m w (.segHdr (bits w 11 8))
  | 0x34 => checked .z w .termpad
  | 0x35 => checked .z w .pack
  | 0x36 => checked .z w .intlv
  | 0x40 => checked .z w .mxInit
  | 0x41 => checked .z w .mxPlace
  | 0x42 => checked .k w (.mxMask (bits w 10 8))
  | 0x43 => checked .k w (.mxFmt (bits w 10 8))
  | 0x44 => checked .xy w (.mxRead (bits w 15 8) (bits w 23 16))
  | 0x45 => checked .xy w (.mxWr (bits w 15 8) (bits w 23 16))
  | 0x50 => checked .z w .mxPen
  | 0x51 => checked .z w .msel
  | opc => .error (.unassigned opc)

/-- OPC of a command, R85. -/
def Instr.opc : Instr → Nat
  | .nop => 0x00
  | .memwr _ => 0x01
  | .memrd _ => 0x02
  | .bbClr => 0x10
  | .bbApb _ => 0x11
  | .bbApby _ => 0x12
  | .bbApnum _ => 0x13
  | .bbApaln _ => 0x14
  | .bbApeci => 0x15
  | .bbGet => 0x16
  | .gfMul _ _ => 0x20
  | .rsDiv _ => 0x21
  | .rsRem => 0x22
  | .rsRd _ _ => 0x23
  | .segDef _ _ => 0x30
  | .vsel _ _ _ => 0x31
  | .capq => 0x32
  | .segHdr _ => 0x33
  | .termpad => 0x34
  | .pack => 0x35
  | .intlv => 0x36
  | .mxInit => 0x40
  | .mxPlace => 0x41
  | .mxMask _ => 0x42
  | .mxFmt _ => 0x43
  | .mxRead _ _ => 0x44
  | .mxWr _ _ => 0x45
  | .mxPen => 0x50
  | .msel => 0x51

/-- The immediate fields of a command at their places in the word, R82. -/
def Instr.immediate : Instr → Nat
  | .nop | .bbClr | .bbApeci | .bbGet | .rsRem | .capq | .termpad | .pack | .intlv | .mxInit
  | .mxPlace | .mxPen | .msel => 0
  | .memwr space | .memrd space => space * 2 ^ 8
  | .bbApb width => width * 2 ^ 8
  | .bbApby n | .bbApnum n | .bbApaln n => n * 2 ^ 8
  | .gfMul x y | .mxRead x y | .mxWr x y => x * 2 ^ 8 + y * 2 ^ 16
  | .rsDiv degree => degree * 2 ^ 8
  | .rsRd sel index => index * 2 ^ 8 + sel.sel * 2 ^ 16
  | .segDef index mode => index * 2 ^ 8 + mode * 2 ^ 16
  | .vsel minver maxver boost => minver * 2 ^ 8 + maxver * 2 ^ 14 + boost.toNat * 2 ^ 20
  | .segHdr mode => mode * 2 ^ 8
  | .mxMask mask | .mxFmt mask => mask * 2 ^ 8

/-- The command word of a well-formed command (R80, R82, R85). -/
def encode (i : Instr) : Word := word (i.opc + i.immediate)

/-- The rows of spec/opcode_table.json as (match, mask): "a word selects the row iff
`word & mask == match`" (R88). A row's match is its OPC. -/
def opcodeRows : List (Nat × Word) :=
  [(0x00, 0xFFFFFFFF#32),
   (0x01, 0xFFFFFCFF#32),
   (0x02, 0xFFFFFCFF#32),
   (0x10, 0xFFFFFFFF#32),
   (0x11, 0xFFFFE0FF#32),
   (0x12, 0xFFFFF8FF#32),
   (0x13, 0xFFFFF8FF#32),
   (0x14, 0xFFFFF8FF#32),
   (0x15, 0xFFFFFFFF#32),
   (0x16, 0xFFFFFFFF#32)] ++
  [(0x20, 0xFF0000FF#32),
   (0x21, 0xFFFE00FF#32),
   (0x22, 0xFFFFFFFF#32),
   (0x23, 0xFFFE00FF#32),
   (0x30, 0xFFF080FF#32),
   (0x31, 0xFFE000FF#32),
   (0x32, 0xFFFFFFFF#32),
   (0x33, 0xFFFFF0FF#32),
   (0x34, 0xFFFFFFFF#32),
   (0x35, 0xFFFFFFFF#32)] ++
  [(0x36, 0xFFFFFFFF#32),
   (0x40, 0xFFFFFFFF#32),
   (0x41, 0xFFFFFFFF#32),
   (0x42, 0xFFFFF8FF#32),
   (0x43, 0xFFFFF8FF#32),
   (0x44, 0xFF0000FF#32),
   (0x45, 0xFF0000FF#32),
   (0x50, 0xFFFFFFFF#32),
   (0x51, 0xFFFFFFFF#32)]

/-- What the decoder reads from a row of the opcode table with `nbits` bits holding `w`; every command
is one 32-bit word (R89). -/
def decodeTableWord (nbits w : Nat) : Option Instr :=
  match decode (word (w % 2 ^ nbits)) with
  | .ok i => some i
  | .error _ => none

end Sys2Proof
end

