-- ==== Sys2Proof/Config.lean ====
section
/-! DEFINITION. The implementation parameters of spec/00_scope.md R7 and the values the spec leaves
open (spec/93_implementation_defined.md I1, I3). The constant tables of the symbology are in
Machine/Symbology.lean; `CMD_LATENCY`, whose argument is a machine state, is in Machine/Ops.lean. -/

namespace Sys2Proof.Config

/-- `BB_CAP`: bit-buffer capacity in bits (R7). -/
abbrev bbCap : Nat := 32768

/-- `DATA_SIZE`: bytes of the data-codeword memory DATA (R7). -/
abbrev dataSize : Nat := 4096

/-- `RAW_SIZE`: bytes of the raw-codeword memory RAW (R7). -/
abbrev rawSize : Nat := 4096

/-- `SEG_MAX`: entries of the segment descriptor table (R7). -/
abbrev segMax : Nat := 64

/-- `MAX_SIZE`: side of the module planes (R7). -/
abbrev maxSize : Nat := 177

/-- ID: the constant of the identification register (spec/10_state.md R22). -/
def idValue : Word := 0x51524301#32

/-- `RESET_CYCLES`, left open by R7 (I3). A free value: no body, so nothing can be proved about it.
The machine's use of it makes it at least 1 (notes/assumptions/3.md). -/
opaque resetCycles : Nat

/-- The value a host read draws from RESULT0, RESULT1, BBLEN, RSDEG, MXINFO or STATUS.MXSTATE while a
command runs, left open by spec/10_state.md R37 (I1, "32-bit draw per read"). A free value of the
model's own counter of draws (notes/assumptions/2.md). -/
opaque busyRead : Nat → Word

end Sys2Proof.Config
end

