-- ==== Sys2Proof/Machine/State.lean ====
section
/-! DEFINITION. The state of QRG-CORE (spec/10_state.md R20 to R48), the host's pending bus operations
(spec/30_encoding.md R95), the reasons a step can stop, and the state after reset. -/

namespace Sys2Proof.Machine

/-- Error-correction level in the ordinal encoding of CFG.ECL (R28): Low 0, Medium 1, Quartile 2,
High 3. -/
inductive Ecl where
  | low
  | medium
  | quartile
  | high
  deriving DecidableEq, Repr

/-- The five modes (R57). -/
inductive Mode where
  | numeric
  | alphanumeric
  | byte
  | kanji
  | eci
  deriving DecidableEq, Repr

/-- MXSTATE, the matrix-construction state (R45). -/
inductive MxState where
  | unbuilt
  | patterns
  | placed
  | finalized
  deriving DecidableEq, Repr

/-- The error codes STATUS.ERR can hold (spec/60_exceptions.md R215); code 0, no error, is the `none`
of `State.err`. -/
inductive ErrCode where
  | invalidArgument
  | formatError
  | dataTooLong
  | indexError
  | rangeError
  | sequenceError
  | illegalCommand
  | bufferFull
  deriving DecidableEq, Repr

/-- The non-reserved fields of CFG (R26): reserved bits read 0 and take no write, so they have no
storage. -/
structure Cfg where
  version : BitVec 6
  ecl : Ecl
  maskReq : BitVec 4
  nseg : BitVec 7
  deriving DecidableEq, Repr

/-- One entry of SEGTAB (R41). -/
structure Segment where
  mode : BitVec 4
  count : Word
  plen : Word
  deriving DecidableEq, Repr

/-- A byte store: (address, byte) pairs, addresses strictly rising, no byte 0. An unlisted address reads
the reset value 0 (R48). `Memory.wf` in Machine/Ops.lean is this form. -/
abbrev Memory := List Host.Cell

/-- A module plane (R43, R44): `rows[y]` is row `y`, its bit `x` the module at column `x`. -/
structure Plane where
  rows : Vector (BitVec Config.maxSize) Config.maxSize
  deriving DecidableEq, Repr

/-- The two facets of every module (R44). -/
structure Planes where
  func : Plane
  dark : Plane
  deriving DecidableEq, Repr

/-- What the engine is doing; STATUS.BUSY is 0 exactly in `idle` (R24, R37). -/
inductive Engine where
  /-- BUSY = 0. -/
  | idle
  /-- BUSY = 1: the command word accepted from CMD runs, `left` more host turns pass before the step
  in which it completes (spec/70_reset_and_hazards.md R250). -/
  | running (cmd : Word) (left : Nat)
  /-- BUSY = 1: a reset clears the block, `left` more host turns pass before it ends (R240). -/
  | resetting (left : Nat)
  deriving DecidableEq, Repr

/-- The size of a host access; only `word` is admitted (spec/20_memory.md R61, R62). -/
inductive AccessSize where
  | byte
  | half
  | word
  deriving DecidableEq, Repr

/-- What the outside does to the block: the host operations of R95, and the reset input (R240). The
offset is within the 256-byte window (R21). -/
inductive HostOp where
  /-- `wr REG, v`. -/
  | wr (offset : BitVec 8) (size : AccessSize) (v : Word)
  /-- `rd REG`; the value read is appended to `State.reads`. -/
  | rd (offset : BitVec 8) (size : AccessSize)
  /-- `poll`: read STATUS until BUSY reads 0. -/
  | poll
  /-- The platform asserts the reset input for this step. -/
  | resetInput
  deriving DecidableEq, Repr

/-- A step never ends in a fault: spec/93_implementation_defined.md section 1 treats no behaviour as
stuck, and the errors of R215 are next states with STATUS.ERR set. -/
inductive Fault where
  deriving DecidableEq, Repr

/-- Why a step has no meaning. -/
inductive Refusal where
  /-- Raised by `exec` for an instruction without a meaning; no arm raises it now. Safe: the model stops
  where the hardware goes on. -/
  | notModelled (mnemonic : String)
  /-- Raised by a host access that is not 32 bits at a multiple-of-4 offset, which "a model refuses"
  (spec/20_memory.md R62, spec/93_implementation_defined.md I4). Safe: the model stops where the
  hardware ignores the access. -/
  | hostAccess
  deriving DecidableEq, Repr

/-- The state R20 gives QRG-CORE, then the model's own: `host`, `reads` and `draws`. -/
structure State where
  /-- CTRL.IE (R23). -/
  ie : Bool
  /-- STATUS.DONE (R24). -/
  done : Bool
  /-- STATUS.OVR (R24). -/
  ovr : Bool
  /-- STATUS.ERR; `none` is code 0 (R24, R215). -/
  err : Option ErrCode
  /-- STATUS.ERR_OPC (R24). -/
  errOpc : BitVec 8
  /-- CFG (R26). -/
  cfg : Cfg
  /-- ARG0 (R29). -/
  arg0 : Word
  /-- ARG1 (R29). -/
  arg1 : Word
  /-- RESULT0 (R31). -/
  result0 : Word
  /-- RESULT1 (R31). -/
  result1 : Word
  /-- CMDCNT (R35). -/
  cmdcnt : Word
  /-- The command or reset in progress; STATUS.BUSY is read from it (R37). -/
  engine : Engine
  /-- The bit buffer's valid bits in order of insertion (R38): BB_LEN is the list's length, and the
  bits of BB at or above BB_LEN, always 0, have no storage. -/
  bb : List Bool
  /-- DATA (R39). -/
  data : Memory
  /-- RAW (R40). -/
  raw : Memory
  /-- SEGTAB (R41). -/
  segtab : Vector Segment Config.segMax
  /-- DEG (R42). -/
  deg : Fin 256
  /-- DIV (R42). -/
  div : Memory
  /-- REM (R42). -/
  rem : Memory
  /-- MXSTATE (R45). -/
  mxState : MxState
  /-- MX_VER (R46). -/
  mxVer : BitVec 6
  /-- MX_ECL (R46). -/
  mxEcl : Ecl
  /-- MX_MASK (R46). -/
  mxMask : BitVec 3
  /-- MX_MASKV (R46). -/
  mxMaskV : Bool
  /-- FUNC and DARK (R44). -/
  planes : Planes
  /-- The outside's operations still to come, first to be performed first (R95). The model's own: the
  input of the machine. -/
  host : List HostOp
  /-- The values the host's `rd` operations returned, oldest first (R95). The model's own. -/
  reads : List Word
  /-- How many unspecified values reads have drawn (`Config.busyRead`). The model's own. -/
  draws : Nat
  deriving DecidableEq, Repr

/-- A plane of zeros (R48). -/
def Plane.zero : Plane := ⟨Vector.replicate Config.maxSize 0#Config.maxSize⟩

/-- Planes of zeros (R48). -/
def Planes.zero : Planes := ⟨Plane.zero, Plane.zero⟩

/-- The state when a reset has completed, R48: idle, and every register and store 0 (ID is a constant
and has no storage). `host`, `reads` and `draws` are the model's own (notes/assumptions/1.md,
notes/assumptions/2.md). -/
def State.reset : State where
  ie := false
  done := false
  ovr := false
  err := none
  errOpc := 0
  cfg := { version := 0, ecl := .low, maskReq := 0, nseg := 0 }
  arg0 := 0
  arg1 := 0
  result0 := 0
  result1 := 0
  cmdcnt := 0
  engine := .idle
  bb := []
  data := []
  raw := []
  segtab := Vector.replicate Config.segMax { mode := 0, count := 0, plen := 0 }
  deg := 0
  div := []
  rem := []
  mxState := .unbuilt
  mxVer := 0
  mxEcl := .low
  mxMask := 0
  mxMaskV := false
  planes := Planes.zero
  host := []
  reads := []
  draws := 0

end Sys2Proof.Machine
end

