-- ==== Sys2Proof/Machine/Symbology.lean ====
section
/-! DEFINITION. The constant tables of the symbology and the functions computed from them
(spec/10_state.md R54 to R59, spec/43_serializer.md R145). -/

namespace Sys2Proof.Machine

/-- CFG.ECL's 2-bit encoding (R28). -/
def Ecl.ofBits (b : BitVec 2) : Ecl :=
  if b = 0 then .low else if b = 1 then .medium else if b = 2 then .quartile else .high

/-- CFG.ECL's 2-bit encoding (R28). -/
def Ecl.toBits : Ecl → BitVec 2
  | .low => 0
  | .medium => 1
  | .quartile => 2
  | .high => 3

/-- The levels in ordinal order (R28). -/
def Ecl.ordered : List Ecl := [.low, .medium, .quartile, .high]

/-- The mode with this 4-bit indicator; `none` for an illegal code (R57, `valid_mode` of R145). -/
def Mode.ofCode (n : Nat) : Option Mode :=
  if n = 0x1 then some .numeric
  else if n = 0x2 then some .alphanumeric
  else if n = 0x4 then some .byte
  else if n = 0x8 then some .kanji
  else if n = 0x7 then some .eci
  else none

/-- `valid_ver` (R145). -/
abbrev validVer (v : Nat) : Prop := 1 ≤ v ∧ v ≤ 40

/-- The rows of `ECC_CODEWORDS_PER_BLOCK`, versions 1 to 40 (R54). -/
def eccPerBlockTable : Ecl → List Nat
  | .low =>
    [7, 10, 15, 20, 26, 18, 20, 24, 30, 18, 20, 24, 26, 30, 22, 24, 28, 30, 28, 28] ++
    [28, 28, 30, 30, 26, 28, 30, 30, 30, 30, 30, 30, 30, 30, 30, 30, 30, 30, 30, 30]
  | .medium =>
    [10, 16, 26, 18, 24, 16, 18, 22, 22, 26, 30, 22, 22, 24, 24, 28, 28, 26, 26, 26] ++
    [26, 28, 28, 28, 28, 28, 28, 28, 28, 28, 28, 28, 28, 28, 28, 28, 28, 28, 28, 28]
  | .quartile =>
    [13, 22, 18, 26, 18, 24, 18, 22, 20, 24, 28, 26, 24, 20, 30, 24, 28, 28, 26, 30] ++
    [28, 30, 30, 30, 30, 28, 30, 30, 30, 30, 30, 30, 30, 30, 30, 30, 30, 30, 30, 30]
  | .high =>
    [17, 28, 22, 16, 22, 28, 26, 26, 24, 28, 24, 28, 22, 24, 24, 30, 28, 28, 26, 28] ++
    [30, 24, 30, 30, 30, 30, 30, 30, 30, 30, 30, 30, 30, 30, 30, 30, 30, 30, 30, 30]

/-- The rows of `NUM_EC_BLOCKS`, versions 1 to 40 (R54). -/
def numBlocksTable : Ecl → List Nat
  | .low =>
    [1, 1, 1, 1, 1, 2, 2, 2, 2, 4, 4, 4, 4, 4, 6, 6, 6, 6, 7, 8] ++
    [8, 9, 9, 10, 12, 12, 12, 13, 14, 15, 16, 17, 18, 19, 19, 20, 21, 22, 24, 25]
  | .medium =>
    [1, 1, 1, 2, 2, 4, 4, 4, 5, 5, 5, 8, 9, 9, 10, 10, 11, 13, 14, 16] ++
    [17, 17, 18, 20, 21, 23, 25, 26, 28, 29, 31, 33, 35, 37, 38, 40, 43, 45, 47, 49]
  | .quartile =>
    [1, 1, 2, 2, 4, 4, 6, 6, 8, 8, 8, 10, 12, 16, 12, 17, 16, 18, 21, 20] ++
    [23, 23, 25, 27, 29, 34, 34, 35, 38, 40, 43, 45, 48, 51, 53, 56, 59, 62, 65, 68]
  | .high =>
    [1, 1, 2, 4, 4, 4, 5, 6, 8, 8, 11, 11, 16, 16, 18, 16, 19, 21, 25, 25] ++
    [25, 34, 30, 32, 35, 37, 40, 42, 45, 48, 51, 54, 57, 60, 63, 66, 70, 74, 77, 81]

/-- `ECC_CODEWORDS_PER_BLOCK[e][v]` for `1 ≤ v ≤ 40` (R54). -/
def eccPerBlock (e : Ecl) (v : Nat) : Nat := (eccPerBlockTable e).getD (v - 1) 0

/-- `NUM_EC_BLOCKS[e][v]` for `1 ≤ v ≤ 40` (R54). -/
def numBlocks (e : Ecl) (v : Nat) : Nat := (numBlocksTable e).getD (v - 1) 0

/-- The number of alignment positions of versions 2 and above (R55, spec/44_matrix.md R173). -/
def numAlign (v : Nat) : Nat := v / 7 + 2

/-- `raw_modules(ver)` (R55). -/
def rawModules (v : Nat) : Nat :=
  let r := (16 * v + 128) * v + 64
  if v ≥ 2 then
    let r := r - ((25 * numAlign v - 10) * numAlign v - 55)
    if v ≥ 7 then r - 36 else r
  else r

/-- `raw_cw(ver)` (R55). -/
def rawCw (v : Nat) : Nat := rawModules v / 8

/-- `ndata(ver, ecl)` (R55). -/
def ndata (v : Nat) (e : Ecl) : Nat := rawCw v - eccPerBlock e v * numBlocks e v

/-- `cap_bits(v, e)` (R145). -/
def capBits (v : Nat) (e : Ecl) : Nat := ndata v e * 8

/-- `ccbits(mode, ver)` over the bands 1 to 9, 10 to 26 and 27 to 40 (R56). -/
def ccbits (m : Mode) (v : Nat) : Nat :=
  match m with
  | .numeric => if v ≤ 9 then 10 else if v ≤ 26 then 12 else 14
  | .alphanumeric => if v ≤ 9 then 9 else if v ≤ 26 then 11 else 13
  | .byte => if v ≤ 9 then 8 else 16
  | .kanji => if v ≤ 9 then 8 else if v ≤ 26 then 10 else 12
  | .eci => 0

/-- The ASCII codes of the alphanumeric charset in index order (R58). -/
def charset : List Nat :=
  (List.range 10).map (0x30 + ·) ++ (List.range 26).map (0x41 + ·) ++
    [0x20, 0x24, 0x25, 0x2A, 0x2B, 0x2D, 0x2E, 0x2F, 0x3A]

/-- `idx(c)`, the index of the character in the charset; `none` outside it (R58, R117). -/
def charsetIndex (c : Nat) : Option Nat := charset.findIdx? (· == c)

/-- `FORMAT_ECL_CODE` (R59; spec/90_conflicts.md C2). -/
def formatEclCode : Ecl → Nat
  | .low => 1
  | .medium => 0
  | .quartile => 3
  | .high => 2

end Sys2Proof.Machine
end

