-- ==== Sys2Proof/Machine/Flags.lean ====
section
/-! DEFINITION. The fields of the status and information registers, and the words they read as
(spec/10_state.md R23, R24, R26, R33, R34; spec/60_exceptions.md R215, R228). -/

namespace Sys2Proof.Machine

/-- The code of an error (R215). -/
def ErrCode.code : ErrCode → Nat
  | .invalidArgument => 1
  | .formatError => 2
  | .dataTooLong => 3
  | .indexError => 4
  | .rangeError => 5
  | .sequenceError => 6
  | .illegalCommand => 7
  | .bufferFull => 8

/-- The InvalidArgument class of R216. -/
def ErrCode.invalidClass (c : ErrCode) : Bool :=
  c.code == 1 || c.code == 4 || c.code == 5

/-- STATUS.ERR (R24). -/
def State.errField (s : State) : Nat := s.err.elim 0 ErrCode.code

/-- The value of MXSTATE (R45). -/
def MxState.code : MxState → Nat
  | .unbuilt => 0
  | .patterns => 1
  | .placed => 2
  | .finalized => 3

/-- STATUS.BUSY (R24, R37). -/
def State.busy (s : State) : Bool :=
  match s.engine with
  | .idle => false
  | .running _ _ => true
  | .resetting _ => true

/-- BB_LEN (R38). -/
def State.bbLen (s : State) : Nat := s.bb.length

/-- The symbol side `size = MX_VER*4 + 17` (R33). -/
def State.mxSize (s : State) : Nat := s.mxVer.toNat * 4 + 17

/-- The level the `irq` output is driven to (R228). -/
def State.irq (s : State) : Bool := s.ie && s.done

/-- CTRL as read: SRST reads 0 (R23). -/
def State.ctrlWord (s : State) : Word := word s.ie.toNat

/-- STATUS with `mx` in its MXSTATE field; ERRCLR reads 0 (R24). -/
def State.statusWordWith (s : State) (mx : Nat) : Word :=
  word (s.busy.toNat + s.done.toNat * 2 ^ 1 + s.ovr.toNat * 2 ^ 3 + s.errField * 2 ^ 4 +
    mx * 2 ^ 8 + s.errOpc.toNat * 2 ^ 16)

/-- STATUS (R24). -/
def State.statusWord (s : State) : Word := s.statusWordWith s.mxState.code

/-- CFG as read: reserved bits 0 (R26). -/
def Cfg.toWord (c : Cfg) : Word :=
  word (c.version.toNat + c.ecl.toBits.toNat * 2 ^ 8 + c.maskReq.toNat * 2 ^ 12 +
    c.nseg.toNat * 2 ^ 16)

/-- CFG as written: "every non-reserved field exactly as written" (R26, R27). -/
def Cfg.ofWord (w : Word) : Cfg where
  version := w.extractLsb' 0 6
  ecl := .ofBits (w.extractLsb' 8 2)
  maskReq := w.extractLsb' 12 4
  nseg := w.extractLsb' 16 7

/-- MXINFO (R33). -/
def State.mxInfoWord (s : State) : Word :=
  word (s.mxVer.toNat + s.mxEcl.toBits.toNat * 2 ^ 8 + s.mxMask.toNat * 2 ^ 12 +
    s.mxMaskV.toNat * 2 ^ 15)

end Sys2Proof.Machine
end

