-- ==== Sys2Proof/Machine/Operands.lean ====
section
/-! DEFINITION. Operand forms: the byte lanes of ARG0 (spec/20_memory.md R65, spec/41_bitbuffer.md R113)
and the bits of an appended value (spec/00_scope.md R10). Immediate fields come decoded (R84) and
ARG0, ARG1 are read as unsigned numbers. -/

namespace Sys2Proof.Machine

/-- `lane(k) = ARG0[8k+7 : 8k]` (R113). -/
def lane (a : Word) (k : Nat) : Nat := a.toNat / 2 ^ (8 * k) % 2 ^ 8

/-- Lanes 0 to `n - 1`, lane 0 first (R65). -/
def lanes (a : Word) (n : Nat) : List Nat := (List.range n).map (lane a)

/-- `lanes_clear(n)` (R113). -/
abbrev lanesClear (a : Word) (n : Nat) : Prop := n = 4 ∨ a.toNat / 2 ^ (8 * n) = 0

/-- The bits `v[w-1], …, v[0]`, most significant first (R10). -/
def msbBits : (w : Nat) → (v : Nat) → List Bool
  | 0, _ => []
  | w + 1, v => v.testBit w :: msbBits w v

/-- The number whose bits, most significant first, are `bs`: the inverse order of R10 (R64). -/
def ofMsbBits (bs : List Bool) : Nat := bs.foldl (fun acc b => 2 * acc + b.toNat) 0

/-- `v` of R116: the digits of the lanes read as a decimal number, first digit most significant. -/
def digitsValue (ds : List Nat) : Nat := ds.foldl (fun v c => v * 10 + (c - 0x30)) 0

end Sys2Proof.Machine
end

