-- ==== Sys2Proof/Machine/Ops.lean ====
section
/-! DEFINITION. The operations the command meanings share: the byte stores (spec/20_memory.md R60), the
bit buffer, the planes, bounded loops, raising an error, completing and dropping a command
(spec/60_exceptions.md R217, R221, R222), clearing the error (R223) and starting a reset
(spec/70_reset_and_hazards.md R240, R242). -/

namespace Sys2Proof

/-- `CMD_LATENCY(op, state)`, left open by R7 and R250 (I2, I11): a free value of the accepted command
word and the state at the CMD write. No body. The machine's use of it makes it at least 1
(notes/assumptions/3.md). -/
opaque Config.cmdLatency : Word → Machine.State → Nat

namespace Machine

/-! ### Byte stores -/

/-- `MemRead(M, a)` (R60): the byte last written, or its reset value 0. -/
def Memory.read : Memory → Nat → Byte
  | [], _ => 0
  | (k, b) :: m, a => if k = a then b else Memory.read m a

/-- `MemWrite(M, a, v)` (R60), keeping the canonical form of `Memory.wf`. -/
def Memory.write : Memory → Nat → Byte → Memory
  | [], a, v => if v = 0 then [] else [(a, v)]
  | (k, b) :: m, a, v =>
    if a < k then (if v = 0 then (k, b) :: m else (a, v) :: (k, b) :: m)
    else if a = k then (if v = 0 then m else (a, v) :: m)
    else (k, b) :: Memory.write m a v

/-- `MemWrite` of consecutive elements from address `a`. -/
def Memory.writeList : Memory → Nat → List Byte → Memory
  | m, _, [] => m
  | m, a, v :: vs => Memory.writeList (m.write a v) (a + 1) vs

/-- The store whose first elements are `vs` and whose other elements are 0. -/
def Memory.ofList (vs : List Byte) : Memory := Memory.writeList [] 0 vs

/-- `MemRead` of `n` consecutive elements from address `a`. -/
def Memory.readList (m : Memory) (a n : Nat) : List Byte := (List.range n).map fun k => m.read (a + k)

/-- The addresses are strictly rising from `lo` on and below `size`, and no listed byte is 0. -/
def Memory.wfFrom (size : Nat) : (lo : Nat) → Memory → Bool
  | _, [] => true
  | lo, (k, b) :: m => decide (lo ≤ k) && decide (k < size) && decide (b ≠ 0) && wfFrom size (k + 1) m

/-- The canonical form of a store of `size` elements. -/
def Memory.wf (size : Nat) (m : Memory) : Bool := Memory.wfFrom size 0 m

/-! ### Bounded loops -/

/-- `for i in 0 .. n-1: body`, in ascending order. -/
def loop {α : Type} : (n : Nat) → (body : Nat → α → α) → α → α
  | 0, _, a => a
  | n + 1, body, a => body n (loop n body a)

/-! ### The module planes -/

/-- The module at column `x`, row `y` (R13, R43); outside the planes it reads 0. -/
def Plane.get (p : Plane) (x y : Nat) : Bool :=
  match p.rows[y]? with
  | some row => row.getLsbD x
  | none => false

/-- `P[y][x] <- d`; no module outside the planes is written. -/
def Plane.set (p : Plane) (x y : Nat) (d : Bool) : Plane :=
  match p.rows[y]? with
  | some row =>
    let bit := BitVec.twoPow Config.maxSize x
    ⟨p.rows.setIfInBounds y (if d then row ||| bit else row &&& ~~~bit)⟩
  | none => p

/-- `setFunction(x, y, d)` (spec/44_matrix.md R175). -/
def Planes.setFunction (p : Planes) (x y : Nat) (d : Bool) : Planes :=
  ⟨p.func.set x y true, p.dark.set x y d⟩

/-- `DARK[y][x] <- d`. -/
def Planes.setDark (p : Planes) (x y : Nat) (d : Bool) : Planes := { p with dark := p.dark.set x y d }

/-! ### Errors and completion -/

/-- What a command's pseudocode raises: an error, with the numbers DataTooLong reports (R217, R220).
The information of the other errors is not recorded. -/
inductive Raised where
  | invalidArgument
  | formatError
  | dataTooLong (required capacity : Nat)
  | indexError
  | rangeError
  | sequenceError
  | illegalCommand
  | bufferFull
  deriving DecidableEq, Repr

/-- The error's code name (R215). -/
def Raised.code : Raised → ErrCode
  | .invalidArgument => .invalidArgument
  | .formatError => .formatError
  | .dataTooLong _ _ => .dataTooLong
  | .indexError => .indexError
  | .rangeError => .rangeError
  | .sequenceError => .sequenceError
  | .illegalCommand => .illegalCommand
  | .bufferFull => .bufferFull

/-- `complete()` of a command that was not dropped (R222): DONE, CMDCNT, BUSY. -/
def complete (s : State) : State :=
  { s with done := true, cmdcnt := s.cmdcnt + 1, engine := .idle }

/-- `complete()` of a dropped command (R221, R222): DONE and BUSY only. -/
def drop (s : State) : State := { s with done := true, engine := .idle }

/-- DataTooLong's payload (R217, R220). -/
def Raised.payload (e : Raised) (s : State) : State :=
  match e with
  | .dataTooLong required capacity => { s with result0 := word required, result1 := word capacity }
  | .invalidArgument | .formatError | .indexError | .rangeError | .sequenceError | .illegalCommand
  | .bufferFull => s

/-- `raise E(info)` for the command with this OPC (R217): ERR and ERR_OPC record the error, the command
writes nothing else but DataTooLong's payload, and the command completes. -/
def raise (e : Raised) (opc : BitVec 8) (s : State) : State :=
  complete { e.payload s with err := some e.code, errOpc := opc }

/-- The host's return from an error, ERRCLR (R223, R25). -/
def clearError (s : State) : State := { s with err := none, errOpc := 0 }

/-- One command issued in state `s` and run to its completion: dropped while ERR ≠ 0 (R221), else its
body's checks and writes, ended by `ok` or by `raise` (R217, R218, R222). A body that raises hands
over no state, so no partial write remains (R11). -/
def command (opc : BitVec 8) (body : State → Except Raised State) (s : State) :
    Host.Outcome State Fault Refusal :=
  .next <|
    if s.err.isSome then drop s
    else
      match body s with
      | .ok t => complete t
      | .error e => raise e opc s

/-! ### The bit buffer -/

/-- `need(n)` and then the append of the `n` bits `bs` (spec/41_bitbuffer.md R111; R11 `BBAppend`). -/
def appendBits (bs : List Bool) (s : State) : Except Raised State :=
  if s.bbLen + bs.length > Config.bbCap then .error .bufferFull
  else .ok { s with bb := s.bb ++ bs }

/-! ### Reset -/

/-- A reset begins (R240, R242, R243): every state element takes its value of R48 and BUSY is 1 for
`RESET_CYCLES` cycles. The model's own fields are not the block's and stay. -/
def startReset (s : State) : State :=
  { State.reset with
    engine := .resetting (Config.resetCycles - 1), host := s.host, reads := s.reads,
    draws := s.draws }

end Machine
end Sys2Proof
end

