-- ==== Sys2Proof/Machine/Bus.lean ====
section
/-! DEFINITION. The register window: host reads and writes, idle, while a command runs and during a
reset (spec/10_state.md R21 to R37; spec/20_memory.md R61 to R63; spec/30_encoding.md R95;
spec/70_reset_and_hazards.md R241, R242, R252). -/

namespace Sys2Proof.Machine

/-- The registers of the window (R21). -/
inductive Reg where
  | id
  | ctrl
  | status
  | cfg
  | arg0
  | arg1
  | cmd
  | result0
  | result1
  | bblen
  | rsdeg
  | mxinfo
  | cmdcnt
  deriving DecidableEq, Repr

/-- The register at an offset; `none` for a reserved offset (R21, R36). -/
def Reg.ofOffset (o : BitVec 8) : Option Reg :=
  if o = 0x00 then some .id
  else if o = 0x04 then some .ctrl
  else if o = 0x08 then some .status
  else if o = 0x0C then some .cfg
  else if o = 0x10 then some .arg0
  else if o = 0x14 then some .arg1
  else if o = 0x18 then some .cmd
  else if o = 0x1C then some .result0
  else if o = 0x20 then some .result1
  else if o = 0x24 then some .bblen
  else if o = 0x28 then some .rsdeg
  else if o = 0x2C then some .mxinfo
  else if o = 0x30 then some .cmdcnt
  else none

/-- The access is one of R61: 32 bits at a multiple-of-4 offset. -/
def admitted (o : BitVec 8) (size : AccessSize) : Bool :=
  decide (size = .word) && decide (o.toNat % 4 = 0)

/-- The value a register holds (R21 to R35). -/
def State.regWord (s : State) : Reg → Word
  | .id => Config.idValue
  | .ctrl => s.ctrlWord
  | .status => s.statusWord
  | .cfg => s.cfg.toWord
  | .arg0 => s.arg0
  | .arg1 => s.arg1
  | .cmd => 0
  | .result0 => s.result0
  | .result1 => s.result1
  | .bblen => word s.bbLen
  | .rsdeg => word s.deg.val
  | .mxinfo => s.mxInfoWord
  | .cmdcnt => s.cmdcnt

/-- The value of a read while a command runs: RESULT0, RESULT1, BBLEN, RSDEG, MXINFO and the field
STATUS.MXSTATE are unspecified (R37, I1), so they are drawn. -/
def State.regWordRunning (s : State) (draw : Word) : Reg → Word
  | .status => s.statusWordWith (draw.toNat % 4)
  | .result0 | .result1 | .bblen | .rsdeg | .mxinfo => draw
  | .id => s.regWord .id
  | .ctrl => s.regWord .ctrl
  | .cfg => s.regWord .cfg
  | .arg0 => s.regWord .arg0
  | .arg1 => s.regWord .arg1
  | .cmd => s.regWord .cmd
  | .cmdcnt => s.regWord .cmdcnt

/-- One admitted 32-bit host read; the value joins `reads` and the registers are unchanged (R36, R37,
R63). -/
def hostRead (o : BitVec 8) (s : State) : State :=
  match Reg.ofOffset o with
  | none => { s with reads := s.reads ++ [0] }
  | some r =>
    match s.engine with
    | .idle | .resetting _ => { s with reads := s.reads ++ [s.regWord r] }
    | .running _ _ =>
      { s with reads := s.reads ++ [s.regWordRunning (Config.busyRead s.draws) r], draws := s.draws + 1 }

/-- A write to CTRL, idle or while a command runs (R23, R242, R252). -/
def writeCtrl (v : Word) (s : State) : State :=
  if v.getLsbD 1 then startReset s else { s with ie := v.getLsbD 0 }

/-- A write to STATUS while BUSY = 0, in the order of R25. -/
def writeStatus (v : Word) (s : State) : State :=
  let s := if v.getLsbD 1 then { s with done := false } else s
  let s := if v.getLsbD 3 then { s with ovr := false } else s
  if v.getLsbD 2 then clearError s else s

/-- A write to CMD while BUSY = 0 issues the command word: BUSY becomes 1 (R30, R37, R80). -/
def issue (v : Word) (s : State) : State :=
  { s with engine := .running v (Config.cmdLatency v s - 1) }

/-- A register write while BUSY = 0 (R21, R25, R27, R29, R30, R36). -/
def writeIdle (r : Reg) (v : Word) (s : State) : State :=
  match r with
  | .ctrl => writeCtrl v s
  | .status => writeStatus v s
  | .cfg => { s with cfg := Cfg.ofWord v }
  | .arg0 => { s with arg0 := v }
  | .arg1 => { s with arg1 := v }
  | .cmd => issue v s
  | .id | .result0 | .result1 | .bblen | .rsdeg | .mxinfo | .cmdcnt => s

/-- A register write while a command runs (R252). -/
def writeRunning (r : Reg) (v : Word) (s : State) : State :=
  match r with
  | .arg0 | .arg1 | .cfg | .cmd | .status => { s with ovr := true }
  | .ctrl => writeCtrl v s
  | .id | .result0 | .result1 | .bblen | .rsdeg | .mxinfo | .cmdcnt => s

/-- One admitted 32-bit host write (R36, R241, R252). -/
def hostWrite (o : BitVec 8) (v : Word) (s : State) : State :=
  match Reg.ofOffset o with
  | none => s
  | some r =>
    match s.engine with
    | .idle => writeIdle r v s
    | .running _ _ => writeRunning r v s
    | .resetting _ => s

/-- The host's turn: its next operation, if any, is performed and leaves `host`; `poll` stays until it
reads BUSY = 0 (R95). An access R62 does not admit is refused. -/
def hostTurn (s : State) : Host.Outcome State Fault Refusal :=
  match s.host with
  | [] => .next s
  | .wr o size v :: rest =>
    if admitted o size then .next (hostWrite o v { s with host := rest }) else .refused .hostAccess
  | .rd o size :: rest =>
    if admitted o size then .next (hostRead o { s with host := rest }) else .refused .hostAccess
  | .poll :: rest => .next (if s.busy then s else { s with host := rest })
  | .resetInput :: rest => .next (startReset { s with host := rest })

/-- The command word `w` ends its run: dropped while ERR ≠ 0, else IllegalCommand if it does not decode
(R83, R86, R218). A decoded command is `exec`'s. -/
def rejectWord (w : Word) (s : State) : Host.Outcome State Fault Refusal :=
  command (w.extractLsb' 0 8) (fun _ => .error .illegalCommand) s

end Sys2Proof.Machine
end

