-- ==== Sys2Proof/Machine/BitBuffer.lean ====
section
/-! DEFINITION. The bit-buffer commands (spec/41_bitbuffer.md). -/

namespace Sys2Proof.Machine

/-- BB_CLR (R110). -/
def execBbClr (s : State) : Host.Outcome State Fault Refusal :=
  command 0x10 (fun s => .ok { s with bb := [] }) s

/-- BB_APB (R112). -/
def execBbApb (width : Nat) (s : State) : Host.Outcome State Fault Refusal :=
  command 0x11
    (fun s =>
      if s.arg0.toNat / 2 ^ width ≠ 0 then .error .rangeError
      else appendBits (msbBits width s.arg0.toNat) s)
    s

/-- BB_APBY (R114). -/
def execBbApby (n : Nat) (s : State) : Host.Outcome State Fault Refusal :=
  command 0x12
    (fun s =>
      if n = 0 ∨ n > 4 then .error .invalidArgument
      else if ¬ lanesClear s.arg0 n then .error .rangeError
      else appendBits ((lanes s.arg0 n).flatMap (msbBits 8)) s)
    s

/-- The character is a decimal digit (R116). -/
def isDigit (c : Nat) : Bool := decide (0x30 ≤ c) && decide (c ≤ 0x39)

/-- BB_APNUM (R115, R116). -/
def execBbApnum (n : Nat) (s : State) : Host.Outcome State Fault Refusal :=
  command 0x13
    (fun s =>
      if n = 0 ∨ n > 3 then .error .invalidArgument
      else if ¬ lanesClear s.arg0 n then .error .rangeError
      else if (lanes s.arg0 n).all isDigit = false then .error .formatError
      else appendBits (msbBits (3 * n + 1) (digitsValue (lanes s.arg0 n))) s)
    s

/-- BB_APALN (R117, R118). -/
def execBbApaln (n : Nat) (s : State) : Host.Outcome State Fault Refusal :=
  command 0x14
    (fun s =>
      if n = 0 ∨ n > 2 then .error .invalidArgument
      else if ¬ lanesClear s.arg0 n then .error .rangeError
      else if n = 2 then
        match charsetIndex (lane s.arg0 0), charsetIndex (lane s.arg0 1) with
        | some i, some j => appendBits (msbBits 11 (i * 45 + j)) s
        | none, _ => .error .formatError
        | some _, none => .error .formatError
      else
        match charsetIndex (lane s.arg0 0) with
        | some i => appendBits (msbBits 6 i) s
        | none => .error .formatError)
    s

/-- The ECI designator of `value < 1000000` (R119). -/
def eciBits (value : Nat) : List Bool :=
  if value < 128 then msbBits 8 value
  else if value < 16384 then msbBits 2 0b10 ++ msbBits 14 value
  else msbBits 3 0b110 ++ msbBits 21 value

/-- BB_APECI (R120). -/
def execBbApeci (s : State) : Host.Outcome State Fault Refusal :=
  command 0x15
    (fun s =>
      if s.arg0.toNat ≥ 1000000 then .error .rangeError
      else appendBits (eciBits s.arg0.toNat) s)
    s

/-- BB_GET (R122). -/
def execBbGet (s : State) : Host.Outcome State Fault Refusal :=
  command 0x16
    (fun s =>
      match s.bb[s.arg0.toNat]? with
      | none => .error .indexError
      | some b => .ok { s with result0 := word b.toNat })
    s

end Sys2Proof.Machine
end

