-- ==== Sys2Proof/Machine/Control.lean ====
section
/-! DEFINITION. The control and memory-access commands (spec/40_control.md). -/

namespace Sys2Proof.Machine

/-- NOP (R100). -/
def execNop (s : State) : Host.Outcome State Fault Refusal := command 0x00 (fun s => .ok s) s

/-- The store and size of a memory space; `none` for spaces 2 and 3 (spec/40_control.md, helper). -/
def spaceSize (space : Nat) : Option Nat :=
  if space = 0 then some Config.dataSize else if space = 1 then some Config.rawSize else none

/-- `MemRead(space_store(space), a)` for space 0 or 1. -/
def spaceRead (s : State) (space a : Nat) : Byte :=
  if space = 0 then s.data.read a else s.raw.read a

/-- `MemWrite(space_store(space), a, v)` for space 0 or 1. -/
def spaceWrite (s : State) (space a : Nat) (v : Byte) : State :=
  if space = 0 then { s with data := s.data.write a v } else { s with raw := s.raw.write a v }

/-- MEMWR (R101). -/
def execMemwr (space : Nat) (s : State) : Host.Outcome State Fault Refusal :=
  command 0x01
    (fun s =>
      match spaceSize space with
      | none => .error .invalidArgument
      | some size =>
        if s.arg0.toNat ≥ size then .error .indexError
        else if s.arg1.toNat > 255 then .error .rangeError
        else .ok (spaceWrite s space s.arg0.toNat (s.arg1.setWidth 8)))
    s

/-- MEMRD (R102). -/
def execMemrd (space : Nat) (s : State) : Host.Outcome State Fault Refusal :=
  command 0x02
    (fun s =>
      match spaceSize space with
      | none => .error .invalidArgument
      | some size =>
        if s.arg0.toNat ≥ size then .error .indexError
        else .ok { s with result0 := (spaceRead s space s.arg0.toNat).setWidth 32 })
    s

end Sys2Proof.Machine
end

