-- ==== Sys2Proof/Machine/Matrix.lean ====
section
/-! DEFINITION. Function patterns, placement, masks, format and version information, and the matrix
commands (spec/44_matrix.md). `size` is the symbol side, `x` a column and `y` a row (R13). -/

namespace Sys2Proof.Machine

/-- `|a - b|` of two natural numbers. -/
def dist (a b : Nat) : Nat := (a - b) + (b - a)

/-! ### Function patterns -/

/-- `drawTiming()` (R171). -/
def drawTiming (size : Nat) (p : Planes) : Planes :=
  loop size (fun i p => (p.setFunction 6 i (i % 2 == 0)).setFunction i 6 (i % 2 == 0)) p

/-- `drawFinder(cx, cy)` (R172): `i = dx + 4` and `j = dy + 4` run from 0 to 8. -/
def drawFinder (size cx cy : Nat) (p : Planes) : Planes :=
  loop 9
    (fun j p =>
      loop 9
        (fun i p =>
          let d := max (dist i 4) (dist j 4)
          if (4 ≤ cx + i ∧ cx + i < size + 4) ∧ 4 ≤ cy + j ∧ cy + j < size + 4 then
            p.setFunction (cx + i - 4) (cy + j - 4) (d != 2 && d != 4)
          else p)
        p)
    p

/-- `drawFinders()` (R172). -/
def drawFinders (size : Nat) (p : Planes) : Planes :=
  drawFinder size 3 (size - 4) (drawFinder size (size - 4) 3 (drawFinder size 3 3 p))

/-- `alignPositions(v)` (R173). -/
def alignPositions (v : Nat) : List Nat :=
  if v = 1 then []
  else
    let na := numAlign v
    let step := if v = 32 then 26 else (v * 4 + na * 2 + 1) / (na * 2 - 2) * 2
    (List.range na).map fun i =>
      if i = 0 then 6 else (v * 4 + 17) - 7 - (na - 1 - i) * step

/-- One 5×5 alignment pattern centred at column `cx`, row `cy` (R174): `a = dx + 2`, `b = dy + 2`. -/
def drawAlignment (cx cy : Nat) (p : Planes) : Planes :=
  loop 5
    (fun b p =>
      loop 5
        (fun a p =>
          p.setFunction (cx + a - 2) (cy + b - 2) (max (dist a 2) (dist b 2) != 1))
        p)
    p

/-- `drawAlignments()` (R174). -/
def drawAlignments (v : Nat) (p : Planes) : Planes :=
  let pos := alignPositions v
  let na := pos.length
  loop na
    (fun i p =>
      loop na
        (fun j p =>
          if (i = 0 ∧ j = 0) ∨ (i = 0 ∧ j = na - 1) ∨ (i = na - 1 ∧ j = 0) then p
          else drawAlignment (pos.getD i 0) (pos.getD j 0) p)
        p)
    p

/-- `formatBits(e, mask)` (R176). -/
def formatBits (e : Ecl) (mask : Nat) : Nat :=
  let data := formatEclCode e * 2 ^ 3 + mask
  let rem := loop 10 (fun _ rem => (rem <<< 1) ^^^ ((rem >>> 9) * 0x537)) data
  (data * 2 ^ 10 + rem % 2 ^ 10) ^^^ 0x5412

/-- `drawFormat(e, mask)` (R176). -/
def drawFormat (size : Nat) (e : Ecl) (mask : Nat) (p : Planes) : Planes :=
  let f := formatBits e mask
  let p := loop 6 (fun i p => p.setFunction 8 i (f.testBit i)) p
  let p := p.setFunction 8 7 (f.testBit 6)
  let p := p.setFunction 8 8 (f.testBit 7)
  let p := p.setFunction 7 8 (f.testBit 8)
  let p := loop 6 (fun k p => p.setFunction (14 - (9 + k)) 8 (f.testBit (9 + k))) p
  let p := loop 8 (fun i p => p.setFunction (size - 1 - i) 8 (f.testBit i)) p
  let p := loop 7 (fun k p => p.setFunction 8 (size - 15 + (8 + k)) (f.testBit (8 + k))) p
  p.setFunction 8 (size - 8) true

/-- `versionBits(v)` (R177). -/
def versionBits (v : Nat) : Nat :=
  let rem := loop 12 (fun _ rem => (rem <<< 1) ^^^ ((rem >>> 11) * 0x1F25)) v
  v * 2 ^ 12 + rem % 2 ^ 12

/-- `drawVersion()` (R177). -/
def drawVersion (v : Nat) (p : Planes) : Planes :=
  if v < 7 then p
  else
    let b := versionBits v
    loop 18
      (fun i p =>
        let a := (v * 4 + 17) - 11 + i % 3
        let c := i / 3
        (p.setFunction a c (b.testBit i)).setFunction c a (b.testBit i))
      p

/-- The planes MX_INIT draws for version `v` and level `e`, in the drawing order of R170. -/
def drawPatterns (v : Nat) (e : Ecl) : Planes :=
  let size := v * 4 + 17
  drawVersion v (drawFormat size e 0 (drawAlignments v (drawFinders size (drawTiming size Planes.zero))))

/-- MX_INIT (R170). -/
def execMxInit (s : State) : Host.Outcome State Fault Refusal :=
  command 0x40
    (fun s =>
      if ¬ validVer s.cfg.version.toNat then .error .invalidArgument
      else
        .ok { s with
          mxVer := s.cfg.version, mxEcl := s.cfg.ecl, mxMaskV := false, mxState := .patterns
          planes := drawPatterns s.cfg.version.toNat s.cfg.ecl })
    s

/-! ### Placement -/

/-- The right columns of the pairs of the zig-zag, from `right` leftwards, column 6 replaced by 5; at
most `fuel` pairs (R179). -/
def pairColumns : (fuel right : Nat) → List Nat
  | 0, _ => []
  | fuel + 1, right =>
    if right < 1 then []
    else
      let right := if right = 6 then 5 else right
      right :: pairColumns fuel (right - 2)

/-- The modules `(x, y)` of one column pair in scan order (R179). -/
def pairModules (size right : Nat) : List (Nat × Nat) :=
  let upward := ((right + 1) &&& 2) == 0
  (List.range size).flatMap fun vert =>
    let y := if upward then size - 1 - vert else vert
    [(right, y), (right - 1, y)]

/-- The modules of the symbol region in the order of the zig-zag (R179). -/
def zigzag (size : Nat) : List (Nat × Nat) :=
  (pairColumns size (size - 1)).flatMap (pairModules size)

/-- Bits put into the non-function modules of the list in its order until they run out; `placed`
counts them (R179). -/
def placeBits (func : Plane) : List (Nat × Nat) → (bs : List Bool) → (placed : Nat) → Plane → Plane × Nat
  | [], _, placed, dark => (dark, placed)
  | _ :: _, [], placed, dark => (dark, placed)
  | (x, y) :: ms, b :: bs, placed, dark =>
    if func.get x y then placeBits func ms (b :: bs) placed dark
    else placeBits func ms bs (placed + 1) (dark.set x y b)

/-- The placement bits of a codeword sequence, most significant first (R64, R179). -/
def codewordBits (cw : List Byte) : List Bool := cw.flatMap fun b => msbBits 8 b.toNat

/-- `place(cw)`: the planes it leaves and the count it returns (R179). -/
def place (size : Nat) (cw : List Byte) (p : Planes) : Planes × Nat :=
  let r := placeBits p.func (zigzag size) (codewordBits cw) 0 p.dark
  ({ p with dark := r.1 }, r.2)

/-- MX_PLACE (R178). -/
def execMxPlace (s : State) : Host.Outcome State Fault Refusal :=
  command 0x41
    (fun s =>
      if s.mxState ≠ .patterns then .error .sequenceError
      else if s.arg0.toNat ≠ rawCw s.mxVer.toNat then .error .invalidArgument
      else
        let r := place s.mxSize (s.raw.readList 0 s.arg0.toNat) s.planes
        .ok { s with planes := r.1, mxState := .placed, result0 := word r.2 })
    s

/-! ### Masks and format information -/

/-- `mask(k, x, y)` (R180). -/
def maskAt (k x y : Nat) : Bool :=
  match k with
  | 0 => (x + y) % 2 == 0
  | 1 => y % 2 == 0
  | 2 => x % 3 == 0
  | 3 => (x + y) % 3 == 0
  | 4 => (x / 3 + y / 2) % 2 == 0
  | 5 => (x * y) % 2 + (x * y) % 3 == 0
  | 6 => ((x * y) % 2 + (x * y) % 3) % 2 == 0
  | _ => ((x + y) % 2 + (x * y) % 3) % 2 == 0

/-- `applyMask(k)` (R180). -/
def applyMask (size k : Nat) (p : Planes) : Planes :=
  loop size
    (fun y p =>
      loop size
        (fun x p =>
          if p.func.get x y = false ∧ maskAt k x y = true then p.setDark x y (!p.dark.get x y) else p)
        p)
    p

/-- MX_MASK (R181). -/
def execMxMask (mask : Nat) (s : State) : Host.Outcome State Fault Refusal :=
  command 0x42
    (fun s =>
      if s.mxState ≠ .placed then .error .sequenceError
      else .ok { s with planes := applyMask s.mxSize mask s.planes })
    s

/-- MX_FMT (R182). -/
def execMxFmt (mask : Nat) (s : State) : Host.Outcome State Fault Refusal :=
  command 0x43
    (fun s =>
      if s.mxState ≠ .placed then .error .sequenceError
      else .ok { s with planes := drawFormat s.mxSize s.mxEcl mask s.planes })
    s

/-! ### Module access -/

/-- MX_READ (R183). -/
def execMxRead (x y : Nat) (s : State) : Host.Outcome State Fault Refusal :=
  command 0x44
    (fun s =>
      if s.mxState = .unbuilt then .error .sequenceError
      else if x ≥ s.mxSize ∨ y ≥ s.mxSize then .ok { s with result0 := 0 }
      else
        .ok { s with
          result0 := word ((s.planes.dark.get x y).toNat + (s.planes.func.get x y).toNat * 2) })
    s

/-- MX_WR (R184). -/
def execMxWr (x y : Nat) (s : State) : Host.Outcome State Fault Refusal :=
  command 0x45
    (fun s =>
      if s.mxState ≠ .patterns ∧ s.mxState ≠ .placed then .error .sequenceError
      else if x ≥ s.mxSize ∨ y ≥ s.mxSize then .error .indexError
      else if s.planes.func.get x y = true then .error .invalidArgument
      else if s.arg0.toNat > 1 then .error .rangeError
      else .ok { s with planes := s.planes.setDark x y (s.arg0.getLsbD 0) })
    s

end Sys2Proof.Machine
end

