-- ==== Sys2Proof/Machine/Penalty.lean ====
section
/-! DEFINITION. The mask-penalty scorer and mask selection (spec/45_penalty.md). -/

namespace Sys2Proof.Machine

/-- The run history `h[0 .. 6]`, `h0` the most recent run (R203). -/
structure History where
  h0 : Nat
  h1 : Nat
  h2 : Nat
  h3 : Nat
  h4 : Nat
  h5 : Nat
  h6 : Nat
  deriving DecidableEq, Repr

/-- The history at the start of a line (R202). -/
def History.empty : History := ⟨0, 0, 0, 0, 0, 0, 0⟩

/-- `addHistory(len, h)` (R203). -/
def addHistory (size len : Nat) (h : History) : History :=
  ⟨if h.h0 = 0 then len + size else len, h.h0, h.h1, h.h2, h.h3, h.h4, h.h5⟩

/-- `countPatterns(h)` (R203). -/
def countPatterns (h : History) : Nat :=
  let n := h.h1
  let core := decide (n > 0 ∧ h.h2 = n ∧ h.h3 = 3 * n ∧ h.h4 = n ∧ h.h5 = n)
  (core && decide (h.h0 ≥ 4 * n ∧ h.h6 ≥ n)).toNat +
    (core && decide (h.h6 ≥ 4 * n ∧ h.h0 ≥ n)).toNat

/-- The scratch state of a line scan (R202, spec/10_state.md R47). -/
structure Scan where
  color : Bool
  len : Nat
  hist : History
  n1 : Nat
  cnt : Nat
  deriving DecidableEq, Repr

/-- The scan before the first module: a light run of length 0 (R202). -/
def Scan.start : Scan := ⟨false, 0, .empty, 0, 0⟩

/-- One module of a line scan (R202). -/
def scanModule (size : Nat) (c : Scan) (m : Bool) : Scan :=
  if m = c.color then
    let len := c.len + 1
    { c with len := len, n1 := if len = 5 then c.n1 + 3 else if len > 5 then c.n1 + 1 else c.n1 }
  else
    let h := addHistory size c.len c.hist
    { c with
      color := m, len := 1, hist := h
      cnt := if c.color = false then c.cnt + countPatterns h else c.cnt }

/-- `terminateAndCount(runColor, runLen, h)` (R203). -/
def terminateAndCount (size : Nat) (c : Scan) : Nat :=
  let (len, h) := if c.color then (0, addHistory size c.len c.hist) else (c.len, c.hist)
  countPatterns (addHistory size (len + size) h)

/-- `scanLine(c)`: the N1 points and the N3 pattern count of a line (R202). -/
def scanLine (size : Nat) (line : List Bool) : Nat × Nat :=
  let c := line.foldl (scanModule size) .start
  (c.n1, c.cnt + terminateAndCount size c)

/-- Row `y` of the symbol region. -/
def Plane.row (p : Plane) (size y : Nat) : List Bool := (List.range size).map fun x => p.get x y

/-- Column `x` of the symbol region. -/
def Plane.column (p : Plane) (size x : Nat) : List Bool := (List.range size).map fun y => p.get x y

/-- The sum of `f 0 .. f (n-1)`. -/
def sumTo (n : Nat) (f : Nat → Nat) : Nat := ((List.range n).map f).sum

/-- `n1` of R201: the N1 points over every row and column. -/
def runPoints (size : Nat) (dark : Plane) : Nat :=
  sumTo size (fun y => (scanLine size (dark.row size y)).1) +
    sumTo size (fun x => (scanLine size (dark.column size x)).1)

/-- `n3` of R201: the finder-like patterns over every row and column. -/
def finderCount (size : Nat) (dark : Plane) : Nat :=
  sumTo size (fun y => (scanLine size (dark.row size y)).2) +
    sumTo size (fun x => (scanLine size (dark.column size x)).2)

/-- `blocks2x2()` (R204). -/
def blocks2x2 (size : Nat) (dark : Plane) : Nat :=
  sumTo (size - 1) fun y => sumTo (size - 1) fun x =>
    let d := dark.get x y
    (d == dark.get (x + 1) y && d == dark.get x (y + 1) && d == dark.get (x + 1) (y + 1)).toNat

/-- The number of dark modules of the symbol region (R200, R204). -/
def darkCount (size : Nat) (dark : Plane) : Nat :=
  sumTo size fun y => sumTo size fun x => (dark.get x y).toNat

/-- `balanceSteps()` for `dk` dark modules (R204). -/
def balanceSteps (size dk : Nat) : Nat :=
  let total := size * size
  (dist (dk * 20) (total * 10) + total - 1) / total - 1

/-- `penalty()` (R201). -/
def penalty (size : Nat) (dark : Plane) : Nat :=
  runPoints size dark + 3 * blocks2x2 size dark + 40 * finderCount size dark +
    10 * balanceSteps size (darkCount size dark)

/-- MX_PEN (R200). -/
def execMxPen (s : State) : Host.Outcome State Fault Refusal :=
  command 0x50
    (fun s =>
      if s.mxState = .unbuilt then .error .sequenceError
      else
        .ok { s with
          result0 := word (penalty s.mxSize s.planes.dark)
          result1 := word (darkCount s.mxSize s.planes.dark) })
    s

/-- A symbol with mask `k` applied and its format information drawn (R205). -/
def masked (size : Nat) (e : Ecl) (k : Nat) (p : Planes) : Planes :=
  drawFormat size e k (applyMask size k p)

/-- One automatic trial of MSEL: the planes after the mask is undone and the best mask so far with its
score, `none` before the first trial (R205). -/
def trial (size : Nat) (e : Ecl) (k : Nat) (r : Planes × Option (Nat × Nat)) :
    Planes × Option (Nat × Nat) :=
  let p := masked size e k r.1
  let score := penalty size p.dark
  let best :=
    match r.2 with
    | none => some (k, score)
    | some (k', score') => if score < score' then some (k, score) else some (k', score')
  (applyMask size k p, best)

/-- The eight trials in order: the planes they leave and the mask they choose (R205, R206). -/
def selectMask (size : Nat) (e : Ecl) (p : Planes) : Planes × Nat :=
  let r := loop 8 (trial size e) (p, none)
  (r.1, r.2.elim 0 Prod.fst)

/-- MSEL (R205). -/
def execMsel (s : State) : Host.Outcome State Fault Refusal :=
  command 0x51
    (fun s =>
      let req := s.cfg.maskReq.toNat
      if s.mxState ≠ .placed then .error .sequenceError
      else if 8 ≤ req ∧ req ≤ 14 then .error .invalidArgument
      else
        let r := if req = 15 then selectMask s.mxSize s.mxEcl s.planes else (s.planes, req)
        let p := masked s.mxSize s.mxEcl r.2 r.1
        .ok { s with
          planes := p, mxMask := BitVec.ofNat 3 r.2, mxMaskV := true, mxState := .finalized
          result0 := word r.2, result1 := word (penalty s.mxSize p.dark) })
    s

end Sys2Proof.Machine
end

