-- ==== Sys2Proof/Machine/ReedSolomon.lean ====
section
/-! DEFINITION. GF(256) arithmetic and the Reed-Solomon commands (spec/42_reed_solomon.md). -/

namespace Sys2Proof.Machine

/-- One iteration of `gfmul`'s loop: multiply `z` by x, reduce by 0x11D, add bit `i` of `b` times `a`
(R130). -/
def gfStep (a b i z : Nat) : Nat :=
  let z := (z <<< 1) ^^^ ((z >>> 7) * 0x11D)
  z ^^^ (((b >>> i) &&& 1) * a)

/-- `gfmul(a, b)` on the mathematical integers of the pseudocode: `i` runs from 7 down to 0 (R130). -/
def gfmulNat (a b : Nat) : Nat := loop 8 (fun k z => gfStep a b (7 - k) z) 0

/-- `gfmul` on field elements (R130). -/
def gfmul (a b : Byte) : Byte := BitVec.ofNat 8 (gfmulNat a.toNat b.toNat)

/-- GF_MUL (R131). -/
def execGfMul (x y : Nat) (s : State) : Host.Outcome State Fault Refusal :=
  command 0x20 (fun s => .ok { s with result0 := word (gfmulNat x y) }) s

/-- The product of a divisor in progress and `(x - root)`: the inner loop of `divisor` (R132). -/
def mulRoot (root : Byte) : List Byte → List Byte
  | [] => []
  | [r] => [gfmul r root]
  | r :: r' :: rs => (gfmul r root ^^^ r') :: mulRoot root (r' :: rs)

/-- `divisor(d)` for `d ≥ 1`, the leading coefficient omitted, highest power first (R132). -/
def divisor (d : Nat) : List Byte :=
  (loop d (fun _ (p : List Byte × Byte) => (mulRoot p.2 p.1, gfmul p.2 0x02))
    (List.replicate (d - 1) 0 ++ [1], 1)).1

/-- RS_DIV (R133). -/
def execRsDiv (degree : Nat) (s : State) : Host.Outcome State Fault Refusal :=
  command 0x21
    (fun s =>
      if degree < 1 ∨ degree > 255 then .error .invalidArgument
      else
        .ok { s with div := Memory.ofList (divisor degree), rem := [], deg := Fin.ofNat 256 degree })
    s

/-- One iteration of `remainder`'s loop: message byte `m` enters the register `r` (R134). -/
def remStep (div r : List Byte) (m : Byte) : List Byte :=
  let factor := m ^^^ r.headD 0
  List.zipWith (fun a d => a ^^^ gfmul d factor) (r.tail ++ [0]) div

/-- `remainder(msg, div)` for `div` of degree at least 1 (R134). -/
def remainder (msg div : List Byte) : List Byte :=
  msg.foldl (remStep div) (List.replicate div.length 0)

/-- RS_REM (R135). -/
def execRsRem (s : State) : Host.Outcome State Fault Refusal :=
  command 0x22
    (fun s =>
      if s.deg.val = 0 then .error .sequenceError
      else if s.arg0.toNat + s.arg1.toNat > Config.dataSize then .error .invalidArgument
      else
        let m := s.data.readList s.arg0.toNat s.arg1.toNat
        .ok { s with rem := s.rem.writeList 0 (remainder m (s.div.readList 0 s.deg.val)) })
    s

/-- RS_RD (R136). -/
def execRsRd (sel : RsFile) (index : Nat) (s : State) : Host.Outcome State Fault Refusal :=
  command 0x23
    (fun s =>
      if index ≥ s.deg.val then .error .indexError
      else
        let b := match sel with
          | .rem => s.rem.read index
          | .div => s.div.read index
        .ok { s with result0 := b.setWidth 32 })
    s

end Sys2Proof.Machine
end

