-- ==== Sys2Proof/Machine/Serializer.lean ====
section
/-! DEFINITION. The encoder pipeline: segment table, version search, headers, padding, packing and
interleaving (spec/43_serializer.md). -/

namespace Sys2Proof.Machine

/-! ### Segments and the version search -/

/-- SEG_DEF (R146). -/
def execSegDef (index mode : Nat) (s : State) : Host.Outcome State Fault Refusal :=
  command 0x30
    (fun s =>
      if index ≥ Config.segMax then .error .indexError
      else if Mode.ofCode mode = none then .error .invalidArgument
      else
        .ok { s with
          segtab := s.segtab.setIfInBounds index
            { mode := BitVec.ofNat 4 mode, count := s.arg0, plen := s.arg1 } })
    s

/-- A segment with a legal mode: mode, character count, payload length. -/
structure Seg where
  mode : Mode
  count : Nat
  plen : Nat
  deriving DecidableEq, Repr

/-- A SEGTAB entry read for VSEL; `none` if its mode is illegal (R147, check 3). -/
def Segment.seg (g : Segment) : Option Seg :=
  (Mode.ofCode g.mode.toNat).map fun m => ⟨m, g.count.toNat, g.plen.toNat⟩

/-- SEGTAB[0 .. CFG.NSEG-1]; `none` if one of them has an illegal mode (R147, check 3). -/
def State.segments (s : State) : Option (List Seg) :=
  (s.segtab.toList.take s.cfg.nseg.toNat).mapM Segment.seg

/-- The loop of `total_bits(v)` from the running total `t`; `none` is SENTINEL (R145). -/
def totalBitsFrom (v : Nat) : (t : Nat) → List Seg → Option Nat
  | t, [] => some t
  | t, g :: gs =>
    if g.count < 2 ^ ccbits g.mode v then
      let t := t + 4 + ccbits g.mode v + g.plen
      if t > 2 ^ 31 - 1 then none else totalBitsFrom v t gs
    else none

/-- `total_bits(v)`; `none` is SENTINEL (R145). -/
def totalBits (gs : List Seg) (v : Nat) : Option Nat := totalBitsFrom v 0 gs

/-- The total at `v` if the segments fit version `v` at level `e` (R147, the loop's exit test). -/
def fitsAt (gs : List Seg) (e : Ecl) (v : Nat) : Option Nat :=
  match totalBits gs v with
  | some t => if t ≤ capBits v e then some t else none
  | none => none

/-- The loop of VSEL: the first of the versions `v .. v + more` that fits, and its total (R147). -/
def searchVersion (gs : List Seg) (e : Ecl) : (v more : Nat) → Option (Nat × Nat)
  | v, 0 => (fitsAt gs e v).map fun t => (v, t)
  | v, more + 1 =>
    match fitsAt gs e v with
    | some t => some (v, t)
    | none => searchVersion gs e (v + 1) more

/-- The boost loop of VSEL: the levels in ordinal order, keeping the last that holds `t` (R147). -/
def boostEcl (v t : Nat) (e : Ecl) : Ecl :=
  Ecl.ordered.foldl (fun ecc e' => if t ≤ capBits v e' then e' else ecc) e

/-- VSEL (R147, R220). -/
def execVsel (minver maxver : Nat) (boost : Bool) (s : State) :
    Host.Outcome State Fault Refusal :=
  command 0x31
    (fun s =>
      if ¬ (validVer minver ∧ validVer maxver ∧ minver ≤ maxver) then .error .invalidArgument
      else if s.cfg.nseg.toNat > Config.segMax then .error .invalidArgument
      else
        match s.segments with
        | none => .error .invalidArgument
        | some gs =>
          match searchVersion gs s.cfg.ecl minver (maxver - minver) with
          | none =>
            .error (.dataTooLong ((totalBits gs maxver).getD 0xFFFFFFFF) (capBits maxver s.cfg.ecl))
          | some (v, t) =>
            let ecc := if boost then boostEcl v t s.cfg.ecl else s.cfg.ecl
            .ok { s with
              cfg := { s.cfg with version := BitVec.ofNat 6 v, ecl := ecc }
              result0 := word t, result1 := word (capBits v ecc) })
    s

/-- CAPQ (R148). -/
def execCapq (s : State) : Host.Outcome State Fault Refusal :=
  command 0x32
    (fun s =>
      let v := s.cfg.version.toNat
      let e := s.cfg.ecl
      if ¬ validVer v then .error .invalidArgument
      else
        .ok { s with
          result0 := word (ndata v e)
          result1 := word (rawCw v + numBlocks e v * 2 ^ 16 + eccPerBlock e v * 2 ^ 24) })
    s

/-! ### Bit assembly -/

/-- SEG_HDR (R149). -/
def execSegHdr (mode : Nat) (s : State) : Host.Outcome State Fault Refusal :=
  command 0x33
    (fun s =>
      match Mode.ofCode mode with
      | none => .error .invalidArgument
      | some m =>
        let v := s.cfg.version.toNat
        let w := ccbits m v
        if ¬ validVer v then .error .invalidArgument
        else if s.arg0.toNat ≥ 2 ^ w then .error .rangeError
        else appendBits (msbBits 4 mode ++ msbBits w s.arg0.toNat) s)
    s

/-- `n` pad bytes from `pad` on, alternating 0xEC and 0x11 (R150). -/
def padBytes : (n pad : Nat) → List Bool
  | 0, _ => []
  | n + 1, pad => msbBits 8 pad ++ padBytes n (pad ^^^ 0xEC ^^^ 0x11)

/-- The bit buffer TERMPAD leaves from `bb` for capacity `cap`: terminator, byte boundary, pad bytes
(R150). -/
def padded (cap : Nat) (bb : List Bool) : List Bool :=
  let bb := bb ++ msbBits (min 4 (cap - bb.length)) 0
  let bb := bb ++ msbBits ((8 - bb.length % 8) % 8) 0
  bb ++ padBytes ((cap - bb.length) / 8) 0xEC

/-- TERMPAD (R150). -/
def execTermpad (s : State) : Host.Outcome State Fault Refusal :=
  command 0x34
    (fun s =>
      let v := s.cfg.version.toNat
      let cap := capBits v s.cfg.ecl
      if ¬ validVer v then .error .invalidArgument
      else if s.bbLen > cap then .error (.dataTooLong s.bbLen cap)
      else
        let bb := padded cap s.bb
        .ok { s with bb := bb, result0 := word bb.length })
    s

/-- Bits packed into bytes, most significant first; a last group of fewer than 8 bits is not packed
(R64, R151). -/
def packBits : List Bool → List Byte
  | b0 :: b1 :: b2 :: b3 :: b4 :: b5 :: b6 :: b7 :: rest =>
    BitVec.ofNat 8 (ofMsbBits [b0, b1, b2, b3, b4, b5, b6, b7]) :: packBits rest
  | _ => []

/-- PACK (R151). -/
def execPack (s : State) : Host.Outcome State Fault Refusal :=
  command 0x35
    (fun s =>
      if s.bbLen % 8 ≠ 0 then .error .invalidArgument
      else
        .ok { s with data := s.data.writeList 0 (packBits s.bb), result0 := word (s.bbLen / 8) })
    s

/-! ### Blocks, ECC and interleaving -/

/-- The dimensions of the block split of a version and level (R152). -/
structure Split where
  /-- Number of blocks. -/
  nb : Nat
  /-- ECC codewords per block. -/
  el : Nat
  /-- Number of short blocks. -/
  nshort : Nat
  /-- Length of a short block, data and ECC. -/
  sl : Nat
  deriving DecidableEq, Repr

def split (v : Nat) (e : Ecl) : Split where
  nb := numBlocks e v
  el := eccPerBlock e v
  nshort := numBlocks e v - rawCw v % numBlocks e v
  sl := rawCw v / numBlocks e v

/-- Data codewords of block `i` (R152). -/
def Split.dataLen (p : Split) (i : Nat) : Nat := p.sl - p.el + (if i < p.nshort then 0 else 1)

/-- The data codewords of the blocks `i ..` of which `left` remain, taken in order from `data`
(R152). -/
def blockData (p : Split) : (left i : Nat) → (data : List Byte) → List (List Byte)
  | 0, _, _ => []
  | left + 1, i, data =>
    data.take (p.dataLen i) :: blockData p left (i + 1) (data.drop (p.dataLen i))

/-- Block `i`: data, the placeholder of a short block, and ECC (R152). -/
def block (p : Split) (div : List Byte) (i : Nat) (dat : List Byte) : List Byte :=
  dat ++ (if i < p.nshort then [0] else []) ++ remainder dat div

/-- Every block (R152). -/
def blocks (p : Split) (data : List Byte) : List (List Byte) :=
  (blockData p p.nb 0 data).mapIdx fun i dat => block p (divisor p.el) i dat

/-- The round-robin read-out, skipping the placeholders of the short blocks (R152). -/
def roundRobin (p : Split) (blks : List (List Byte)) : List Byte :=
  (List.range (p.sl + 1)).flatMap fun c =>
    (List.range p.nb).flatMap fun i =>
      if c ≠ p.sl - p.el ∨ i ≥ p.nshort then [(blks.getD i []).getD c 0] else []

/-- `interleave(v, e, data)` (R152). -/
def interleave (v : Nat) (e : Ecl) (data : List Byte) : List Byte :=
  roundRobin (split v e) (blocks (split v e) data)

/-- The ECC codewords of the last block (R153). -/
def lastEcc (v : Nat) (e : Ecl) (data : List Byte) : List Byte :=
  let p := split v e
  remainder ((blockData p p.nb 0 data).getD (p.nb - 1) []) (divisor p.el)

/-- INTLV (R153). -/
def execIntlv (s : State) : Host.Outcome State Fault Refusal :=
  command 0x36
    (fun s =>
      let v := s.cfg.version.toNat
      let e := s.cfg.ecl
      if ¬ validVer v then .error .invalidArgument
      else if s.arg0.toNat ≠ ndata v e then .error .invalidArgument
      else
        let dat := s.data.readList 0 s.arg0.toNat
        .ok { s with
          raw := s.raw.writeList 0 (interleave v e dat)
          div := Memory.ofList (divisor (eccPerBlock e v))
          rem := Memory.ofList (lastEcc v e dat)
          deg := Fin.ofNat 256 (eccPerBlock e v)
          result0 := word (rawCw v) })
    s

end Sys2Proof.Machine
end

