-- ==== Sys2Proof/Machine/Dispatch.lean ====
section
/-! DEFINITION. One arm per command: the meaning of a command issued in a state and run to its
completion. -/

namespace Sys2Proof.Machine

def exec (i : Instr) (s : State) : Host.Outcome State Fault Refusal :=
  match i with
  | .nop => Sys2Proof.Machine.execNop s
  | .memwr space => Sys2Proof.Machine.execMemwr space s
  | .memrd space => Sys2Proof.Machine.execMemrd space s
  | .bbClr => Sys2Proof.Machine.execBbClr s
  | .bbApb width => Sys2Proof.Machine.execBbApb width s
  | .bbApby n => Sys2Proof.Machine.execBbApby n s
  | .bbApnum n => Sys2Proof.Machine.execBbApnum n s
  | .bbApaln n => Sys2Proof.Machine.execBbApaln n s
  | .bbApeci => Sys2Proof.Machine.execBbApeci s
  | .bbGet => Sys2Proof.Machine.execBbGet s
  | .gfMul x y => Sys2Proof.Machine.execGfMul x y s
  | .rsDiv degree => Sys2Proof.Machine.execRsDiv degree s
  | .rsRem => Sys2Proof.Machine.execRsRem s
  | .rsRd sel index => Sys2Proof.Machine.execRsRd sel index s
  | .segDef index mode => Sys2Proof.Machine.execSegDef index mode s
  | .vsel minver maxver boost => Sys2Proof.Machine.execVsel minver maxver boost s
  | .capq => Sys2Proof.Machine.execCapq s
  | .segHdr mode => Sys2Proof.Machine.execSegHdr mode s
  | .termpad => Sys2Proof.Machine.execTermpad s
  | .pack => Sys2Proof.Machine.execPack s
  | .intlv => Sys2Proof.Machine.execIntlv s
  | .mxInit => Sys2Proof.Machine.execMxInit s
  | .mxPlace => Sys2Proof.Machine.execMxPlace s
  | .mxMask mask => Sys2Proof.Machine.execMxMask mask s
  | .mxFmt mask => Sys2Proof.Machine.execMxFmt mask s
  | .mxRead x y => Sys2Proof.Machine.execMxRead x y s
  | .mxWr x y => Sys2Proof.Machine.execMxWr x y s
  | .mxPen => Sys2Proof.Machine.execMxPen s
  | .msel => Sys2Proof.Machine.execMsel s

end Sys2Proof.Machine
end

