-- ==== Sys2Proof/Machine/Step.lean ====
section
/-! DEFINITION. One step of the machine: a host turn, the completion of the command that runs, or the
end of a reset (spec/20_memory.md R68, spec/70_reset_and_hazards.md R240, R250). -/

namespace Sys2Proof.Machine

/-- The command word accepted from CMD is decoded, executed and completed (R37, R88). -/
def runWord (w : Word) (s : State) : Host.Outcome State Fault Refusal :=
  match decode w with
  | .ok i => exec i s
  | .error _ => rejectWord w s

/-- One step. While a command runs or a reset clears, host turns pass until the count is 0; then the
command takes its whole effect and completes, or the reset ends. Otherwise the host has its turn. -/
def step (s : State) : Host.Outcome State Fault Refusal :=
  match s.engine with
  | .idle => hostTurn s
  | .running w 0 => runWord w s
  | .running w (left + 1) => hostTurn { s with engine := .running w left }
  | .resetting 0 => .next { s with engine := .idle }
  | .resetting (left + 1) => hostTurn { s with engine := .resetting left }

/-- `s` with the command word `w` accepted and at the end of its run, so that the next step decodes,
executes and completes it. It stands for the host's CMD write (notes/assumptions/4.md); nothing else
changes. -/
def State.withFetchWord (s : State) (nbits w : Nat) : State :=
  { s with engine := .running (word (w % 2 ^ nbits)) 0 }

end Sys2Proof.Machine
end

