-- ==== Sys2Proof/Safety.lean ====
section
/-! DEFINITION. What a legal state is, what a safe run is, and the outcomes of a command, in the terms
the obligations use. -/

namespace Sys2Proof.Machine

/-! ### Legal states -/

/-- The bit buffer is within its capacity (R38) and DATA, RAW and REM are in canonical form, REM being 0
at DEG and above (R39, R40, R42). -/
abbrev State.StoresOk (s : State) : Prop :=
  s.bb.length ≤ Config.bbCap ∧ s.data.wf Config.dataSize = true ∧ s.raw.wf Config.rawSize = true ∧
    s.rem.wf s.deg.val = true

/-- DIV holds the divisor of degree DEG and 0 above it; with DEG = 0, nothing (R42). -/
abbrev State.DivisorOk (s : State) : Prop :=
  s.div = if s.deg.val = 0 then [] else Memory.ofList (divisor s.deg.val)

/-- ERR_OPC is 0 when no error is recorded (R24, R25). -/
abbrev State.ErrorOk (s : State) : Prop := s.err = none → s.errOpc = 0

/-- Every SEGTAB entry is the reset entry or has a legal mode (R48, R146). -/
abbrev State.SegtabOk (s : State) : Prop :=
  ∀ i (h : i < Config.segMax),
    s.segtab[i] = { mode := 0, count := 0, plen := 0 } ∨
      (Mode.ofCode s.segtab[i].mode.toNat).isSome = true

/-- The plane is 0 outside its first `size` rows and columns: row `y` has no bit from column `size` on,
and none at all from row `size` on. -/
def Plane.within (size : Nat) (p : Plane) : Bool :=
  (List.range Config.maxSize).all fun y =>
    match p.rows[y]? with
    | some row => decide (row.toNat < if y < size then 2 ^ size else 1)
    | none => true

/-- The 31 format-area modules of a symbol with the bit of the format word each holds; `none` is the
always-dark module (spec/44_matrix.md R176). -/
def formatModules (size : Nat) : List (Nat × Nat × Option Nat) :=
  ((List.range 6).map fun i => (8, i, some i)) ++
  [(8, 7, some 6), (8, 8, some 7), (7, 8, some 8)] ++
  ((List.range 6).map fun i => (5 - i, 8, some (9 + i))) ++
  ((List.range 8).map fun i => (size - 1 - i, 8, some i)) ++
  ((List.range 7).map fun i => (8, size - 7 + i, some (8 + i))) ++
  [(8, size - 8, none)]

/-- Before any MX_INIT the planes are 0 and MX_VER is 0 (R33, R48). -/
abbrev State.UnbuiltOk (s : State) : Prop :=
  s.mxState = .unbuilt → s.planes = Planes.zero ∧ s.mxVer = 0

/-- From MX_INIT on MX_VER is a legal version (R170), FUNC is what MX_INIT drew for it (R44, R185), the
planes are 0 outside the symbol region (R43) and the format area is function modules (R182). -/
abbrev State.BuiltOk (s : State) : Prop :=
  s.mxState ≠ .unbuilt →
    validVer s.mxVer.toNat ∧ s.planes.func = (drawPatterns s.mxVer.toNat s.mxEcl).func ∧
      s.planes.func.within s.mxSize = true ∧
      s.planes.dark.within s.mxSize = true ∧
      ∀ m ∈ formatModules s.mxSize, s.planes.func.get m.1 m.2.1 = true

/-- MX_MASKV marks exactly a finished symbol (R33). -/
abbrev State.MaskOk (s : State) : Prop := s.mxMaskV = true ↔ s.mxState = .finalized

/-- A legal state. -/
abbrev State.Inv (s : State) : Prop :=
  s.StoresOk ∧ s.DivisorOk ∧ s.ErrorOk ∧ s.SegtabOk ∧ s.UnbuiltOk ∧ s.BuiltOk ∧ s.MaskOk

/-! ### Safe runs -/

/-- The operation is one R95 admits. -/
def HostOp.ok : HostOp → Bool
  | .wr o size _ => admitted o size
  | .rd o size => admitted o size
  | .poll => true
  | .resetInput => true

/-- The host only makes accesses R61 admits. -/
abbrev State.HostOk (s : State) : Prop := ∀ op ∈ s.host, op.ok = true

/-! ### Outcomes of a command -/

/-- The command ends with error `c` and changes nothing but ERR, ERR_OPC and the bookkeeping of a
completion (spec/60_exceptions.md R217, R222). -/
def Raises (i : Instr) (s : State) (c : ErrCode) : Prop :=
  exec i s = .next { s with
    err := some c, errOpc := BitVec.ofNat 8 i.opc, done := true, cmdcnt := s.cmdcnt + 1,
    engine := .idle }

end Sys2Proof.Machine
end

