-- ==== Sys2Proof/Certificates/Slice0/Obligations.lean ====
section
/-! DEFINITION. The statements for the provers, from the numbered rules of spec/. Unless a docstring says
otherwise a statement about a command is for a state with ERR = 0 (R221 is the other case), and its
record update names every field the command may change: all others are unchanged. -/

open Sys2Proof Sys2Proof.Machine

namespace Sys2Proof.Machine

/-! ### Tables of the spec that the statements use -/

/-- The columns of R219: the errors a command can raise besides IllegalCommand. -/
def raisable : Instr → List ErrCode
  | .nop | .bbClr | .gfMul _ _ => []
  | .memwr _ => [.invalidArgument, .indexError, .rangeError]
  | .memrd _ => [.invalidArgument, .indexError]
  | .bbApb _ | .bbApeci => [.rangeError, .bufferFull]
  | .bbApby _ => [.invalidArgument, .rangeError, .bufferFull]
  | .bbApnum _ | .bbApaln _ => [.invalidArgument, .formatError, .rangeError, .bufferFull]
  | .bbGet | .rsRd _ _ => [.indexError]
  | .rsDiv _ | .capq | .pack | .intlv | .mxInit => [.invalidArgument]
  | .rsRem | .mxPlace | .msel => [.invalidArgument, .sequenceError]
  | .segDef _ _ => [.invalidArgument, .indexError]
  | .vsel _ _ _ | .termpad => [.invalidArgument, .dataTooLong]
  | .segHdr _ => [.invalidArgument, .rangeError, .bufferFull]
  | .mxMask _ | .mxFmt _ | .mxRead _ _ | .mxPen => [.sequenceError]
  | .mxWr _ _ => [.invalidArgument, .indexError, .rangeError, .sequenceError]

/-- Column ARG0 of R85: the command reads ARG0. -/
def readsArg0 : Instr → Bool
  | .memwr _ | .memrd _ | .bbApb _ | .bbApby _ | .bbApnum _ | .bbApaln _ | .bbApeci | .bbGet | .rsRem
  | .segDef _ _ | .segHdr _ | .intlv | .mxPlace | .mxWr _ _ => true
  | .nop | .bbClr | .gfMul _ _ | .rsDiv _ | .rsRd _ _ | .vsel _ _ _ | .capq | .termpad | .pack | .mxInit
  | .mxMask _ | .mxFmt _ | .mxRead _ _ | .mxPen | .msel => false

/-- Column ARG1 of R85: the command reads ARG1. -/
def readsArg1 : Instr → Bool
  | .memwr _ | .rsRem | .segDef _ _ => true
  | .nop | .memrd _ | .bbClr | .bbApb _ | .bbApby _ | .bbApnum _ | .bbApaln _ | .bbApeci | .bbGet
  | .gfMul _ _ | .rsDiv _ | .rsRd _ _ | .vsel _ _ _ | .capq | .segHdr _ | .termpad | .pack | .intlv
  | .mxInit | .mxPlace | .mxMask _ | .mxFmt _ | .mxRead _ _ | .mxWr _ _ | .mxPen | .msel => false

/-- Column RESULT of R85: the command writes RESULT0. -/
def writesResult0 : Instr → Bool
  | .memrd _ | .bbGet | .gfMul _ _ | .rsRd _ _ | .vsel _ _ _ | .capq | .termpad | .pack | .intlv
  | .mxPlace | .mxRead _ _ | .mxPen | .msel => true
  | .nop | .memwr _ | .bbClr | .bbApb _ | .bbApby _ | .bbApnum _ | .bbApaln _ | .bbApeci | .rsDiv _
  | .rsRem | .segDef _ _ | .segHdr _ | .mxInit | .mxMask _ | .mxFmt _ | .mxWr _ _ => false

/-- Column RESULT of R85: the command writes RESULT1. -/
def writesResult1 : Instr → Bool
  | .vsel _ _ _ | .capq | .mxPen | .msel => true
  | .nop | .memwr _ | .memrd _ | .bbClr | .bbApb _ | .bbApby _ | .bbApnum _ | .bbApaln _ | .bbApeci
  | .bbGet | .gfMul _ _ | .rsDiv _ | .rsRem | .rsRd _ _ | .segDef _ _ | .segHdr _ | .termpad | .pack
  | .intlv | .mxInit | .mxPlace | .mxMask _ | .mxFmt _ | .mxRead _ _ | .mxWr _ _ => false

/-- The commands of R186. -/
def isMatrix : Instr → Bool
  | .mxInit | .mxPlace | .mxMask _ | .mxFmt _ | .mxRead _ _ | .mxWr _ _ | .mxPen | .msel => true
  | .nop | .memwr _ | .memrd _ | .bbClr | .bbApb _ | .bbApby _ | .bbApnum _ | .bbApaln _ | .bbApeci
  | .bbGet | .gfMul _ _ | .rsDiv _ | .rsRem | .rsRd _ _ | .segDef _ _ | .vsel _ _ _ | .capq | .segHdr _
  | .termpad | .pack | .intlv => false

/-- The table of R186: the command is "ok" in the state. -/
def legalIn : Instr → MxState → Bool
  | .mxPlace, m => m == .patterns
  | .mxMask _, m | .mxFmt _, m | .msel, m => m == .placed
  | .mxRead _ _, m | .mxPen, m => m != .unbuilt
  | .mxWr _ _, m => m == .patterns || m == .placed
  | _, _ => true

/-- The table of R186: the state after success. -/
def stateAfter : Instr → MxState → MxState
  | .mxInit, _ => .patterns
  | .mxPlace, _ => .placed
  | .msel, _ => .finalized
  | _, m => m

/-- The symbol side, `MX_VER * 4 + 17` (R33). -/
abbrev symbolSize (s : State) : Nat := s.mxVer.toNat * 4 + 17

/-- The byte of lane `k` of an operand register (R65, R113). -/
def byteAt (a : Word) (k : Nat) : Nat := a.toNat / 2 ^ (8 * k) % 2 ^ 8

/-- The ASCII code of character `i` of the charset, as R58 lists them. -/
def asciiOf (i : Nat) : Nat :=
  if i ≤ 9 then 0x30 + i
  else if i ≤ 35 then 0x41 + (i - 10)
  else if i = 36 then 0x20 else if i = 37 then 0x24 else if i = 38 then 0x25
  else if i = 39 then 0x2A else if i = 40 then 0x2B else if i = 41 then 0x2D
  else if i = 42 then 0x2E else if i = 43 then 0x2F else 0x3A

/-- The size of a memory space; spaces 2 and 3 have none (R101, R102). -/
def sizeOfSpace (space : Nat) : Nat :=
  if space = 0 then Config.dataSize else if space = 1 then Config.rawSize else 0

/-- The bits `v[w-1], …, v[0]` (R10). -/
def bitsOf (w v : Nat) : List Bool := (List.range w).map fun j => v.testBit (w - 1 - j)

/-- The product of two polynomials over GF(2), bit `i` the coefficient of `x^i`; `b` below degree 16. -/
def carrylessProduct (a b : Nat) : Nat :=
  (List.range 16).foldl (fun acc i => acc ^^^ (if b.testBit i then a <<< i else 0)) 0

/-- `α^i` with `α = 0x02` (R130). -/
def alphaPow (i : Nat) : Byte := (List.range i).foldl (fun a _ => gfmul a 0x02) 1

/-- The value at `z` of the polynomial with these coefficients over GF(256), highest power first. -/
def evalAt (z : Byte) (coeffs : List Byte) : Byte := coeffs.foldl (fun acc c => gfmul acc z ^^^ c) 0

/-- The mode indicators of R57. -/
def indicator : Mode → Nat
  | .numeric => 0x1
  | .alphanumeric => 0x2
  | .byte => 0x4
  | .kanji => 0x8
  | .eci => 0x7

/-- The rows of R56: the widths of bands 1, 2 and 3. -/
def bandWidths : Mode → List Nat
  | .numeric => [10, 12, 14]
  | .alphanumeric => [9, 11, 13]
  | .byte => [8, 16, 16]
  | .kanji => [8, 10, 12]
  | .eci => [0, 0, 0]

/-- The character-count width of a mode: band 1 is versions 1 to 9, band 2 10 to 26, band 3 27 to 40
(R56). -/
def fieldWidth (m : Mode) (v : Nat) : Nat :=
  (bandWidths m).getD (if v ≤ 9 then 0 else if v ≤ 26 then 1 else 2) 0

/-- `gs` are the segments SEGTAB[0 .. CFG.NSEG-1], with the indicators of R57. -/
abbrev describes (s : State) (gs : List Seg) : Prop :=
  gs.length = s.cfg.nseg.toNat ∧
    ∀ i (h : i < gs.length) (h' : i < Config.segMax), s.segtab[i].mode.toNat = indicator gs[i].mode ∧
      s.segtab[i].count.toNat = gs[i].count ∧ s.segtab[i].plen.toNat = gs[i].plen

/-- The bits a segment list needs at version `v` (R145, the sum). -/
def needBits (gs : List Seg) (v : Nat) : Nat := (gs.map fun g => 4 + fieldWidth g.mode v + g.plen).sum

/-- Every count fits its field and the sum keeps the bound: `total_bits(v)` is no SENTINEL (R145). -/
abbrev countsFit (gs : List Seg) (v : Nat) : Prop :=
  (∀ g ∈ gs, g.count < 2 ^ fieldWidth g.mode v) ∧ needBits gs v ≤ 2 ^ 31 - 1

/-- Versions 1 to 40. -/
def versions : List Nat := (List.range 40).map (· + 1)

/-! The tables of R54 and the derived values of R55, for versions 1 to 40. -/

def eccRow : Ecl → List Nat
  | .low =>
    [7, 10, 15, 20, 26, 18, 20, 24, 30, 18, 20, 24, 26, 30, 22, 24, 28, 30, 28, 28] ++
    [28, 28, 30, 30, 26, 28, 30, 30, 30, 30, 30, 30, 30, 30, 30, 30, 30, 30, 30, 30]
  | .medium =>
    [10, 16, 26, 18, 24, 16, 18, 22, 22, 26, 30, 22, 22, 24, 24, 28, 28, 26, 26, 26] ++
    [26, 28, 28, 28, 28, 28, 28, 28, 28, 28, 28, 28, 28, 28, 28, 28, 28, 28, 28, 28]
  | .quartile =>
    [13, 22, 18, 26, 18, 24, 18, 22, 20, 24, 28, 26, 24, 20, 30, 24, 28, 28, 26, 30] ++
    [28, 30, 30, 30, 30, 28, 30, 30, 30, 30, 30, 30, 30, 30, 30, 30, 30, 30, 30, 30]
  | .high =>
    [17, 28, 22, 16, 22, 28, 26, 26, 24, 28, 24, 28, 22, 24, 24, 30, 28, 28, 26, 28] ++
    [30, 24, 30, 30, 30, 30, 30, 30, 30, 30, 30, 30, 30, 30, 30, 30, 30, 30, 30, 30]

def blocksRow : Ecl → List Nat
  | .low =>
    [1, 1, 1, 1, 1, 2, 2, 2, 2, 4, 4, 4, 4, 4, 6, 6, 6, 6, 7, 8] ++
    [8, 9, 9, 10, 12, 12, 12, 13, 14, 15, 16, 17, 18, 19, 19, 20, 21, 22, 24, 25]
  | .medium =>
    [1, 1, 1, 2, 2, 4, 4, 4, 5, 5, 5, 8, 9, 9, 10, 10, 11, 13, 14, 16] ++
    [17, 17, 18, 20, 21, 23, 25, 26, 28, 29, 31, 33, 35, 37, 38, 40, 43, 45, 47, 49]
  | .quartile =>
    [1, 1, 2, 2, 4, 4, 6, 6, 8, 8, 8, 10, 12, 16, 12, 17, 16, 18, 21, 20] ++
    [23, 23, 25, 27, 29, 34, 34, 35, 38, 40, 43, 45, 48, 51, 53, 56, 59, 62, 65, 68]
  | .high =>
    [1, 1, 2, 4, 4, 4, 5, 6, 8, 8, 11, 11, 16, 16, 18, 16, 19, 21, 25, 25] ++
    [25, 34, 30, 32, 35, 37, 40, 42, 45, 48, 51, 54, 57, 60, 63, 66, 70, 74, 77, 81]

def rawCwRow : List Nat :=
  [26, 44, 70, 100, 134, 172, 196, 242, 292, 346, 404, 466, 532, 581, 655, 733, 815, 901, 991, 1085] ++
  [1156, 1258, 1364, 1474, 1588, 1706, 1828, 1921, 2051, 2185, 2323, 2465, 2611, 2761, 2876, 3034, 3196,
   3362, 3532, 3706]

def remainderBitsRow : List Nat :=
  [0, 7, 7, 7, 7, 7, 0, 0, 0, 0, 0, 0, 0, 3, 3, 3, 3, 3, 3, 3] ++
  [4, 4, 4, 4, 4, 4, 4, 3, 3, 3, 3, 3, 3, 3, 0, 0, 0, 0, 0, 0]

def ndataRow : Ecl → List Nat
  | .low =>
    [19, 34, 55, 80, 108, 136, 156, 194, 232, 274, 324, 370, 428, 461, 523, 589, 647, 721, 795, 861] ++
    [932, 1006, 1094, 1174, 1276, 1370, 1468, 1531, 1631, 1735, 1843, 1955, 2071, 2191, 2306, 2434, 2566,
     2702, 2812, 2956]
  | .medium =>
    [16, 28, 44, 64, 86, 108, 124, 154, 182, 216, 254, 290, 334, 365, 415, 453, 507, 563, 627, 669] ++
    [714, 782, 860, 914, 1000, 1062, 1128, 1193, 1267, 1373, 1455, 1541, 1631, 1725, 1812, 1914, 1992, 2102,
     2216, 2334]
  | .quartile =>
    [13, 22, 34, 48, 62, 76, 88, 110, 132, 154, 180, 206, 244, 261, 295, 325, 367, 397, 445, 485] ++
    [512, 568, 614, 664, 718, 754, 808, 871, 911, 985, 1033, 1115, 1171, 1231, 1286, 1354, 1426, 1502, 1582,
     1666]
  | .high =>
    [9, 16, 26, 36, 46, 60, 66, 86, 100, 122, 140, 158, 180, 197, 223, 253, 283, 313, 341, 385] ++
    [406, 442, 464, 514, 538, 596, 628, 661, 701, 745, 793, 845, 901, 961, 986, 1054, 1096, 1142, 1222,
     1276]

/-- The data codewords of a short block; a long block has one more (R152). -/
def shortLen (v : Nat) (e : Ecl) : Nat := rawCw v / numBlocks e v - eccPerBlock e v

/-- The number of short blocks (R152). -/
def shortBlocks (v : Nat) (e : Ecl) : Nat := numBlocks e v - rawCw v % numBlocks e v

/-- The data codewords of block `i`: short blocks first, taken in order (R152). -/
def blockOf (v : Nat) (e : Ecl) (data : List Byte) (i : Nat) : List Byte :=
  (data.drop (i * shortLen v e + (i - shortBlocks v e))).take
    (shortLen v e + if i < shortBlocks v e then 0 else 1)

/-- Chebyshev distance of `(x, y)` from `(cx, cy)` (R172, R174). -/
def chebyshev (x y cx cy : Nat) : Nat := max ((x - cx) + (cx - x)) ((y - cy) + (cy - y))

/-- The finder centres (R172). -/
def finderCentres (size : Nat) : List (Nat × Nat) := [(3, 3), (size - 4, 3), (3, size - 4)]

/-- The coordinates of R173: `v / 7 + 2` of them, the first 6, the others at one step up to the last,
`size - 7`; version 1 has none. -/
def alignCoords (v : Nat) : List Nat :=
  let step := if v = 32 then 26 else (v * 4 + (v / 7 + 2) * 2 + 1) / ((v / 7 + 2) * 2 - 2) * 2
  if v = 1 then [] else 6 :: (List.range (v / 7 + 1)).map fun i => (v * 4 + 17) - 7 - (v / 7 - i) * step

/-- The alignment positions the spec lists (R173; V7 of spec/95_test_vectors.md). -/
def alignValues : List (Nat × List Nat) :=
  [(1, []), (2, [6, 18]), (7, [6, 22, 38]), (14, [6, 26, 46, 66]), (21, [6, 28, 50, 72, 94]),
   (28, [6, 26, 50, 74, 98, 122]), (32, [6, 34, 60, 86, 112, 138]), (35, [6, 30, 54, 78, 102, 126, 150]),
   (36, [6, 24, 50, 76, 102, 128, 154]), (40, [6, 30, 58, 86, 114, 142, 170])]

/-- The centres of the alignment patterns: every pair of positions but the three of R174. -/
def alignCentres (v : Nat) : List (Nat × Nat) :=
  let pos := alignCoords v
  let last := (v * 4 + 17) - 7
  (pos.flatMap fun cx => pos.map fun cy => (cx, cy)).filter fun c =>
    c != (6, 6) && c != (6, last) && c != (last, 6)

/-- The version-information modules with the bit of the version word each holds (R177). -/
def versionModules (v : Nat) : List (Nat × Nat × Nat) :=
  (List.range 18).flatMap fun k =>
    [((v * 4 + 17) - 11 + k % 3, k / 3, k), (k / 3, (v * 4 + 17) - 11 + k % 3, k)]

/-- The right column of pair `c` of the zig-zag: the pairs go leftwards from column `size - 1`, two columns at a
time, and skip column 6 (R179). -/
def pairRight (size c : Nat) : Nat := if 6 < size - 1 - 2 * c then size - 1 - 2 * c else size - 2 - 2 * c

/-- The `vert`-th row pair `c` visits: the first pair goes upward from the bottom row, and the direction
alternates (R179). -/
def pairRow (size c vert : Nat) : Nat := if c % 2 = 0 then size - 1 - vert else vert

/-- The non-function modules in placement order (R179). -/
def freeModules (size : Nat) (func : Plane) : List (Nat × Nat) :=
  (zigzag size).filter fun m => !func.get m.1 m.2

/-- The bit of the format word `f` a format-area module holds; the dark module is 1 (R176). -/
def formatBitOf (f : Nat) (b : Option Nat) : Bool := b.elim true f.testBit

/-- `FORMAT_ECL_CODE` of R59. -/
def eclIndicator : Ecl → Nat
  | .low => 1
  | .medium => 0
  | .quartile => 3
  | .high => 2

/-- `f` is the format word of R176: without the final XOR it has the level's indicator and the mask in bits
14:10 and is a multiple of 0x537 over GF(2). No two numbers are. -/
def IsFormatWord (e : Ecl) (mask f : Nat) : Prop :=
  (f ^^^ 0x5412) / 2 ^ 10 = eclIndicator e * 2 ^ 3 + mask ∧
    ∃ q < 2 ^ 5, f ^^^ 0x5412 = carrylessProduct 0x537 q

/-- `b` is the version word of R177: the version in bits 17:12, and a multiple of 0x1F25 over GF(2). -/
def IsVersionWord (v b : Nat) : Prop := b / 2 ^ 12 = v ∧ ∃ q < 2 ^ 6, b = carrylessProduct 0x1F25 q

/-- The mask predicates of R180; mask ids are 0 to 7. -/
def inverted (k x y : Nat) : Prop :=
  (k = 0 ∧ (x + y) % 2 = 0) ∨
  (k = 1 ∧ y % 2 = 0) ∨
  (k = 2 ∧ x % 3 = 0) ∨
  (k = 3 ∧ (x + y) % 3 = 0) ∨
  (k = 4 ∧ (x / 3 + y / 2) % 2 = 0) ∨
  (k = 5 ∧ (x * y) % 2 + (x * y) % 3 = 0) ∨
  (k = 6 ∧ ((x * y) % 2 + (x * y) % 3) % 2 = 0) ∨
  (k = 7 ∧ ((x + y) % 2 + (x * y) % 3) % 2 = 0)

/-- `q` is the symbol `p` with mask `k` applied and its format information drawn: the format area holds the format
word, every other module the mask selects is inverted, no other changes (R176, R180, R205). -/
def IsMasked (size : Nat) (e : Ecl) (k : Nat) (p q : Planes) : Prop :=
  q.func = p.func ∧
    (∃ w, IsFormatWord e k w ∧ ∀ m ∈ formatModules size, q.dark.get m.1 m.2.1 = formatBitOf w m.2.2) ∧
    ∀ x y, (∀ m ∈ formatModules size, (m.1, m.2.1) ≠ (x, y)) →
      (q.dark.get x y ≠ p.dark.get x y ↔ x < size ∧ y < size ∧ p.func.get x y = false ∧ inverted k x y)

/-- The lengths of the runs of equal modules of a line, in order. -/
def runLengths : List Bool → List Nat
  | [] => []
  | [_] => [1]
  | b :: c :: line =>
    match runLengths (c :: line) with
    | [] => [1]
    | n :: ns => if b = c then (n + 1) :: ns else 1 :: n :: ns

/-- The N1 points of a line: each run of length `L ≥ 5` contributes `3 + (L - 5)` (R202). -/
def lineRunPoints (line : List Bool) : Nat :=
  ((runLengths line).map fun len => if 5 ≤ len then 3 + (len - 5) else 0).sum

/-- The finder-like patterns among runs that begin and end light: dark-light-dark-light-dark runs in ratio
1:1:3:1:1 with unit `n`, once for a light run of at least `4n` before and at least `n` after, once the other
way round (R203). -/
def finderWindows : List Nat → Nat
  | before :: d1 :: l1 :: d2 :: l2 :: d3 :: after :: runs =>
    (if 0 < d1 ∧ l1 = d1 ∧ d2 = 3 * d1 ∧ l2 = d1 ∧ d3 = d1 then
      (if 4 * d1 ≤ before ∧ d1 ≤ after then 1 else 0) + (if 4 * d1 ≤ after ∧ d1 ≤ before then 1 else 0)
    else 0) + finderWindows (l1 :: d2 :: l2 :: d3 :: after :: runs)
  | _ => 0

/-- The finder-like patterns of a line, with `size` light modules outside the symbol on both sides
(R203). -/
def lineFinders (size : Nat) (line : List Bool) : Nat :=
  finderWindows (runLengths (List.replicate size false ++ line ++ List.replicate size false))

/-- The rows and the columns of the symbol region. -/
def symbolLines (size : Nat) (dark : Plane) : List (List Bool) :=
  ((List.range size).map fun y => (List.range size).map fun x => dark.get x y) ++
    (List.range size).map fun x => (List.range size).map fun y => dark.get x y

/-- The modules `(x, y)` with `x, y < n`. -/
def square (n : Nat) : List (Nat × Nat) :=
  (List.range n).flatMap fun y => (List.range n).map fun x => (x, y)

/-- The 2×2 blocks of uniform colour, overlapping blocks each counted (R204). -/
def uniformBlocks (size : Nat) (dark : Plane) : Nat :=
  (square (size - 1)).countP fun m =>
    decide (dark.get m.1 m.2 = dark.get (m.1 + 1) m.2 ∧ dark.get m.1 m.2 = dark.get m.1 (m.2 + 1) ∧
      dark.get m.1 m.2 = dark.get (m.1 + 1) (m.2 + 1))

/-- The dark modules of the symbol region (R200, R204). -/
def darkModules (size : Nat) (dark : Plane) : Nat := (square size).countP fun m => dark.get m.1 m.2

/-- The score of R201 to R204, written on runs and blocks. -/
def scoreOf (size : Nat) (dark : Plane) : Nat :=
  let total := size * size
  ((symbolLines size dark).map lineRunPoints).sum + 3 * uniformBlocks size dark +
    40 * ((symbolLines size dark).map (lineFinders size)).sum +
    10 * ((((darkModules size dark : Int) * 20 - total * 10).natAbs + total - 1) / total - 1)

/-- The code of STATUS.ERR for an error record (R215). -/
def errCode : Option ErrCode → BitVec 4
  | none => 0
  | some .invalidArgument => 1
  | some .formatError => 2
  | some .dataTooLong => 3
  | some .indexError => 4
  | some .rangeError => 5
  | some .sequenceError => 6
  | some .illegalCommand => 7
  | some .bufferFull => 8

/-- The value of MXSTATE (R45). -/
def mxCode : MxState → BitVec 2
  | .unbuilt => 0
  | .patterns => 1
  | .placed => 2
  | .finalized => 3

/-- The encoding of a level in CFG.ECL and MXINFO.ECL (R28). -/
def eclCode : Ecl → BitVec 2
  | .low => 0
  | .medium => 1
  | .quartile => 2
  | .high => 3

/-! Command words the spec writes out, with the commands they stand for: R98, and Q2, Q3, V1 to V8 and P1 to P6
of spec/95_test_vectors.md. -/

def controlAndBitBufferWords : List (Word × Instr) :=
  [(0x00000000#32, .nop), (0x00000001#32, .memwr 0), (0x00000201#32, .memwr 2), (0x00000301#32, .memwr 3),
   (0x00000002#32, .memrd 0), (0x00000102#32, .memrd 1), (0x00000010#32, .bbClr), (0x00000411#32, .bbApb 4),
   (0x00000011#32, .bbApb 0), (0x00001F11#32, .bbApb 31), (0x00000311#32, .bbApb 3), (0x00000B11#32, .bbApb 11),
   (0x00000012#32, .bbApby 0), (0x00000512#32, .bbApby 5), (0x00000212#32, .bbApby 2), (0x00000112#32, .bbApby 1),
   (0x00000412#32, .bbApby 4), (0x00000211#32, .bbApb 2), (0x00000111#32, .bbApb 1)]

def groupAndReedSolomonWords : List (Word × Instr) :=
  [(0x00000313#32, .bbApnum 3), (0x00000113#32, .bbApnum 1), (0x00000213#32, .bbApnum 2),
   (0x00000413#32, .bbApnum 4),
   (0x00000214#32, .bbApaln 2), (0x00000114#32, .bbApaln 1), (0x00000015#32, .bbApeci), (0x00000016#32, .bbGet),
   (0x00CA5320#32, .gfMul 0x53 0xCA), (0x00000021#32, .rsDiv 0), (0x00010021#32, .rsDiv 256),
   (0x0000FF21#32, .rsDiv 255), (0x00000A21#32, .rsDiv 10), (0x00000421#32, .rsDiv 4), (0x00000022#32, .rsRem),
   (0x00000023#32, .rsRd .rem 0), (0x00000323#32, .rsRd .rem 3), (0x00010023#32, .rsRd .div 0),
   (0x00010423#32, .rsRd .div 4), (0x00010123#32, .rsRd .div 1), (0x00010223#32, .rsRd .div 2),
   (0x00010323#32, .rsRd .div 3), (0x00000123#32, .rsRd .rem 1), (0x00000223#32, .rsRd .rem 2)]

def serializerWords : List (Word × Instr) :=
  [(0x00020030#32, .segDef 0 2), (0x00024030#32, .segDef 64 2), (0x00030030#32, .segDef 0 3),
   (0x001A0131#32, .vsel 1 40 true), (0x000A0131#32, .vsel 1 40 false), (0x00024131#32, .vsel 1 9 false),
   (0x00004231#32, .vsel 2 1 false), (0x000A0031#32, .vsel 0 40 false), (0x00004131#32, .vsel 1 1 false),
   (0x00000032#32, .capq), (0x00000233#32, .segHdr 2), (0x00000433#32, .segHdr 4), (0x00000733#32, .segHdr 7),
   (0x00000033#32, .segHdr 0), (0x00000034#32, .termpad), (0x00000035#32, .pack), (0x00000036#32, .intlv)]

def matrixWords : List (Word × Instr) :=
  [(0x00000040#32, .mxInit), (0x00000041#32, .mxPlace), (0x00000342#32, .mxMask 3), (0x00000042#32, .mxMask 0),
   (0x00000542#32, .mxMask 5), (0x00000543#32, .mxFmt 5), (0x00050444#32, .mxRead 4 5),
   (0x00FF0044#32, .mxRead 0 255), (0x00001544#32, .mxRead 21 0), (0x00090945#32, .mxWr 9 9),
   (0x00000045#32, .mxWr 0 0), (0x00000050#32, .mxPen), (0x00000051#32, .msel)]

/-- Every command word the spec writes out that is legal. -/
def specWords : List (Word × Instr) :=
  controlAndBitBufferWords ++ groupAndReedSolomonWords ++
    serializerWords ++ matrixWords

/-- Command words V1 of spec/95_test_vectors.md calls IllegalCommand. -/
def illegalWords : List Word :=
  [0x00000100, 0x00000003, 0xFFFFFF52, 0x00002011, 0x00000812, 0x00008030, 0x01000021, 0xFF000044,
   0x00200031]

end Sys2Proof.Machine

/-! ### Encoding -/

/-- R80, R82, R84, R85: no bit of an encoding is dropped. -/
def Obligations.DecodeOfEncodeIsTheCommand : Prop :=
  ∀ i : Instr, i.WellFormed → decode (encode i) = .ok i

/-- R82, R88: each command word has one meaning and is the word of that command, and it selects a row of the
opcode table iff `word & mask == match`. -/
def Obligations.EachWordHasOneMeaning : Prop :=
  ∀ w : Word, (∀ i, decode w = .ok i → i.WellFormed ∧ encode i = w) ∧
    ∀ r ∈ opcodeRows, (w &&& r.2 = BitVec.ofNat 32 r.1 ↔ ∃ i, decode w = .ok i ∧ i.opc = r.1)

/-- R82, R83, R85, R98: the words the spec writes out decode to their commands, whose OPC is the word's low byte,
and those it calls illegal do not decode. -/
def Obligations.SpecWordsDecode : Prop :=
  (∀ p ∈ specWords, decode p.1 = .ok p.2 ∧ p.2.opc = p.1.toNat % 2 ^ 8) ∧
    ∀ w ∈ illegalWords, ∀ i, decode w ≠ .ok i

/-! ### Issue, completion and errors -/

/-- R37, R80, R88: the step that ends a command's run is `exec` of the decoded command. That each step before it is
one turn of the host and lowers the count by one is the model's choice, not a rule's (log 3). -/
def Obligations.StepRunsTheDecodedCommand : Prop :=
  ∀ (s : State) (w : Word),
    (∀ i, s.engine = .running w 0 → decode w = .ok i → step s = exec i s) ∧
      ∀ left, s.engine = .running w (left + 1) →
        step s = hostTurn { s with engine := .running w left }

/-- R83, R86: an unassigned OPC or a reserved bit raises IllegalCommand and changes nothing else. -/
def Obligations.IllegalWordRaisesIllegalCommand : Prop :=
  ∀ (s : State) (w : Word), s.engine = .running w 0 → s.err = none →
    (∀ r ∈ opcodeRows, w &&& r.2 ≠ BitVec.ofNat 32 r.1) →
    step s = .next { s with
      err := some .illegalCommand, errOpc := w.extractLsb' 0 8, done := true, cmdcnt := s.cmdcnt + 1,
      engine := .idle }

/-- R221: while ERR ≠ 0 a command, whatever its word, sets DONE and BUSY's return to 0 and changes nothing
else. -/
def Obligations.StickyErrorDropsEveryCommand : Prop :=
  ∀ s : State, s.err ≠ none →
    (∀ i, exec i s = .next { s with done := true, engine := .idle }) ∧
    (∀ w, s.engine = .running w 0 → step s = .next { s with done := true, engine := .idle }) ∧
    (∀ w, s.engine = .idle → (hostWrite 0x18 w s).busy = true)

/-- R222: every accepted command, whatever its word, completes with DONE = 1 and BUSY = 0, and CMDCNT counts
it unless it was dropped; DONE stays 1 until the host clears it or resets the block. -/
def Obligations.EveryCommandCompletes : Prop :=
  (∀ (i : Instr) (s : State), ∃ t, exec i s = .next t ∧ t.done = true ∧ t.busy = false ∧
    t.cmdcnt = if s.err = none then s.cmdcnt + 1 else s.cmdcnt) ∧
  (∀ (w : Word) (s : State), s.engine = .running w 0 →
    ∃ t, step s = .next t ∧ t.done = true ∧ t.busy = false ∧
      t.cmdcnt = if s.err = none then s.cmdcnt + 1 else s.cmdcnt) ∧
  ∀ s t : State, s.done = true → step s = .next t → t.done = true ∨
    (∃ v rest, s.host = .wr 0x08 .word v :: rest ∧ v.getLsbD 1 = true) ∨
    (∃ v rest, s.host = .wr 0x04 .word v :: rest ∧ v.getLsbD 1 = true) ∨
    ∃ rest, s.host = .resetInput :: rest

/-- R217: a command that raises an error writes ERR, ERR_OPC and the bookkeeping, and RESULT0 and RESULT1
for DataTooLong only. -/
def Obligations.ErrorsArePrecise : Prop :=
  ∀ (i : Instr) (s t : State) (c : ErrCode), s.err = none → exec i s = .next t → t.err = some c →
    (c ≠ .dataTooLong → Raises i s c) ∧
    t = { s with
      result0 := t.result0, result1 := t.result1, err := some c, errOpc := BitVec.ofNat 8 i.opc,
      done := true, cmdcnt := s.cmdcnt + 1, engine := .idle }

/-- R219: a command raises only the errors of its row. -/
def Obligations.OnlyTheListedErrorsAreRaised : Prop :=
  ∀ (i : Instr) (s t : State) (c : ErrCode), s.err = none → exec i s = .next t → t.err = some c →
    c ∈ raisable i

/-- What each command may write, over all commands and all states: a store or register outside the lists
is unchanged. RESULT0 and RESULT1 are kept by the commands that do not write them, and by an error that is
not DataTooLong (R85, R253). -/
def Obligations.StoresChangeOnlyUnderTheirCommands : Prop :=
  ∀ (i : Instr) (s t : State), exec i s = .next t →
    (t.ie = s.ie ∧ t.ovr = s.ovr ∧ t.arg0 = s.arg0 ∧ t.arg1 = s.arg1 ∧ t.host = s.host ∧
      t.reads = s.reads ∧ t.draws = s.draws) ∧
    ((∀ a b c, i ≠ .vsel a b c) → t.cfg = s.cfg) ∧
    (t.cfg.maskReq = s.cfg.maskReq ∧ t.cfg.nseg = s.cfg.nseg) ∧
    (i ≠ .bbClr → (∀ n, i ≠ .bbApb n) → (∀ n, i ≠ .bbApby n) → (∀ n, i ≠ .bbApnum n) →
      (∀ n, i ≠ .bbApaln n) → i ≠ .bbApeci → (∀ m, i ≠ .segHdr m) → i ≠ .termpad → t.bb = s.bb) ∧
    ((∀ p, i ≠ .memwr p) → i ≠ .pack → t.data = s.data) ∧
    ((∀ p, i ≠ .memwr p) → i ≠ .intlv → t.raw = s.raw) ∧
    ((∀ a m, i ≠ .segDef a m) → t.segtab = s.segtab) ∧
    ((∀ d, i ≠ .rsDiv d) → i ≠ .intlv → t.div = s.div ∧ t.deg = s.deg) ∧
    ((∀ d, i ≠ .rsDiv d) → i ≠ .rsRem → i ≠ .intlv → t.rem = s.rem) ∧
    (i ≠ .mxInit → t.mxVer = s.mxVer ∧ t.mxEcl = s.mxEcl) ∧
    (i ≠ .mxInit → i ≠ .mxPlace → i ≠ .msel → t.mxState = s.mxState) ∧
    (i ≠ .msel → t.mxMask = s.mxMask) ∧
    (i ≠ .mxInit → i ≠ .msel → t.mxMaskV = s.mxMaskV) ∧
    (i ≠ .mxInit → i ≠ .mxPlace → (∀ k, i ≠ .mxMask k) → (∀ k, i ≠ .mxFmt k) →
      (∀ x y, i ≠ .mxWr x y) → i ≠ .msel → t.planes = s.planes) ∧
    (s.err = none → t.err ≠ some .dataTooLong →
      ((writesResult0 i = false ∨ t.err ≠ none) → t.result0 = s.result0) ∧
      ((writesResult1 i = false ∨ t.err ≠ none) → t.result1 = s.result1))

/-- R44, R185: FUNC is written only by MX_INIT; DARK of a function module only by MX_INIT, and by MX_FMT
and MSEL in the format area; DARK of a non-function module only by MX_INIT, MX_PLACE, MX_MASK, MSEL and
MX_WR. -/
def Obligations.FunctionModulesAreWrittenOnce : Prop :=
  ∀ (i : Instr) (s t : State), s.Inv → exec i s = .next t → i ≠ .mxInit →
    t.planes.func = s.planes.func ∧
    (∀ x y, s.planes.func.get x y = true →
      (((∀ k, i ≠ .mxFmt k) ∧ i ≠ .msel) ∨ ∀ m ∈ formatModules (symbolSize s), (m.1, m.2.1) ≠ (x, y)) →
      t.planes.dark.get x y = s.planes.dark.get x y) ∧
    (i ≠ .mxPlace → (∀ k, i ≠ .mxMask k) → (∀ x y, i ≠ .mxWr x y) → i ≠ .msel →
      ∀ x y, s.planes.func.get x y = false → t.planes.dark.get x y = s.planes.dark.get x y)

/-- R81: a command that does not use ARG0 or ARG1 ignores their contents. -/
def Obligations.UnusedOperandsAreIgnored : Prop :=
  ∀ (i : Instr) (s t : State) (a : Word), exec i s = .next t →
    (readsArg0 i = false → exec i { s with arg0 := a } = .next { t with arg0 := a }) ∧
    (readsArg1 i = false → exec i { s with arg1 := a } = .next { t with arg1 := a })

/-- R257: a change of CFG after MX_INIT does not affect the symbol under construction; MSEL reads only
CFG.MASKREQ; BB, SEGTAB, DATA and RAW persist across the matrix commands. -/
def Obligations.MatrixCommandsUseTheLatchedVersion : Prop :=
  ∀ (i : Instr) (s t : State), isMatrix i = true → exec i s = .next t →
    (t.bb = s.bb ∧ t.segtab = s.segtab ∧ t.data = s.data ∧ t.raw = s.raw) ∧
    ∀ c : Cfg, i ≠ .mxInit → (i = .msel → c.maskReq = s.cfg.maskReq) →
      exec i { s with cfg := c } = .next { t with cfg := c }

/-- R186: the legal MXSTATE of each matrix and penalty command, and the state it leaves. -/
def Obligations.MatrixCommandsAreLegalInTheirStates : Prop :=
  ∀ (i : Instr) (s : State), isMatrix i = true → s.err = none →
    (legalIn i s.mxState = false → Raises i s .sequenceError) ∧
    (legalIn i s.mxState = true → ∃ t, exec i s = .next t ∧ t.err ≠ some .sequenceError ∧
      (t.err = none → t.mxState = stateAfter i s.mxState) ∧ (t.err ≠ none → t.mxState = s.mxState))

/-- R228: `irq = CTRL.IE & STATUS.DONE` rises at a completion with IE = 1 or when IE is set while DONE = 1,
and falls when the host clears DONE or IE. -/
def Obligations.InterruptLineFollowsCompletion : Prop :=
  ∀ s : State, s.irq = (s.ie && s.done) ∧
    (∀ i t, exec i s = .next t → t.irq = s.ie) ∧
    (∀ v : Word, (∀ n, s.engine ≠ .resetting n) → v.getLsbD 1 = false →
      (hostWrite 0x04 v s).irq = (v.getLsbD 0 && s.done)) ∧
    (∀ v : Word, s.engine = .idle → v.getLsbD 1 = true → (hostWrite 0x08 v s).irq = false)

/-! ### Invariants, runs and the host's side -/

/-- The state after reset is a legal one. -/
def Obligations.LegalAtReset : Prop := State.reset.Inv

/-- Every step keeps a legal state legal: the stores' canonical form and sizes, the divisor held, the error
record, the segment table, the matrix state. -/
def Obligations.EveryStepKeepsTheStateLegal : Prop :=
  ∀ s t : State, s.Inv → step s = .next t → t.Inv

/-- R62, R95: a host access that is not 32 bits at a multiple-of-4 offset is refused when the host's turn
comes, and nothing else stops a step. The list of host operations is the model's own (log 1), the refusal
R62's choice for a model (log 5). -/
def Obligations.OnlyBadAccessesStopAStep : Prop :=
  ∀ s : State, (s.HostOk → ∃ t, step s = .next t ∧ t.HostOk) ∧
    ((¬ ∃ t, step s = .next t) → step s = .refused .hostAccess ∧
      ∃ op rest, s.host = op :: rest ∧ op.ok = false) ∧
    ∀ (o : BitVec 8) (size : AccessSize) (v : Word) (rest : List HostOp),
      size ≠ .word ∨ o.toNat % 4 ≠ 0 → s.host = .wr o size v :: rest ∨ s.host = .rd o size :: rest →
      (∀ w, s.engine ≠ .running w 0) → s.engine ≠ .resetting 0 → step s = .refused .hostAccess

/-- R37, R96, R250: `wr CMD, w; poll` from an idle state ends, after finitely many steps, in the state the
command's completion leaves, whatever its latency. The host's operations are a list of the model's own (log 1)
and the latency is counted in host turns (log 3). -/
def Obligations.EveryIssuedCommandCompletes : Prop :=
  ∀ (s t : State) (w : Word) (rest : List HostOp), s.engine = .idle →
    s.host = .wr 0x18 .word w :: .poll :: rest →
    runWord w { s with engine := .running w 0, host := .poll :: rest } = .next t →
    ∃ k, Host.Core.run Sys2Proof.core k s = .next { t with host := rest }

/-- R48: the values after a reset. -/
def Obligations.ResetValues : Prop :=
  (∀ r, State.reset.regWord r = if r = .id then 0x51524301#32 else 0) ∧ State.reset.bb = [] ∧
  (∀ a, State.reset.data.read a = 0 ∧ State.reset.raw.read a = 0 ∧ State.reset.div.read a = 0 ∧
    State.reset.rem.read a = 0) ∧
  (∀ i (h : i < Config.segMax), State.reset.segtab[i] = { mode := 0, count := 0, plen := 0 }) ∧
  ∀ x y, State.reset.planes.func.get x y = false ∧ State.reset.planes.dark.get x y = false

/-- R240, R242, R243, R48: the reset input, and writing 1 to CTRL.SRST, idle or while a command runs, start a
reset (BUSY = 1) that ends in the reset state. It rests on the model's choices: `resetInput` as a host operation,
`host` and `reads` (log 1), `draws` (log 2), a reset's length counted in host turns (log 3), and `State.reset` as
the state in which a reset has completed (log 6). -/
def Obligations.ResetsReachTheResetState : Prop :=
  ∀ s : State,
    (∀ rest, s.host = .resetInput :: rest →
      hostTurn s = .next (startReset { s with host := rest })) ∧
    (∀ v : Word, (∀ n, s.engine ≠ .resetting n) → v.getLsbD 1 = true →
      hostWrite 0x04 v s = startReset s) ∧
    (startReset s).busy = true ∧
    ∃ k, Host.Core.run Sys2Proof.core k { startReset s with host := [] } =
      .next { State.reset with reads := s.reads, draws := s.draws }

/-- R24, R45, R215: the fields of STATUS with the codes of its errors and states, and that its other bits
read 0. -/
def Obligations.StatusReadsItsFields : Prop :=
  ∀ s : State,
    (s.regWord .status).getLsbD 0 = s.busy ∧ (s.regWord .status).getLsbD 1 = s.done ∧
    (s.regWord .status).getLsbD 3 = s.ovr ∧
    (s.regWord .status).extractLsb' 4 4 = errCode s.err ∧
    (s.regWord .status).extractLsb' 8 2 = mxCode s.mxState ∧
    (s.regWord .status).extractLsb' 16 8 = s.errOpc ∧
    s.regWord .status &&& 0xFF00FC04#32 = 0

/-- R21 to R36: what a read returns while no command runs. R37: while one runs, the registers and the fields
of STATUS it does not leave open read as before, and every read returns one value. The record of reads is the
model's own (log 1), the open values are drawn (log 2). -/
def Obligations.ReadsReturnTheRegisters : Prop :=
  ∀ s : State,
    (s.engine = .idle →
      (∀ p ∈ [(0x00#8, 0x51524301#32), (0x04#8, word s.ie.toNat), (0x08#8, s.regWord .status),
          (0x0C#8, s.regWord .cfg), (0x10#8, s.arg0), (0x14#8, s.arg1), (0x18#8, 0),
          (0x1C#8, s.result0), (0x20#8, s.result1), (0x24#8, word s.bb.length),
          (0x28#8, word s.deg.val), (0x30#8, s.cmdcnt)],
        (hostRead p.1 s).reads = s.reads ++ [p.2]) ∧
      ∃ v : Word, (hostRead 0x2C s).reads = s.reads ++ [v] ∧ v.extractLsb' 0 6 = s.mxVer ∧
        v.extractLsb' 8 2 = eclCode s.mxEcl ∧ v.extractLsb' 12 3 = s.mxMask ∧
        v.getLsbD 15 = s.mxMaskV ∧ v &&& 0xFFFF0CC0#32 = 0) ∧
    (∀ w left, s.engine = .running w left →
      (∀ p ∈ [(0x00#8, 0x51524301#32), (0x04#8, word s.ie.toNat), (0x0C#8, s.regWord .cfg),
          (0x10#8, s.arg0), (0x14#8, s.arg1), (0x18#8, 0), (0x30#8, s.cmdcnt)],
        (hostRead p.1 s).reads = s.reads ++ [p.2]) ∧
      ∃ v : Word, (hostRead 0x08 s).reads = s.reads ++ [v] ∧ v.getLsbD 0 = true ∧
        v.getLsbD 1 = s.done ∧ v.getLsbD 3 = s.ovr ∧ v.extractLsb' 4 4 = errCode s.err ∧
        v.extractLsb' 16 8 = s.errOpc ∧ v &&& 0xFF00FC04#32 = 0) ∧
    (∀ o : BitVec 8, 0x34 ≤ o.toNat → (hostRead o s).reads = s.reads ++ [0]) ∧
    ∀ o, ∃ v, (hostRead o s).reads = s.reads ++ [v]

/-- R23, R25 to R30, R36: host writes while BUSY = 0. STATUS clears DONE, OVR and the error as its bits 1, 3 and
2 say; CFG takes each field from its bits and reads back with reserved bits 0; CTRL without SRST writes IE; ARG0
and ARG1 hold what is written; CMD starts the command; no write changes anything else. -/
def Obligations.RegisterWritesWhileIdle : Prop :=
  ∀ (s : State) (v : Word), s.engine = .idle →
    hostWrite 0x08 v s = { s with
      done := s.done && !v.getLsbD 1, ovr := s.ovr && !v.getLsbD 3,
      err := if v.getLsbD 2 then none else s.err,
      errOpc := if v.getLsbD 2 then 0 else s.errOpc } ∧
    (∃ c : Cfg, hostWrite 0x0C v s = { s with cfg := c } ∧ c.version = v.extractLsb' 0 6 ∧
      eclCode c.ecl = v.extractLsb' 8 2 ∧ c.maskReq = v.extractLsb' 12 4 ∧
      c.nseg = v.extractLsb' 16 7) ∧
    (hostWrite 0x0C v s).regWord .cfg = v &&& 0x007FF33F#32 ∧
    (v.getLsbD 1 = false → hostWrite 0x04 v s = { s with ie := v.getLsbD 0 }) ∧
    hostWrite 0x10 v s = { s with arg0 := v } ∧ hostWrite 0x14 v s = { s with arg1 := v } ∧
    (∃ left, hostWrite 0x18 v s = { s with engine := .running v left }) ∧
    ∀ o, o ∉ [0x04#8, 0x08#8, 0x0C#8, 0x10#8, 0x14#8, 0x18#8] → hostWrite o v s = s

/-- R252: writes while a command runs. -/
def Obligations.WritesWhileACommandRuns : Prop :=
  ∀ (s : State) (w v : Word) (left : Nat), s.engine = .running w left →
    (∀ o ∈ [0x08#8, 0x0C#8, 0x10#8, 0x14#8, 0x18#8], hostWrite o v s = { s with ovr := true }) ∧
    (v.getLsbD 1 = false → hostWrite 0x04 v s = { s with ie := v.getLsbD 0 }) ∧
    (v.getLsbD 1 = true → hostWrite 0x04 v s = startReset s) ∧
    (∀ o, o ∉ [0x04#8, 0x08#8, 0x0C#8, 0x10#8, 0x14#8, 0x18#8] → hostWrite o v s = s)

/-- R63, R240, R241: a read changes no register; in every state of a reset a read of ID returns its constant,
of STATUS 1 and of every other offset 0, the reset values, and every write is ignored. -/
def Obligations.ReadsChangeNothingAndResetIgnoresWrites : Prop :=
  ∀ (s : State) (o : BitVec 8),
    { hostRead o s with reads := s.reads, draws := s.draws } = s ∧
    (∀ n v, s.engine = .resetting n → hostWrite o v s = s) ∧
    (∀ n o', (hostRead o' { startReset s with engine := .resetting n }).reads =
      s.reads ++ [if o' = 0x00 then 0x51524301#32 else if o' = 0x08 then 1 else 0])

/-! ### Control and memory access -/

/-- R100, R110: NOP writes nothing but the bookkeeping; BB_CLR empties the bit buffer. -/
def Obligations.NopAndClearComplete : Prop :=
  ∀ s : State, s.err = none →
    exec .nop s = .next { s with done := true, cmdcnt := s.cmdcnt + 1, engine := .idle } ∧
    exec .bbClr s = .next { s with bb := [], done := true, cmdcnt := s.cmdcnt + 1, engine := .idle }

/-- R101: MEMWR writes one byte of DATA or RAW and no other; its errors in the order of its checks. -/
def Obligations.MemwrWritesOneByte : Prop :=
  ∀ (s : State) (space : Nat), s.err = none → s.Inv →
    (s.arg0.toNat < sizeOfSpace space → s.arg1.toNat ≤ 255 →
      ∃ t, exec (.memwr space) s = .next t ∧
        t = { s with
          data := t.data, raw := t.raw, done := true, cmdcnt := s.cmdcnt + 1, engine := .idle } ∧
        (∀ a, t.data.read a =
          if space = 0 ∧ a = s.arg0.toNat then BitVec.ofNat 8 s.arg1.toNat else s.data.read a) ∧
        (∀ a, t.raw.read a =
          if space = 1 ∧ a = s.arg0.toNat then BitVec.ofNat 8 s.arg1.toNat else s.raw.read a)) ∧
    (2 ≤ space → Raises (.memwr space) s .invalidArgument) ∧
    (space < 2 → sizeOfSpace space ≤ s.arg0.toNat → Raises (.memwr space) s .indexError) ∧
    (s.arg0.toNat < sizeOfSpace space → 255 < s.arg1.toNat → Raises (.memwr space) s .rangeError)

/-- R102, R122, R136, R183: MEMRD, BB_GET, RS_RD and MX_READ return the element they name in RESULT0 and
change nothing else; MX_READ outside the symbol reads 0. Their errors in the order of their checks. -/
def Obligations.ReadBackCommands : Prop :=
  ∀ s : State, s.err = none →
    (∀ space, s.arg0.toNat < sizeOfSpace space →
      exec (.memrd space) s = .next { s with
        result0 := word ((if space = 0 then s.data else s.raw).read s.arg0.toNat).toNat, done := true,
        cmdcnt := s.cmdcnt + 1, engine := .idle }) ∧
    (∀ h : s.arg0.toNat < s.bb.length,
      exec .bbGet s = .next { s with
        result0 := if s.bb[s.arg0.toNat] then 1 else 0, done := true, cmdcnt := s.cmdcnt + 1,
        engine := .idle }) ∧
    (∀ sel index, index < s.deg.val →
      exec (.rsRd sel index) s = .next { s with
        result0 := word (if sel = .rem then s.rem.read index else s.div.read index).toNat,
        done := true, cmdcnt := s.cmdcnt + 1, engine := .idle }) ∧
    (∀ x y, s.mxState ≠ .unbuilt →
      exec (.mxRead x y) s = .next { s with
        result0 :=
          if symbolSize s ≤ x ∨ symbolSize s ≤ y then 0
          else (if s.planes.dark.get x y then 1 else 0) + (if s.planes.func.get x y then 2 else 0),
        done := true, cmdcnt := s.cmdcnt + 1, engine := .idle }) ∧
    (∀ space, 2 ≤ space → Raises (.memrd space) s .invalidArgument) ∧
    (∀ space, space < 2 → sizeOfSpace space ≤ s.arg0.toNat →
      Raises (.memrd space) s .indexError) ∧
    (s.bb.length ≤ s.arg0.toNat → Raises .bbGet s .indexError) ∧
    (∀ sel index, s.deg.val ≤ index → Raises (.rsRd sel index) s .indexError) ∧
    (∀ x y, s.mxState = .unbuilt → Raises (.mxRead x y) s .sequenceError)

/-! ### Bit buffer -/

/-- R112: BB_APB appends the value's low `width` bits, most significant first; RangeError for set bits above
them, then BufferFull. -/
def Obligations.BbApbAppendsTheValue : Prop :=
  ∀ (s : State) (width : Nat), s.err = none →
    (s.arg0.toNat < 2 ^ width → s.bb.length + width ≤ Config.bbCap →
      exec (.bbApb width) s = .next { s with
        bb := s.bb ++ (List.range width).map fun j => s.arg0.getLsbD (width - 1 - j)
        done := true, cmdcnt := s.cmdcnt + 1, engine := .idle }) ∧
    (2 ^ width ≤ s.arg0.toNat → Raises (.bbApb width) s .rangeError) ∧
    (s.arg0.toNat < 2 ^ width → Config.bbCap < s.bb.length + width →
      Raises (.bbApb width) s .bufferFull)

/-- R114: BB_APBY appends the bytes of lanes 0 to `n - 1`, lane 0 first, each most significant bit first; its
errors in the order of its checks. -/
def Obligations.BbApbyAppendsTheLanes : Prop :=
  ∀ (s : State) (n : Nat), s.err = none →
    (1 ≤ n → n ≤ 4 → s.arg0.toNat < 2 ^ (8 * n) → s.bb.length + 8 * n ≤ Config.bbCap →
      exec (.bbApby n) s = .next { s with
        bb := s.bb ++ (List.range (8 * n)).map fun j => s.arg0.getLsbD (8 * (j / 8) + (7 - j % 8))
        done := true, cmdcnt := s.cmdcnt + 1, engine := .idle }) ∧
    (n = 0 ∨ 4 < n → Raises (.bbApby n) s .invalidArgument) ∧
    (1 ≤ n → n ≤ 4 → 2 ^ (8 * n) ≤ s.arg0.toNat → Raises (.bbApby n) s .rangeError) ∧
    (1 ≤ n → n ≤ 4 → s.arg0.toNat < 2 ^ (8 * n) → Config.bbCap < s.bb.length + 8 * n →
      Raises (.bbApby n) s .bufferFull)

/-- R115, R116: BB_APNUM appends 1, 2 or 3 digits as their decimal value in 4, 7 or 10 bits; its errors in
the order of its checks. -/
def Obligations.BbApnumAppendsTheNumber : Prop :=
  ∀ s : State, s.err = none →
    (∀ ds : List Nat, 1 ≤ ds.length → ds.length ≤ 3 → (∀ d ∈ ds, d ≤ 9) →
      s.arg0.toNat = (0x30 + ds.getD 0 0) +
        (if 2 ≤ ds.length then 2 ^ 8 * (0x30 + ds.getD 1 0) else 0) +
        (if 3 ≤ ds.length then 2 ^ 16 * (0x30 + ds.getD 2 0) else 0) →
      s.bb.length + (3 * ds.length + 1) ≤ Config.bbCap →
      exec (.bbApnum ds.length) s = .next { s with
        bb := s.bb ++ bitsOf (3 * ds.length + 1)
          (match ds with
            | [a] => a
            | [a, b] => 10 * a + b
            | [a, b, c] => 100 * a + 10 * b + c
            | _ => 0)
        done := true, cmdcnt := s.cmdcnt + 1, engine := .idle }) ∧
    ∀ n,
      (n = 0 ∨ 3 < n → Raises (.bbApnum n) s .invalidArgument) ∧
      (1 ≤ n → n ≤ 3 → 2 ^ (8 * n) ≤ s.arg0.toNat → Raises (.bbApnum n) s .rangeError) ∧
      (1 ≤ n → n ≤ 3 → s.arg0.toNat < 2 ^ (8 * n) →
        ((∃ k < n, byteAt s.arg0 k < 0x30 ∨ 0x39 < byteAt s.arg0 k) →
          Raises (.bbApnum n) s .formatError) ∧
        ((∀ k < n, 0x30 ≤ byteAt s.arg0 k ∧ byteAt s.arg0 k ≤ 0x39) →
          Config.bbCap < s.bb.length + (3 * n + 1) → Raises (.bbApnum n) s .bufferFull))

/-- R58, R117, R118: BB_APALN appends a pair as `idx*45 + idx` in 11 bits and a single character as `idx` in
6 bits; its errors in the order of its checks. -/
def Obligations.BbApalnAppendsTheIndexes : Prop :=
  ∀ s : State, s.err = none →
    (∀ i j : Nat, i < 45 → j < 45 →
      (s.arg0.toNat = asciiOf i + 2 ^ 8 * asciiOf j → s.bb.length + 11 ≤ Config.bbCap →
        exec (.bbApaln 2) s = .next { s with
          bb := s.bb ++ bitsOf 11 (i * 45 + j)
          done := true, cmdcnt := s.cmdcnt + 1, engine := .idle }) ∧
      (s.arg0.toNat = asciiOf i → s.bb.length + 6 ≤ Config.bbCap →
        exec (.bbApaln 1) s = .next { s with
          bb := s.bb ++ bitsOf 6 i
          done := true, cmdcnt := s.cmdcnt + 1, engine := .idle })) ∧
    ∀ n,
      (n = 0 ∨ 2 < n → Raises (.bbApaln n) s .invalidArgument) ∧
      (1 ≤ n → n ≤ 2 → 2 ^ (8 * n) ≤ s.arg0.toNat → Raises (.bbApaln n) s .rangeError) ∧
      (1 ≤ n → n ≤ 2 → s.arg0.toNat < 2 ^ (8 * n) →
        ((∃ k < n, ∀ i < 45, byteAt s.arg0 k ≠ asciiOf i) → Raises (.bbApaln n) s .formatError) ∧
        ((∀ k < n, ∃ i < 45, byteAt s.arg0 k = asciiOf i) →
          Config.bbCap < s.bb.length + (if n = 2 then 11 else 6) →
          Raises (.bbApaln n) s .bufferFull))

/-- R119, R120: BB_APECI appends the designator in its 8-, 16- or 24-bit form; RangeError from 1000000 on,
then BufferFull. -/
def Obligations.BbApeciAppendsTheDesignator : Prop :=
  ∀ s : State, s.err = none →
    let v := s.arg0.toNat
    let bits :=
      if v < 128 then bitsOf 8 v
      else if v < 16384 then true :: false :: bitsOf 14 v
      else true :: true :: false :: bitsOf 21 v
    let len := if v < 128 then 8 else if v < 16384 then 16 else 24
    (v < 1000000 → s.bb.length + len ≤ Config.bbCap →
      exec .bbApeci s = .next { s with
        bb := s.bb ++ bits, done := true, cmdcnt := s.cmdcnt + 1, engine := .idle }) ∧
    (1000000 ≤ v → Raises .bbApeci s .rangeError) ∧
    (v < 1000000 → Config.bbCap < s.bb.length + len → Raises .bbApeci s .bufferFull)

/-! ### Reed-Solomon -/

/-- R131, R148, R200: GF_MUL, CAPQ and MX_PEN write their results and change nothing else; their errors. The
capacities CAPQ returns are the tables of R54 and R55, `cap_bits` 8 bits for every data codeword (R145). -/
def Obligations.QueryCommandsWriteTheirResults : Prop :=
  (versions.map rawCw = rawCwRow ∧
    versions.map rawModules = List.zipWith (fun cw bits => 8 * cw + bits) rawCwRow remainderBitsRow ∧
    ∀ e, versions.map (eccPerBlock e) = eccRow e ∧ versions.map (numBlocks e) = blocksRow e ∧
      versions.map (ndata · e) = ndataRow e ∧ ∀ v, capBits v e = 8 * ndata v e) ∧
  ∀ s : State, s.err = none →
    (∀ x y, exec (.gfMul x y) s = .next { s with
      result0 := word (gfmulNat x y), done := true, cmdcnt := s.cmdcnt + 1, engine := .idle }) ∧
    (validVer s.cfg.version.toNat → exec .capq s = .next { s with
      result0 := word (ndata s.cfg.version.toNat s.cfg.ecl),
      result1 := word (rawCw s.cfg.version.toNat) |||
        word (numBlocks s.cfg.ecl s.cfg.version.toNat) <<< 16 |||
        word (eccPerBlock s.cfg.ecl s.cfg.version.toNat) <<< 24,
      done := true, cmdcnt := s.cmdcnt + 1, engine := .idle }) ∧
    (s.mxState ≠ .unbuilt → exec .mxPen s = .next { s with
      result0 := word (scoreOf (symbolSize s) s.planes.dark),
      result1 := word (darkModules (symbolSize s) s.planes.dark),
      done := true, cmdcnt := s.cmdcnt + 1, engine := .idle }) ∧
    (¬ validVer s.cfg.version.toNat → Raises .capq s .invalidArgument) ∧
    (s.mxState = .unbuilt → Raises .mxPen s .sequenceError)

/-- R130: the product is the carry-less product reduced modulo 0x11D: it is below 256 and differs from the
product by a multiple of 0x11D. `gfmul` is that product on bytes. -/
def Obligations.GfProductIsReducedModulo0x11D : Prop :=
  (∀ a b : Nat, a < 256 → b < 256 → gfmulNat a b < 256 ∧
    ∃ q < 256, carrylessProduct a b = gfmulNat a b ^^^ carrylessProduct 0x11D q) ∧
  ∀ a b : Byte, (gfmul a b).toNat = gfmulNat a.toNat b.toNat

/-- R133: RS_DIV holds the divisor, clears REM and sets DEG; InvalidArgument outside degrees 1 to 255. -/
def Obligations.RsDivHoldsTheDivisor : Prop :=
  ∀ (s : State) (d : Nat), s.err = none →
    (1 ≤ d → d ≤ 255 →
      ∃ t, exec (.rsDiv d) s = .next t ∧
        t = { s with
          div := t.div, rem := t.rem, deg := t.deg, done := true, cmdcnt := s.cmdcnt + 1,
          engine := .idle } ∧
        t.deg.val = d ∧
        ∀ j, t.rem.read j = 0 ∧ t.div.read j = if j < d then (divisor d).getD j 0 else 0) ∧
    (d = 0 ∨ 255 < d → Raises (.rsDiv d) s .invalidArgument)

/-- R132: the divisor of degree `d`, its omitted leading 1 restored, is the monic polynomial whose roots are
`α^0, …, α^(d-1)`. -/
def Obligations.DivisorRootsAreThePowersOfAlpha : Prop :=
  ∀ d : Nat, 1 ≤ d → d ≤ 255 → (divisor d).length = d ∧
    ∀ i < d, evalAt (alphaPow i) (1 :: divisor d) = 0

/-- R135: RS_REM leaves in REM the remainder of the DATA bytes it names, and changes nothing else; its errors
in the order of its checks. -/
def Obligations.RsRemLeavesTheRemainder : Prop :=
  ∀ s : State, s.err = none → s.Inv →
    (s.deg.val ≠ 0 → s.arg0.toNat + s.arg1.toNat ≤ Config.dataSize →
      ∃ t, exec .rsRem s = .next t ∧
        t = { s with rem := t.rem, done := true, cmdcnt := s.cmdcnt + 1, engine := .idle } ∧
        ∀ j, t.rem.read j =
          if j < s.deg.val then
            (remainder ((List.range s.arg1.toNat).map fun k => s.data.read (s.arg0.toNat + k))
              ((List.range s.deg.val).map fun k => s.div.read k)).getD j 0
          else 0) ∧
    (s.deg.val = 0 → Raises .rsRem s .sequenceError) ∧
    (s.deg.val ≠ 0 → Config.dataSize < s.arg0.toNat + s.arg1.toNat →
      Raises .rsRem s .invalidArgument)

/-- R134, R137: `message‖remainder` is a multiple of the divisor polynomial of its degree: it vanishes at the
divisor's roots (R132), and dividing it by the same divisor yields remainder zero; a one-byte message `[1]`
leaves the divisor itself and a message of zeros leaves zeros (R135). -/
def Obligations.RemainderIsSystematic : Prop :=
  (∀ (d : Nat) (msg : List Byte), 1 ≤ d → d ≤ 255 →
    (remainder msg (divisor d)).length = d ∧
    ∀ i < d, evalAt (alphaPow i) (msg ++ remainder msg (divisor d)) = 0) ∧
  ∀ (msg div : List Byte), div ≠ [] →
    remainder (msg ++ remainder msg div) div = List.replicate div.length 0 ∧
    remainder [1] div = div ∧
    ∀ n, remainder (List.replicate n 0) div = List.replicate div.length 0

/-! ### Serializer -/

/-- R146: SEG_DEF writes one entry of SEGTAB; its errors in the order of its checks. -/
def Obligations.SegDefWritesOneEntry : Prop :=
  ∀ (s : State) (index mode : Nat), s.err = none →
    (index < Config.segMax → mode ∈ [1, 2, 4, 7, 8] →
      ∃ t, exec (.segDef index mode) s = .next t ∧
        t = { s with segtab := t.segtab, done := true, cmdcnt := s.cmdcnt + 1, engine := .idle } ∧
        ∀ j (h : j < Config.segMax), t.segtab[j] =
          if j = index then { mode := BitVec.ofNat 4 mode, count := s.arg0, plen := s.arg1 }
          else s.segtab[j]) ∧
    (Config.segMax ≤ index → Raises (.segDef index mode) s .indexError) ∧
    (index < Config.segMax → mode ∉ [1, 2, 4, 7, 8] →
      Raises (.segDef index mode) s .invalidArgument)

/-- R56, R57, R145, R147: VSEL finds the first version of the range that holds the segments; with `boost` the
level is the highest whose capacity covers the total. -/
def Obligations.VselChoosesTheFirstVersionThatFits : Prop :=
  ∀ (s : State) (minver maxver v : Nat) (boost : Bool) (gs : List Seg), s.err = none →
    validVer minver → validVer maxver → s.cfg.nseg.toNat ≤ Config.segMax → describes s gs →
    minver ≤ v → v ≤ maxver → countsFit gs v → needBits gs v ≤ capBits v s.cfg.ecl →
    (∀ u, minver ≤ u → u < v → ¬ (countsFit gs u ∧ needBits gs u ≤ capBits u s.cfg.ecl)) →
    ∃ e, exec (.vsel minver maxver boost) s = .next { s with
        cfg := { s.cfg with version := BitVec.ofNat 6 v, ecl := e },
        result0 := word (needBits gs v), result1 := word (capBits v e),
        done := true, cmdcnt := s.cmdcnt + 1, engine := .idle } ∧
      (boost = false → e = s.cfg.ecl) ∧
      (boost = true → needBits gs v ≤ capBits v e ∧
        ∀ e', needBits gs v ≤ capBits v e' → (eclCode e').toNat ≤ (eclCode e).toNat)

/-- R147, R220: VSEL that finds no version raises DataTooLong with the total at `maxver`, 0xFFFFFFFF for the
sentinel, and the capacity there; CFG is unchanged. -/
def Obligations.VselReportsDataTooLong : Prop :=
  ∀ (s : State) (minver maxver : Nat) (boost : Bool) (gs : List Seg), s.err = none →
    validVer minver → validVer maxver → minver ≤ maxver → s.cfg.nseg.toNat ≤ Config.segMax →
    describes s gs →
    (∀ u, minver ≤ u → u ≤ maxver → ¬ (countsFit gs u ∧ needBits gs u ≤ capBits u s.cfg.ecl)) →
    exec (.vsel minver maxver boost) s = .next { s with
      result0 := if countsFit gs maxver then word (needBits gs maxver) else 0xFFFFFFFF#32,
      result1 := word (capBits maxver s.cfg.ecl), err := some .dataTooLong, errOpc := 0x31,
      done := true, cmdcnt := s.cmdcnt + 1, engine := .idle }

/-- R147: the InvalidArgument checks of VSEL. -/
def Obligations.VselRejectsBadArguments : Prop :=
  ∀ (s : State) (minver maxver : Nat) (boost : Bool), s.err = none →
    (¬ (validVer minver ∧ validVer maxver ∧ minver ≤ maxver) ∨
      Config.segMax < s.cfg.nseg.toNat ∨
      ∃ (i : Nat) (h : i < Config.segMax), i < s.cfg.nseg.toNat ∧
        s.segtab[i].mode.toNat ∉ [1, 2, 4, 7, 8]) →
    Raises (.vsel minver maxver boost) s .invalidArgument

/-- R56, R57, R149: SEG_HDR appends the 4-bit mode indicator and the count in the version's field width; its
errors in the order of its checks. The widths at the band ends, and the codes that are a mode. -/
def Obligations.SegHdrAppendsTheHeader : Prop :=
  ∀ (s : State) (mode : Nat), s.err = none →
    (mode ∉ [1, 2, 4, 7, 8] ∨ ¬ validVer s.cfg.version.toNat →
      Raises (.segHdr mode) s .invalidArgument) ∧
    (∀ m, [9, 10, 26, 27].map (ccbits m) =
      match m with
      | .numeric => [10, 12, 12, 14]
      | .alphanumeric => [9, 11, 11, 13]
      | .byte => [8, 16, 16, 16]
      | .kanji => [8, 10, 10, 12]
      | .eci => [0, 0, 0, 0]) ∧
    (∀ n m, Mode.ofCode n = some m ↔ n = indicator m) ∧
    ∀ m, mode = indicator m → validVer s.cfg.version.toNat →
      let w := fieldWidth m s.cfg.version.toNat
      (s.arg0.toNat < 2 ^ w → s.bb.length + (4 + w) ≤ Config.bbCap →
        exec (.segHdr mode) s = .next { s with
          bb := s.bb ++ (bitsOf 4 mode ++ bitsOf w s.arg0.toNat)
          done := true, cmdcnt := s.cmdcnt + 1, engine := .idle }) ∧
      (2 ^ w ≤ s.arg0.toNat → Raises (.segHdr mode) s .rangeError) ∧
      (s.arg0.toNat < 2 ^ w → Config.bbCap < s.bb.length + (4 + w) →
        Raises (.segHdr mode) s .bufferFull)

/-- R150: TERMPAD keeps the buffer's bits, appends up to 4 zero bits, zeros to a byte boundary, and then
alternating bytes 0xEC, 0x11 until the capacity is exactly filled; a longer buffer raises DataTooLong. -/
def Obligations.TermpadFillsTheCapacity : Prop :=
  ∀ s : State, s.err = none →
    let cap := capBits s.cfg.version.toNat s.cfg.ecl
    (¬ validVer s.cfg.version.toNat → Raises .termpad s .invalidArgument) ∧
    (validVer s.cfg.version.toNat → cap < s.bb.length →
      exec .termpad s = .next { s with
        result0 := word s.bb.length, result1 := word cap, err := some .dataTooLong, errOpc := 0x34,
        done := true, cmdcnt := s.cmdcnt + 1, engine := .idle }) ∧
    (validVer s.cfg.version.toNat → s.bb.length ≤ cap →
      ∃ t, exec .termpad s = .next t ∧
        t = { s with
          bb := t.bb, result0 := word cap, done := true, cmdcnt := s.cmdcnt + 1, engine := .idle } ∧
        t.bb.length = cap ∧ t.bb.take s.bb.length = s.bb ∧
        ∀ p (h : p < t.bb.length), s.bb.length ≤ p →
          let start := (s.bb.length + min 4 (cap - s.bb.length) + 7) / 8 * 8
          t.bb[p] =
            if p < start then false
            else (if (p - start) / 8 % 2 = 0 then 0xEC else 0x11 : Nat).testBit (7 - p % 8))

/-- R64, R151: PACK puts bit `8k + j` of the buffer into bit `7 - j` of DATA[k] and changes no other byte; a
length that is no multiple of 8 raises InvalidArgument. -/
def Obligations.PackWritesTheBytes : Prop :=
  ∀ s : State, s.err = none → s.Inv →
    (s.bb.length % 8 = 0 →
      ∃ t, exec .pack s = .next t ∧
        t = { s with
          data := t.data, result0 := word (s.bb.length / 8), done := true, cmdcnt := s.cmdcnt + 1,
          engine := .idle } ∧
        (∀ k j, 8 * k + j < s.bb.length → j < 8 →
          (t.data.read k).getLsbD (7 - j) = s.bb.getD (8 * k + j) false) ∧
        ∀ a, s.bb.length / 8 ≤ a → t.data.read a = s.data.read a) ∧
    (s.bb.length % 8 ≠ 0 → Raises .pack s .invalidArgument)

/-- R153: INTLV writes the interleaved codewords to RAW, and leaves the divisor and the last block's ECC in
the Reed-Solomon registers; a bad version or length raises InvalidArgument. -/
def Obligations.IntlvWritesTheRawCodewords : Prop :=
  ∀ s : State, s.err = none → s.Inv →
    let v := s.cfg.version.toNat
    let e := s.cfg.ecl
    let dat := (List.range (ndata v e)).map fun k => s.data.read k
    (validVer v → s.arg0.toNat = ndata v e →
      ∃ t, exec .intlv s = .next t ∧
        t = { s with
          raw := t.raw, div := t.div, rem := t.rem, deg := t.deg, result0 := word (rawCw v),
          done := true, cmdcnt := s.cmdcnt + 1, engine := .idle } ∧
        (∀ a, t.raw.read a = if a < rawCw v then (interleave v e dat).getD a 0 else s.raw.read a) ∧
        t.deg.val = eccPerBlock e v ∧
        (∀ j, t.div.read j = (divisor (eccPerBlock e v)).getD j 0) ∧
        ∀ j, t.rem.read j =
          (remainder (blockOf v e dat (numBlocks e v - 1)) (divisor (eccPerBlock e v))).getD
            j 0) ∧
    (¬ validVer v ∨ s.arg0.toNat ≠ ndata v e → Raises .intlv s .invalidArgument)

/-- R152: the raw codewords in closed form. Data column `c` of every block comes first, then the last data
codeword of each long block, then the ECC codewords column by column; they are `raw_cw(v)` in all. -/
def Obligations.InterleaveReadsTheBlocksInRoundRobin : Prop :=
  ∀ (v : Nat) (e : Ecl) (data : List Byte), validVer v → data.length = ndata v e →
    let nb := numBlocks e v
    let short := shortLen v e
    (interleave v e data).length = rawCw v ∧
    ∀ k, k < rawCw v → (interleave v e data).getD k 0 =
      if k < nb * short then (blockOf v e data (k % nb)).getD (k / nb) 0
      else if k < ndata v e then (blockOf v e data (shortBlocks v e + (k - nb * short))).getD short 0
      else (remainder (blockOf v e data ((k - ndata v e) % nb)) (divisor (eccPerBlock e v))).getD
        ((k - ndata v e) / nb) 0

/-- R154: after TERMPAD, PACK writes `ndata` bytes, which INTLV accepts; INTLV writes `raw_cw` bytes, which
MX_PLACE accepts after MX_INIT. The host's writes of ARG0 stand between the commands. -/
def Obligations.PipelineAcceptsEachStage : Prop :=
  ∀ s : State, s.err = none → s.Inv → validVer s.cfg.version.toNat →
    s.bb.length ≤ capBits s.cfg.version.toNat s.cfg.ecl →
    let n := ndata s.cfg.version.toNat s.cfg.ecl
    let raw := rawCw s.cfg.version.toNat
    ∃ t₁ t₂ t₃ t₄ t₅, exec .termpad s = .next t₁ ∧ exec .pack t₁ = .next t₂ ∧
      exec .intlv { t₂ with arg0 := t₂.result0 } = .next t₃ ∧ exec .mxInit t₃ = .next t₄ ∧
      exec .mxPlace { t₄ with arg0 := t₄.result0 } = .next t₅ ∧
      t₁.err = none ∧ t₁.bb.length = capBits s.cfg.version.toNat s.cfg.ecl ∧
      t₂.err = none ∧ t₂.result0 = word n ∧ t₃.err = none ∧ t₃.result0 = word raw ∧
      t₅.err = none ∧ t₅.mxState = .placed

/-! ### Matrix -/

/-- R170: MX_INIT latches CFG's version and level and starts a construction from the drawn patterns; a
version outside 1 to 40 raises InvalidArgument. -/
def Obligations.MxInitStartsAConstruction : Prop :=
  ∀ s : State, s.err = none →
    (validVer s.cfg.version.toNat →
      exec .mxInit s = .next { s with
        mxVer := s.cfg.version, mxEcl := s.cfg.ecl, mxMaskV := false, mxState := .patterns,
        planes := drawPatterns s.cfg.version.toNat s.cfg.ecl, done := true, cmdcnt := s.cmdcnt + 1,
        engine := .idle }) ∧
    (¬ validVer s.cfg.version.toNat → Raises .mxInit s .invalidArgument)

/-- R170 to R177: what MX_INIT draws, pattern by pattern, with the format word of mask 0 and the version word,
and that no other module is a function module or dark. The alignment positions are those of R173, which lists
some of them. -/
def Obligations.FunctionPatternGeometry : Prop :=
  (∀ p ∈ alignValues, alignPositions p.1 = p.2) ∧
  ∀ (v : Nat) (e : Ecl), validVer v →
    let size := v * 4 + 17
    let f := (drawPatterns v e).func
    let d := (drawPatterns v e).dark
    (∀ i, 8 ≤ i → i < size - 8 → f.get i 6 = true ∧ d.get i 6 = (i % 2 == 0) ∧ f.get 6 i = true ∧
      d.get 6 i = (i % 2 == 0)) ∧
    (∀ c ∈ finderCentres size, ∀ x y, x < size → y < size → chebyshev x y c.1 c.2 ≤ 4 →
      f.get x y = true ∧
        d.get x y = (chebyshev x y c.1 c.2 != 2 && chebyshev x y c.1 c.2 != 4)) ∧
    (∀ c ∈ alignCentres v, ∀ x y, chebyshev x y c.1 c.2 ≤ 2 →
      f.get x y = true ∧ d.get x y = (chebyshev x y c.1 c.2 != 1)) ∧
    (∃ w, IsFormatWord e 0 w ∧ ∀ m ∈ formatModules size,
      f.get m.1 m.2.1 = true ∧ d.get m.1 m.2.1 = formatBitOf w m.2.2) ∧
    (∃ w, IsVersionWord v w ∧ ∀ m ∈ versionModules v,
      f.get m.1 m.2.1 = decide (7 ≤ v) ∧ d.get m.1 m.2.1 = (decide (7 ≤ v) && w.testBit m.2.2)) ∧
    (∀ x y, f.get x y = false → d.get x y = false) ∧
    (∀ x y, f.get x y = true → x < size ∧ y < size ∧
      (x = 6 ∨ y = 6 ∨ (∃ c ∈ finderCentres size, chebyshev x y c.1 c.2 ≤ 4) ∨
        (∃ c ∈ alignCentres v, chebyshev x y c.1 c.2 ≤ 2) ∨
        (∃ m ∈ formatModules size, (m.1, m.2.1) = (x, y)) ∨
        (7 ≤ v ∧ ∃ m ∈ versionModules v, (m.1, m.2.1) = (x, y))))

/-- R55, R179: the zig-zag takes the column pairs from right to left, the first upward and the others in
alternating direction, in each row the right column before the left; so it visits every module of the symbol region but
those of column 6 exactly once. Those of them MX_INIT leaves free number exactly `raw_modules(v)`, for every
version and level. -/
def Obligations.ZigzagVisitsTheFreeModulesOnce : Prop :=
  ∀ v : Nat, validVer v →
    let size := v * 4 + 17
    (∀ c vert j, c < (size - 1) / 2 → vert < size → j < 2 →
      (zigzag size)[2 * size * c + 2 * vert + j]? = some (pairRight size c - j, pairRow size c vert)) ∧
    (zigzag size).length = size * (size - 1) ∧ (zigzag size).Nodup ∧
    (∀ x y, (x, y) ∈ zigzag size ↔ x < size ∧ y < size ∧ x ≠ 6) ∧
    ∀ e, (freeModules size (drawPatterns v e).func).length = rawModules v

/-- R178, R179: MX_PLACE puts bit `7 - j % 8` of codeword `j / 8` into the `j`-th non-function module of the
zig-zag, returns `8 * raw_cw(MX_VER)`, and changes no other module; its errors in the order of its
checks. -/
def Obligations.MxPlaceFillsTheZigzag : Prop :=
  ∀ s : State, s.err = none → s.Inv →
    (s.mxState = .patterns → s.arg0.toNat = rawCw s.mxVer.toNat →
      let free := freeModules (symbolSize s) s.planes.func
      let n := 8 * rawCw s.mxVer.toNat
      n ≤ free.length ∧ ∃ t, exec .mxPlace s = .next t ∧
        t = { s with
          planes := { func := s.planes.func, dark := t.planes.dark }, mxState := .placed,
          result0 := word n, done := true, cmdcnt := s.cmdcnt + 1, engine := .idle } ∧
        (∀ j (h : j < free.length), j < n →
          t.planes.dark.get free[j].1 free[j].2 = (s.raw.read (j / 8)).getLsbD (7 - j % 8)) ∧
        (∀ x y, (x, y) ∉ free.take n → t.planes.dark.get x y = s.planes.dark.get x y)) ∧
    (s.mxState ≠ .patterns → Raises .mxPlace s .sequenceError) ∧
    (s.mxState = .patterns → s.arg0.toNat ≠ rawCw s.mxVer.toNat → Raises .mxPlace s .invalidArgument)

/-- R180, R181: MX_MASK inverts exactly the non-function modules of the symbol its predicate, one of the eight of
R180, selects; `applyMask(k)` twice restores every module. SequenceError outside PLACED. -/
def Obligations.MxMaskInvertsTheSelectedModules : Prop :=
  (∀ (size k : Nat) (p : Planes), applyMask size k (applyMask size k p) = p) ∧
  ∀ (s : State) (k : Nat), s.err = none → s.Inv →
    (s.mxState = .placed → k ≤ 7 →
      ∃ t, exec (.mxMask k) s = .next t ∧
        t = { s with
          planes := { func := s.planes.func, dark := t.planes.dark }, done := true,
          cmdcnt := s.cmdcnt + 1, engine := .idle } ∧
        ∀ x y, t.planes.dark.get x y ≠ s.planes.dark.get x y ↔
          x < symbolSize s ∧ y < symbolSize s ∧ s.planes.func.get x y = false ∧ inverted k x y) ∧
    (s.mxState ≠ .placed → Raises (.mxMask k) s .sequenceError)

/-- R176, R182: MX_FMT writes the format word of MX_ECL and its mask into the format area and changes no other
module; SequenceError outside PLACED. -/
def Obligations.MxFmtDrawsTheFormatWord : Prop :=
  ∀ (s : State) (k : Nat), s.err = none → s.Inv →
    (s.mxState = .placed → k ≤ 7 →
      ∃ t w, exec (.mxFmt k) s = .next t ∧ IsFormatWord s.mxEcl k w ∧
        t = { s with
          planes := { func := s.planes.func, dark := t.planes.dark }, done := true,
          cmdcnt := s.cmdcnt + 1, engine := .idle } ∧
        (∀ m ∈ formatModules (symbolSize s),
          t.planes.dark.get m.1 m.2.1 = formatBitOf w m.2.2) ∧
        ∀ x y, (∀ m ∈ formatModules (symbolSize s), (m.1, m.2.1) ≠ (x, y)) →
          t.planes.dark.get x y = s.planes.dark.get x y) ∧
    (s.mxState ≠ .placed → Raises (.mxFmt k) s .sequenceError)

/-- R184: MX_WR writes DARK of one non-function module; its errors in the order of its checks. -/
def Obligations.MxWrWritesOneModule : Prop :=
  ∀ (s : State) (x y : Nat), s.err = none → s.Inv →
    (s.mxState ≠ .patterns → s.mxState ≠ .placed → Raises (.mxWr x y) s .sequenceError) ∧
    (s.mxState = .patterns ∨ s.mxState = .placed →
      (x < symbolSize s → y < symbolSize s → s.planes.func.get x y = false → s.arg0.toNat ≤ 1 →
        ∃ t, exec (.mxWr x y) s = .next t ∧
          t = { s with
            planes := { func := s.planes.func, dark := t.planes.dark }, done := true,
            cmdcnt := s.cmdcnt + 1, engine := .idle } ∧
          ∀ x' y', t.planes.dark.get x' y' =
            if x' = x ∧ y' = y then decide (s.arg0.toNat = 1) else s.planes.dark.get x' y') ∧
      (symbolSize s ≤ x ∨ symbolSize s ≤ y → Raises (.mxWr x y) s .indexError) ∧
      (x < symbolSize s → y < symbolSize s → s.planes.func.get x y = true →
        Raises (.mxWr x y) s .invalidArgument) ∧
      (x < symbolSize s → y < symbolSize s → s.planes.func.get x y = false → 1 < s.arg0.toNat →
        Raises (.mxWr x y) s .rangeError))

/-! ### Penalty and mask selection -/

/-- R202, R207: in a line, a run of length `L` between modules of the other colour or the line's ends
contributes `3 + (L - 5)` points if `L ≥ 5`, and nothing otherwise, beside what the rest of the line
contributes. -/
def Obligations.RunScoresThreePlusExcess : Prop :=
  ∀ (size len : Nat) (c : Bool) (before after : List Bool), 0 < len →
    before.getLast? ≠ some c → after.head? ≠ some c →
    (scanLine size (before ++ List.replicate len c ++ after)).1 =
      (scanLine size before).1 + (if 5 ≤ len then 3 + (len - 5) else 0) + (scanLine size after).1

/-- R201 to R204, R207: the penalty is N1 points over rows and columns, 3 for every uniform 2×2 block, 40 for every
finder-like pattern and 10 for every balance step; it depends only on DARK of the symbol region, is invariant
under transposing the matrix, and its balance term N4 is at most 90. -/
def Obligations.PenaltyIsTransposeInvariant : Prop :=
  ∀ (size : Nat) (p q : Plane),
    penalty size p = scoreOf size p ∧ darkCount size p = darkModules size p ∧
    ((∀ x y, x < size → y < size → p.get x y = q.get x y) → penalty size p = penalty size q) ∧
    ((∀ x y, x < size → y < size → p.get x y = q.get y x) → penalty size p = penalty size q) ∧
    10 * balanceSteps size (darkCount size p) ≤ 90

/-- R205, R206: MSEL finishes the symbol with the forced mask, or with the mask of the lowest trial score,
the lowest id among equals; RESULT1 is the finished symbol's score. `q k` is the symbol with mask `k` and its
format information. Its errors in the order of its checks. -/
def Obligations.MselFinishesWithTheBestMask : Prop :=
  ∀ s : State, s.err = none → s.Inv →
    let req := s.cfg.maskReq.toNat
    (s.mxState = .placed → req ≤ 7 ∨ req = 15 →
      ∃ q : Nat → Planes, (∀ j < 8, IsMasked (symbolSize s) s.mxEcl j s.planes (q j)) ∧
        let score := fun j => scoreOf (symbolSize s) (q j).dark
        ∃ k < 8, exec .msel s = .next { s with
            planes := q k, mxMask := BitVec.ofNat 3 k, mxMaskV := true, mxState := .finalized,
            result0 := word k, result1 := word (score k), done := true, cmdcnt := s.cmdcnt + 1,
            engine := .idle } ∧
          (req ≤ 7 → k = req) ∧
          (req = 15 → ∀ j < 8, score k ≤ score j ∧ (j < k → score k < score j))) ∧
    (s.mxState ≠ .placed → Raises .msel s .sequenceError) ∧
    (s.mxState = .placed → 8 ≤ req → req ≤ 14 → Raises .msel s .invalidArgument)
end

