-- ==== Sys2Proof/Laws/State.lean ====
section
/-! SUPPORT. What each named update of the state does to each field: one lemma a field and update, true by
rfl, so that no proof unfolds a record update. -/

namespace Sys2Proof.Machine

@[simp] theorem complete_ie (s : State) : (complete s).ie = s.ie := rfl
@[simp] theorem complete_done (s : State) : (complete s).done = true := rfl
@[simp] theorem complete_ovr (s : State) : (complete s).ovr = s.ovr := rfl
@[simp] theorem complete_err (s : State) : (complete s).err = s.err := rfl
@[simp] theorem complete_errOpc (s : State) : (complete s).errOpc = s.errOpc := rfl
@[simp] theorem complete_cfg (s : State) : (complete s).cfg = s.cfg := rfl
@[simp] theorem complete_arg0 (s : State) : (complete s).arg0 = s.arg0 := rfl
@[simp] theorem complete_arg1 (s : State) : (complete s).arg1 = s.arg1 := rfl
@[simp] theorem complete_result0 (s : State) : (complete s).result0 = s.result0 := rfl
@[simp] theorem complete_result1 (s : State) : (complete s).result1 = s.result1 := rfl
@[simp] theorem complete_cmdcnt (s : State) : (complete s).cmdcnt = s.cmdcnt + 1 := rfl
@[simp] theorem complete_engine (s : State) : (complete s).engine = .idle := rfl
@[simp] theorem complete_bb (s : State) : (complete s).bb = s.bb := rfl
@[simp] theorem complete_data (s : State) : (complete s).data = s.data := rfl
@[simp] theorem complete_raw (s : State) : (complete s).raw = s.raw := rfl
@[simp] theorem complete_segtab (s : State) : (complete s).segtab = s.segtab := rfl
@[simp] theorem complete_deg (s : State) : (complete s).deg = s.deg := rfl
@[simp] theorem complete_div (s : State) : (complete s).div = s.div := rfl
@[simp] theorem complete_rem (s : State) : (complete s).rem = s.rem := rfl
@[simp] theorem complete_mxState (s : State) : (complete s).mxState = s.mxState := rfl
@[simp] theorem complete_mxVer (s : State) : (complete s).mxVer = s.mxVer := rfl
@[simp] theorem complete_mxEcl (s : State) : (complete s).mxEcl = s.mxEcl := rfl
@[simp] theorem complete_mxMask (s : State) : (complete s).mxMask = s.mxMask := rfl
@[simp] theorem complete_mxMaskV (s : State) : (complete s).mxMaskV = s.mxMaskV := rfl
@[simp] theorem complete_planes (s : State) : (complete s).planes = s.planes := rfl
@[simp] theorem complete_host (s : State) : (complete s).host = s.host := rfl
@[simp] theorem complete_reads (s : State) : (complete s).reads = s.reads := rfl
@[simp] theorem complete_draws (s : State) : (complete s).draws = s.draws := rfl

@[simp] theorem drop_ie (s : State) : (drop s).ie = s.ie := rfl
@[simp] theorem drop_done (s : State) : (drop s).done = true := rfl
@[simp] theorem drop_ovr (s : State) : (drop s).ovr = s.ovr := rfl
@[simp] theorem drop_err (s : State) : (drop s).err = s.err := rfl
@[simp] theorem drop_errOpc (s : State) : (drop s).errOpc = s.errOpc := rfl
@[simp] theorem drop_cfg (s : State) : (drop s).cfg = s.cfg := rfl
@[simp] theorem drop_arg0 (s : State) : (drop s).arg0 = s.arg0 := rfl
@[simp] theorem drop_arg1 (s : State) : (drop s).arg1 = s.arg1 := rfl
@[simp] theorem drop_result0 (s : State) : (drop s).result0 = s.result0 := rfl
@[simp] theorem drop_result1 (s : State) : (drop s).result1 = s.result1 := rfl
@[simp] theorem drop_cmdcnt (s : State) : (drop s).cmdcnt = s.cmdcnt := rfl
@[simp] theorem drop_engine (s : State) : (drop s).engine = .idle := rfl
@[simp] theorem drop_bb (s : State) : (drop s).bb = s.bb := rfl
@[simp] theorem drop_data (s : State) : (drop s).data = s.data := rfl
@[simp] theorem drop_raw (s : State) : (drop s).raw = s.raw := rfl
@[simp] theorem drop_segtab (s : State) : (drop s).segtab = s.segtab := rfl
@[simp] theorem drop_deg (s : State) : (drop s).deg = s.deg := rfl
@[simp] theorem drop_div (s : State) : (drop s).div = s.div := rfl
@[simp] theorem drop_rem (s : State) : (drop s).rem = s.rem := rfl
@[simp] theorem drop_mxState (s : State) : (drop s).mxState = s.mxState := rfl
@[simp] theorem drop_mxVer (s : State) : (drop s).mxVer = s.mxVer := rfl
@[simp] theorem drop_mxEcl (s : State) : (drop s).mxEcl = s.mxEcl := rfl
@[simp] theorem drop_mxMask (s : State) : (drop s).mxMask = s.mxMask := rfl
@[simp] theorem drop_mxMaskV (s : State) : (drop s).mxMaskV = s.mxMaskV := rfl
@[simp] theorem drop_planes (s : State) : (drop s).planes = s.planes := rfl
@[simp] theorem drop_host (s : State) : (drop s).host = s.host := rfl
@[simp] theorem drop_reads (s : State) : (drop s).reads = s.reads := rfl
@[simp] theorem drop_draws (s : State) : (drop s).draws = s.draws := rfl

@[simp] theorem clearError_ie (s : State) : (clearError s).ie = s.ie := rfl
@[simp] theorem clearError_done (s : State) : (clearError s).done = s.done := rfl
@[simp] theorem clearError_ovr (s : State) : (clearError s).ovr = s.ovr := rfl
@[simp] theorem clearError_err (s : State) : (clearError s).err = none := rfl
@[simp] theorem clearError_errOpc (s : State) : (clearError s).errOpc = 0 := rfl
@[simp] theorem clearError_cfg (s : State) : (clearError s).cfg = s.cfg := rfl
@[simp] theorem clearError_arg0 (s : State) : (clearError s).arg0 = s.arg0 := rfl
@[simp] theorem clearError_arg1 (s : State) : (clearError s).arg1 = s.arg1 := rfl
@[simp] theorem clearError_result0 (s : State) : (clearError s).result0 = s.result0 := rfl
@[simp] theorem clearError_result1 (s : State) : (clearError s).result1 = s.result1 := rfl
@[simp] theorem clearError_cmdcnt (s : State) : (clearError s).cmdcnt = s.cmdcnt := rfl
@[simp] theorem clearError_engine (s : State) : (clearError s).engine = s.engine := rfl
@[simp] theorem clearError_bb (s : State) : (clearError s).bb = s.bb := rfl
@[simp] theorem clearError_data (s : State) : (clearError s).data = s.data := rfl
@[simp] theorem clearError_raw (s : State) : (clearError s).raw = s.raw := rfl
@[simp] theorem clearError_segtab (s : State) : (clearError s).segtab = s.segtab := rfl
@[simp] theorem clearError_deg (s : State) : (clearError s).deg = s.deg := rfl
@[simp] theorem clearError_div (s : State) : (clearError s).div = s.div := rfl
@[simp] theorem clearError_rem (s : State) : (clearError s).rem = s.rem := rfl
@[simp] theorem clearError_mxState (s : State) : (clearError s).mxState = s.mxState := rfl
@[simp] theorem clearError_mxVer (s : State) : (clearError s).mxVer = s.mxVer := rfl
@[simp] theorem clearError_mxEcl (s : State) : (clearError s).mxEcl = s.mxEcl := rfl
@[simp] theorem clearError_mxMask (s : State) : (clearError s).mxMask = s.mxMask := rfl
@[simp] theorem clearError_mxMaskV (s : State) : (clearError s).mxMaskV = s.mxMaskV := rfl
@[simp] theorem clearError_planes (s : State) : (clearError s).planes = s.planes := rfl
@[simp] theorem clearError_host (s : State) : (clearError s).host = s.host := rfl
@[simp] theorem clearError_reads (s : State) : (clearError s).reads = s.reads := rfl
@[simp] theorem clearError_draws (s : State) : (clearError s).draws = s.draws := rfl

@[simp] theorem issue_ie (v : Word) (s : State) : (issue v s).ie = s.ie := rfl
@[simp] theorem issue_done (v : Word) (s : State) : (issue v s).done = s.done := rfl
@[simp] theorem issue_ovr (v : Word) (s : State) : (issue v s).ovr = s.ovr := rfl
@[simp] theorem issue_err (v : Word) (s : State) : (issue v s).err = s.err := rfl
@[simp] theorem issue_errOpc (v : Word) (s : State) : (issue v s).errOpc = s.errOpc := rfl
@[simp] theorem issue_cfg (v : Word) (s : State) : (issue v s).cfg = s.cfg := rfl
@[simp] theorem issue_arg0 (v : Word) (s : State) : (issue v s).arg0 = s.arg0 := rfl
@[simp] theorem issue_arg1 (v : Word) (s : State) : (issue v s).arg1 = s.arg1 := rfl
@[simp] theorem issue_result0 (v : Word) (s : State) : (issue v s).result0 = s.result0 := rfl
@[simp] theorem issue_result1 (v : Word) (s : State) : (issue v s).result1 = s.result1 := rfl
@[simp] theorem issue_cmdcnt (v : Word) (s : State) : (issue v s).cmdcnt = s.cmdcnt := rfl
@[simp] theorem issue_engine (v : Word) (s : State) : (issue v s).engine = .running v (Config.cmdLatency v s - 1) := rfl
@[simp] theorem issue_bb (v : Word) (s : State) : (issue v s).bb = s.bb := rfl
@[simp] theorem issue_data (v : Word) (s : State) : (issue v s).data = s.data := rfl
@[simp] theorem issue_raw (v : Word) (s : State) : (issue v s).raw = s.raw := rfl
@[simp] theorem issue_segtab (v : Word) (s : State) : (issue v s).segtab = s.segtab := rfl
@[simp] theorem issue_deg (v : Word) (s : State) : (issue v s).deg = s.deg := rfl
@[simp] theorem issue_div (v : Word) (s : State) : (issue v s).div = s.div := rfl
@[simp] theorem issue_rem (v : Word) (s : State) : (issue v s).rem = s.rem := rfl
@[simp] theorem issue_mxState (v : Word) (s : State) : (issue v s).mxState = s.mxState := rfl
@[simp] theorem issue_mxVer (v : Word) (s : State) : (issue v s).mxVer = s.mxVer := rfl
@[simp] theorem issue_mxEcl (v : Word) (s : State) : (issue v s).mxEcl = s.mxEcl := rfl
@[simp] theorem issue_mxMask (v : Word) (s : State) : (issue v s).mxMask = s.mxMask := rfl
@[simp] theorem issue_mxMaskV (v : Word) (s : State) : (issue v s).mxMaskV = s.mxMaskV := rfl
@[simp] theorem issue_planes (v : Word) (s : State) : (issue v s).planes = s.planes := rfl
@[simp] theorem issue_host (v : Word) (s : State) : (issue v s).host = s.host := rfl
@[simp] theorem issue_reads (v : Word) (s : State) : (issue v s).reads = s.reads := rfl
@[simp] theorem issue_draws (v : Word) (s : State) : (issue v s).draws = s.draws := rfl

@[simp] theorem startReset_ie (s : State) : (startReset s).ie = State.reset.ie := rfl
@[simp] theorem startReset_done (s : State) : (startReset s).done = State.reset.done := rfl
@[simp] theorem startReset_ovr (s : State) : (startReset s).ovr = State.reset.ovr := rfl
@[simp] theorem startReset_err (s : State) : (startReset s).err = State.reset.err := rfl
@[simp] theorem startReset_errOpc (s : State) : (startReset s).errOpc = State.reset.errOpc := rfl
@[simp] theorem startReset_cfg (s : State) : (startReset s).cfg = State.reset.cfg := rfl
@[simp] theorem startReset_arg0 (s : State) : (startReset s).arg0 = State.reset.arg0 := rfl
@[simp] theorem startReset_arg1 (s : State) : (startReset s).arg1 = State.reset.arg1 := rfl
@[simp] theorem startReset_result0 (s : State) : (startReset s).result0 = State.reset.result0 := rfl
@[simp] theorem startReset_result1 (s : State) : (startReset s).result1 = State.reset.result1 := rfl
@[simp] theorem startReset_cmdcnt (s : State) : (startReset s).cmdcnt = State.reset.cmdcnt := rfl
@[simp] theorem startReset_engine (s : State) : (startReset s).engine = .resetting (Config.resetCycles - 1) := rfl
@[simp] theorem startReset_bb (s : State) : (startReset s).bb = State.reset.bb := rfl
@[simp] theorem startReset_data (s : State) : (startReset s).data = State.reset.data := rfl
@[simp] theorem startReset_raw (s : State) : (startReset s).raw = State.reset.raw := rfl
@[simp] theorem startReset_segtab (s : State) : (startReset s).segtab = State.reset.segtab := rfl
@[simp] theorem startReset_deg (s : State) : (startReset s).deg = State.reset.deg := rfl
@[simp] theorem startReset_div (s : State) : (startReset s).div = State.reset.div := rfl
@[simp] theorem startReset_rem (s : State) : (startReset s).rem = State.reset.rem := rfl
@[simp] theorem startReset_mxState (s : State) : (startReset s).mxState = State.reset.mxState := rfl
@[simp] theorem startReset_mxVer (s : State) : (startReset s).mxVer = State.reset.mxVer := rfl
@[simp] theorem startReset_mxEcl (s : State) : (startReset s).mxEcl = State.reset.mxEcl := rfl
@[simp] theorem startReset_mxMask (s : State) : (startReset s).mxMask = State.reset.mxMask := rfl
@[simp] theorem startReset_mxMaskV (s : State) : (startReset s).mxMaskV = State.reset.mxMaskV := rfl
@[simp] theorem startReset_planes (s : State) : (startReset s).planes = State.reset.planes := rfl
@[simp] theorem startReset_host (s : State) : (startReset s).host = s.host := rfl
@[simp] theorem startReset_reads (s : State) : (startReset s).reads = s.reads := rfl
@[simp] theorem startReset_draws (s : State) : (startReset s).draws = s.draws := rfl

/-! `Raised.payload` writes RESULT0 and RESULT1 for DataTooLong only (R217). -/

@[simp] theorem Raised.payload_ie (e : Raised) (s : State) : (e.payload s).ie = s.ie := by
  cases e <;> rfl
@[simp] theorem Raised.payload_done (e : Raised) (s : State) : (e.payload s).done = s.done := by
  cases e <;> rfl
@[simp] theorem Raised.payload_ovr (e : Raised) (s : State) : (e.payload s).ovr = s.ovr := by
  cases e <;> rfl
@[simp] theorem Raised.payload_err (e : Raised) (s : State) : (e.payload s).err = s.err := by
  cases e <;> rfl
@[simp] theorem Raised.payload_errOpc (e : Raised) (s : State) : (e.payload s).errOpc = s.errOpc := by
  cases e <;> rfl
@[simp] theorem Raised.payload_cfg (e : Raised) (s : State) : (e.payload s).cfg = s.cfg := by
  cases e <;> rfl
@[simp] theorem Raised.payload_arg0 (e : Raised) (s : State) : (e.payload s).arg0 = s.arg0 := by
  cases e <;> rfl
@[simp] theorem Raised.payload_arg1 (e : Raised) (s : State) : (e.payload s).arg1 = s.arg1 := by
  cases e <;> rfl
@[simp] theorem Raised.payload_cmdcnt (e : Raised) (s : State) : (e.payload s).cmdcnt = s.cmdcnt := by
  cases e <;> rfl
@[simp] theorem Raised.payload_engine (e : Raised) (s : State) : (e.payload s).engine = s.engine := by
  cases e <;> rfl
@[simp] theorem Raised.payload_bb (e : Raised) (s : State) : (e.payload s).bb = s.bb := by
  cases e <;> rfl
@[simp] theorem Raised.payload_data (e : Raised) (s : State) : (e.payload s).data = s.data := by
  cases e <;> rfl
@[simp] theorem Raised.payload_raw (e : Raised) (s : State) : (e.payload s).raw = s.raw := by
  cases e <;> rfl
@[simp] theorem Raised.payload_segtab (e : Raised) (s : State) : (e.payload s).segtab = s.segtab := by
  cases e <;> rfl
@[simp] theorem Raised.payload_deg (e : Raised) (s : State) : (e.payload s).deg = s.deg := by
  cases e <;> rfl
@[simp] theorem Raised.payload_div (e : Raised) (s : State) : (e.payload s).div = s.div := by
  cases e <;> rfl
@[simp] theorem Raised.payload_rem (e : Raised) (s : State) : (e.payload s).rem = s.rem := by
  cases e <;> rfl
@[simp] theorem Raised.payload_mxState (e : Raised) (s : State) : (e.payload s).mxState = s.mxState := by
  cases e <;> rfl
@[simp] theorem Raised.payload_mxVer (e : Raised) (s : State) : (e.payload s).mxVer = s.mxVer := by
  cases e <;> rfl
@[simp] theorem Raised.payload_mxEcl (e : Raised) (s : State) : (e.payload s).mxEcl = s.mxEcl := by
  cases e <;> rfl
@[simp] theorem Raised.payload_mxMask (e : Raised) (s : State) : (e.payload s).mxMask = s.mxMask := by
  cases e <;> rfl
@[simp] theorem Raised.payload_mxMaskV (e : Raised) (s : State) : (e.payload s).mxMaskV = s.mxMaskV := by
  cases e <;> rfl
@[simp] theorem Raised.payload_planes (e : Raised) (s : State) : (e.payload s).planes = s.planes := by
  cases e <;> rfl
@[simp] theorem Raised.payload_host (e : Raised) (s : State) : (e.payload s).host = s.host := by
  cases e <;> rfl
@[simp] theorem Raised.payload_reads (e : Raised) (s : State) : (e.payload s).reads = s.reads := by
  cases e <;> rfl
@[simp] theorem Raised.payload_draws (e : Raised) (s : State) : (e.payload s).draws = s.draws := by
  cases e <;> rfl

theorem Raised.payload_of_ne (e : Raised) (s : State) (h : e.code ≠ .dataTooLong) : e.payload s = s := by
  cases e <;> first | rfl | exact absurd rfl h

@[simp] theorem raise_ie (e : Raised) (opc : BitVec 8) (s : State) : (raise e opc s).ie = s.ie := by
  simp [raise]
@[simp] theorem raise_done (e : Raised) (opc : BitVec 8) (s : State) : (raise e opc s).done = true := by
  simp [raise]
@[simp] theorem raise_ovr (e : Raised) (opc : BitVec 8) (s : State) : (raise e opc s).ovr = s.ovr := by
  simp [raise]
@[simp] theorem raise_err (e : Raised) (opc : BitVec 8) (s : State) : (raise e opc s).err = some e.code := by
  simp [raise]
@[simp] theorem raise_errOpc (e : Raised) (opc : BitVec 8) (s : State) : (raise e opc s).errOpc = opc := by
  simp [raise]
@[simp] theorem raise_cfg (e : Raised) (opc : BitVec 8) (s : State) : (raise e opc s).cfg = s.cfg := by
  simp [raise]
@[simp] theorem raise_arg0 (e : Raised) (opc : BitVec 8) (s : State) : (raise e opc s).arg0 = s.arg0 := by
  simp [raise]
@[simp] theorem raise_arg1 (e : Raised) (opc : BitVec 8) (s : State) : (raise e opc s).arg1 = s.arg1 := by
  simp [raise]
@[simp] theorem raise_cmdcnt (e : Raised) (opc : BitVec 8) (s : State) : (raise e opc s).cmdcnt = s.cmdcnt + 1 := by
  simp [raise]
@[simp] theorem raise_engine (e : Raised) (opc : BitVec 8) (s : State) : (raise e opc s).engine = .idle := by
  simp [raise]
@[simp] theorem raise_bb (e : Raised) (opc : BitVec 8) (s : State) : (raise e opc s).bb = s.bb := by
  simp [raise]
@[simp] theorem raise_data (e : Raised) (opc : BitVec 8) (s : State) : (raise e opc s).data = s.data := by
  simp [raise]
@[simp] theorem raise_raw (e : Raised) (opc : BitVec 8) (s : State) : (raise e opc s).raw = s.raw := by
  simp [raise]
@[simp] theorem raise_segtab (e : Raised) (opc : BitVec 8) (s : State) : (raise e opc s).segtab = s.segtab := by
  simp [raise]
@[simp] theorem raise_deg (e : Raised) (opc : BitVec 8) (s : State) : (raise e opc s).deg = s.deg := by
  simp [raise]
@[simp] theorem raise_div (e : Raised) (opc : BitVec 8) (s : State) : (raise e opc s).div = s.div := by
  simp [raise]
@[simp] theorem raise_rem (e : Raised) (opc : BitVec 8) (s : State) : (raise e opc s).rem = s.rem := by
  simp [raise]
@[simp] theorem raise_mxState (e : Raised) (opc : BitVec 8) (s : State) : (raise e opc s).mxState = s.mxState := by
  simp [raise]
@[simp] theorem raise_mxVer (e : Raised) (opc : BitVec 8) (s : State) : (raise e opc s).mxVer = s.mxVer := by
  simp [raise]
@[simp] theorem raise_mxEcl (e : Raised) (opc : BitVec 8) (s : State) : (raise e opc s).mxEcl = s.mxEcl := by
  simp [raise]
@[simp] theorem raise_mxMask (e : Raised) (opc : BitVec 8) (s : State) : (raise e opc s).mxMask = s.mxMask := by
  simp [raise]
@[simp] theorem raise_mxMaskV (e : Raised) (opc : BitVec 8) (s : State) : (raise e opc s).mxMaskV = s.mxMaskV := by
  simp [raise]
@[simp] theorem raise_planes (e : Raised) (opc : BitVec 8) (s : State) : (raise e opc s).planes = s.planes := by
  simp [raise]
@[simp] theorem raise_host (e : Raised) (opc : BitVec 8) (s : State) : (raise e opc s).host = s.host := by
  simp [raise]
@[simp] theorem raise_reads (e : Raised) (opc : BitVec 8) (s : State) : (raise e opc s).reads = s.reads := by
  simp [raise]
@[simp] theorem raise_draws (e : Raised) (opc : BitVec 8) (s : State) : (raise e opc s).draws = s.draws := by
  simp [raise]

/-- An error other than DataTooLong writes ERR, ERR_OPC and the bookkeeping only. -/
theorem raise_of_ne {e : Raised} (opc : BitVec 8) (s : State) (h : e.code ≠ .dataTooLong) :
    raise e opc s = { s with
      err := some e.code, errOpc := opc, done := true, cmdcnt := s.cmdcnt + 1, engine := .idle } := by
  simp [raise, Raised.payload_of_ne e s h, complete]

theorem raise_dataTooLong (required capacity : Nat) (opc : BitVec 8) (s : State) :
    raise (.dataTooLong required capacity) opc s = { s with
      result0 := word required, result1 := word capacity, err := some .dataTooLong, errOpc := opc,
      done := true, cmdcnt := s.cmdcnt + 1, engine := .idle } := rfl

end Sys2Proof.Machine
end

