-- ==== Sys2Proof/Laws/Command.lean ====
section
/-! SUPPORT. What issuing a command can do, said once: dropped, completed or ended by an error; and what
a step and a host turn can do. -/

namespace Sys2Proof.Machine

theorem command_of_err {opc : BitVec 8} {body : State → Except Raised State} {s : State}
    (h : s.err ≠ none) : command opc body s = .next (drop s) := by
  simp [command, Option.isSome_iff_ne_none.mpr h]

theorem command_of_ok {opc : BitVec 8} {body : State → Except Raised State} {s t : State}
    (h : s.err = none) (hb : body s = .ok t) : command opc body s = .next (complete t) := by
  simp [command, h, hb]

theorem command_of_error {opc : BitVec 8} {body : State → Except Raised State} {s : State}
    {e : Raised} (h : s.err = none) (hb : body s = .error e) :
    command opc body s = .next (raise e opc s) := by
  simp [command, h, hb]

/-- A command answers a next state, and it is one of three. -/
theorem command_cases {opc : BitVec 8} {body : State → Except Raised State} {s : State} :
    ∃ t, command opc body s = .next t ∧
      ((s.err ≠ none ∧ t = drop s) ∨
        (s.err = none ∧ ∃ u, body s = .ok u ∧ t = complete u) ∨
        (s.err = none ∧ ∃ e, body s = .error e ∧ t = raise e opc s)) := by
  by_cases h : s.err = none
  · cases hb : body s with
    | ok u => exact ⟨_, command_of_ok h hb, .inr (.inl ⟨h, u, rfl, rfl⟩)⟩
    | error e => exact ⟨_, command_of_error h hb, .inr (.inr ⟨h, e, rfl, rfl⟩)⟩
  · exact ⟨_, command_of_err h, .inl ⟨h, rfl⟩⟩

/-- Every instruction is a command with its own OPC. -/
theorem exec_is_command (i : Instr) :
    ∃ body, ∀ s, exec i s = command (BitVec.ofNat 8 i.opc) body s := by
  cases i with
  | nop => exact ⟨fun s => .ok s, fun _ => rfl⟩
  | bbClr => exact ⟨fun s => .ok { s with bb := [] }, fun _ => rfl⟩
  | gfMul x y => exact ⟨fun s => .ok { s with result0 := word (gfmulNat x y) }, fun _ => rfl⟩
  | _ => exact ⟨_, fun _ => rfl⟩

/-- An append either fits the buffer or raises BufferFull (R111). -/
theorem appendBits_cases (bs : List Bool) (s : State) :
    (s.bb.length + bs.length ≤ Config.bbCap ∧
        appendBits bs s = .ok { s with bb := s.bb ++ bs }) ∨
      (Config.bbCap < s.bb.length + bs.length ∧ appendBits bs s = .error .bufferFull) := by
  unfold appendBits State.bbLen
  by_cases h : s.bb.length + bs.length > Config.bbCap
  · exact .inr ⟨h, by simp [h]⟩
  · exact .inl ⟨Nat.le_of_not_lt h, by simp [h]⟩

/-- What a host turn can do. -/
theorem hostTurn_cases (s : State) :
    (s.host = [] ∧ hostTurn s = .next s) ∨
    (∃ o v rest, s.host = .wr o .word v :: rest ∧ o.toNat % 4 = 0 ∧
      hostTurn s = .next (hostWrite o v { s with host := rest })) ∨
    (∃ o rest, s.host = .rd o .word :: rest ∧ o.toNat % 4 = 0 ∧
      hostTurn s = .next (hostRead o { s with host := rest })) ∨
    (∃ rest, s.host = .poll :: rest ∧ s.busy = true ∧ hostTurn s = .next s) ∨
    (∃ rest, s.host = .poll :: rest ∧ s.busy = false ∧ hostTurn s = .next { s with host := rest }) ∨
    (∃ rest, s.host = .resetInput :: rest ∧
      hostTurn s = .next (startReset { s with host := rest })) ∨
    (∃ op rest, s.host = op :: rest ∧ op.ok = false ∧ hostTurn s = .refused .hostAccess) := by
  unfold hostTurn
  cases h : s.host with
  | nil => exact .inl ⟨rfl, rfl⟩
  | cons op rest =>
    cases op with
    | wr o size v =>
      by_cases ha : admitted o size = true
      · have := ha
        simp only [admitted, Bool.and_eq_true, decide_eq_true_eq] at this
        obtain ⟨rfl, ho⟩ := this
        exact .inr (.inl ⟨o, v, rest, rfl, ho, by simp [ha]⟩)
      · exact .inr (.inr (.inr (.inr (.inr (.inr
          ⟨_, rest, rfl, by simpa [HostOp.ok] using ha, by simp [ha]⟩)))))
    | rd o size =>
      by_cases ha : admitted o size = true
      · have := ha
        simp only [admitted, Bool.and_eq_true, decide_eq_true_eq] at this
        obtain ⟨rfl, ho⟩ := this
        exact .inr (.inr (.inl ⟨o, rest, rfl, ho, by simp [ha]⟩))
      · exact .inr (.inr (.inr (.inr (.inr (.inr
          ⟨_, rest, rfl, by simpa [HostOp.ok] using ha, by simp [ha]⟩)))))
    | poll =>
      cases hb : s.busy
      · exact .inr (.inr (.inr (.inr (.inl ⟨rest, rfl, rfl, by simp⟩))))
      · exact .inr (.inr (.inr (.inl ⟨rest, rfl, rfl, by simp⟩)))
    | resetInput => exact .inr (.inr (.inr (.inr (.inr (.inl ⟨rest, rfl, rfl⟩)))))

/-- What a step can do: a host turn, the completion of a command, an illegal word's completion, or the
end of a reset. -/
theorem step_cases (s : State) :
    (s.engine = .idle ∧ step s = hostTurn s) ∨
    (∃ w i, s.engine = .running w 0 ∧ decode w = .ok i ∧ step s = exec i s) ∨
    (∃ w e, s.engine = .running w 0 ∧ decode w = .error e ∧ step s = rejectWord w s) ∨
    (∃ w left, s.engine = .running w (left + 1) ∧
      step s = hostTurn { s with engine := .running w left }) ∨
    (s.engine = .resetting 0 ∧ step s = .next { s with engine := .idle }) ∨
    (∃ left, s.engine = .resetting (left + 1) ∧
      step s = hostTurn { s with engine := .resetting left }) := by
  unfold step
  cases h : s.engine with
  | idle => exact .inl ⟨rfl, rfl⟩
  | running w left =>
    cases left with
    | zero =>
      cases hd : decode w with
      | ok i => exact .inr (.inl ⟨w, i, rfl, hd, by simp [runWord, hd]⟩)
      | error e => exact .inr (.inr (.inl ⟨w, e, rfl, hd, by simp [runWord, hd]⟩))
    | succ left => exact .inr (.inr (.inr (.inl ⟨w, left, rfl, rfl⟩)))
  | resetting left =>
    cases left with
    | zero => exact .inr (.inr (.inr (.inr (.inl ⟨rfl, rfl⟩))))
    | succ left => exact .inr (.inr (.inr (.inr (.inr ⟨left, rfl, rfl⟩))))

/-- The step that runs a word in a state where a command waits at the end of its run. -/
theorem step_withFetchWord (s : State) (nbits w : Nat) :
    step (s.withFetchWord nbits w) =
      runWord (word (w % 2 ^ nbits)) (s.withFetchWord nbits w) := rfl

end Sys2Proof.Machine
end

