-- ==== Sys2Proof/Laws/Lists.lean ====
section
/-! SUPPORT. Lengths and elements of the bit and byte sequences the commands build. -/

namespace Sys2Proof.Machine

@[simp] theorem length_msbBits (w v : Nat) : (msbBits w v).length = w := by
  induction w with
  | zero => rfl
  | succ w ih => simp [msbBits, ih]

/-- Bit `j` of the appended sequence is bit `w - 1 - j` of the value (R10). -/
theorem getElem_msbBits (w v j : Nat) (h : j < (msbBits w v).length) :
    (msbBits w v)[j] = v.testBit (w - 1 - j) := by
  induction w generalizing j with
  | zero => simp at h
  | succ w ih =>
    cases j with
    | zero => simp [msbBits]
    | succ j =>
      have hj : j < (msbBits w v).length := by simpa using h
      simp only [msbBits, List.getElem_cons_succ, ih j hj]
      congr 1
      omega

theorem msbBits_eq_map (w v : Nat) :
    msbBits w v = (List.range w).map fun j => v.testBit (w - 1 - j) := by
  refine List.ext_getElem (by simp) fun j h _ => ?_
  rw [getElem_msbBits w v j h]
  simp

@[simp] theorem length_lanes (a : Word) (n : Nat) : (lanes a n).length = n := by simp [lanes]

@[simp] theorem length_padBytes (n pad : Nat) : (padBytes n pad).length = 8 * n := by
  induction n generalizing pad with
  | zero => rfl
  | succ n ih => simp [padBytes, ih]; omega

@[simp] theorem length_mulRoot (root : Byte) (rs : List Byte) : (mulRoot root rs).length = rs.length := by
  fun_induction mulRoot root rs <;> simp_all

/-- The stored divisor has one byte for each power below its degree (R132). -/
theorem length_divisor {d : Nat} (h : 1 ≤ d) : (divisor d).length = d := by
  unfold divisor
  have : ∀ n, (loop n (fun _ (p : List Byte × Byte) => (mulRoot p.2 p.1, gfmul p.2 0x02))
      (List.replicate (d - 1) 0 ++ [1], 1)).1.length = d := by
    intro n
    induction n with
    | zero => simp [loop]; omega
    | succ n ih => simpa [loop] using ih
  exact this d

@[simp] theorem length_remStep (div r : List Byte) (m : Byte) (h : r.length = div.length) :
    (remStep div r m).length = div.length := by
  cases r with
  | nil =>
    obtain rfl := List.eq_nil_of_length_eq_zero h.symm
    rfl
  | cons a r => simp_all [remStep]

/-- A remainder is as long as its divisor (R134). -/
@[simp] theorem length_remainder (msg div : List Byte) :
    (remainder msg div).length = div.length := by
  unfold remainder
  have : ∀ (msg r : List Byte), r.length = div.length →
      (msg.foldl (remStep div) r).length = div.length := by
    intro msg
    induction msg with
    | nil => intro r h; exact h
    | cons m msg ih => intro r h; exact ih _ (length_remStep div r m h)
  exact this msg _ (by simp)

/-- Packing makes one byte of each whole group of 8 bits (R151). -/
theorem length_packBits (bs : List Bool) : (packBits bs).length = bs.length / 8 := by
  fun_induction packBits bs with
  | case1 b0 b1 b2 b3 b4 b5 b6 b7 rest ih => simp [ih]; omega
  | case2 bs h =>
    match bs, h with
    | [], _ | [_], _ | [_, _], _ | [_, _, _], _ | [_, _, _, _], _ | [_, _, _, _, _], _
    | [_, _, _, _, _, _], _ | [_, _, _, _, _, _, _], _ => simp
    | a :: b :: c :: d :: e :: f :: g :: i :: rest, h => exact absurd rfl (h a b c d e f g i rest)

@[simp] theorem length_codewordBits (cw : List Byte) : (codewordBits cw).length = 8 * cw.length := by
  induction cw with
  | nil => rfl
  | cons b cw ih => simp_all [codewordBits]; omega

end Sys2Proof.Machine
end

