-- ==== Sys2Proof/Laws/Memory.lean ====
section
/-! SUPPORT. The byte stores: every operation keeps the canonical form, reads after writes, and a store
in canonical form is determined by what it reads. -/

namespace Sys2Proof.Machine

@[simp] theorem Memory.read_nil (a : Nat) : Memory.read [] a = 0 := rfl

theorem Memory.read_cons (k : Nat) (b : Byte) (m : Memory) (a : Nat) :
    Memory.read ((k, b) :: m) a = if k = a then b else Memory.read m a := rfl

@[simp] theorem Memory.wf_nil (size : Nat) : Memory.wf size [] = true := rfl

theorem Memory.wfFrom_cons {size lo k : Nat} {b : Byte} {m : Memory} :
    Memory.wfFrom size lo ((k, b) :: m) = true ↔
      lo ≤ k ∧ k < size ∧ b ≠ 0 ∧ Memory.wfFrom size (k + 1) m = true := by
  simp [Memory.wfFrom, and_assoc]

theorem Memory.wfFrom_mono {size size' : Nat} {m : Memory} :
    ∀ {lo lo' : Nat}, lo' ≤ lo → size ≤ size' → Memory.wfFrom size lo m = true →
      Memory.wfFrom size' lo' m = true := by
  induction m with
  | nil => intros; rfl
  | cons c m ih =>
    intro lo lo' hlo hsize h
    obtain ⟨k, b⟩ := c
    rw [Memory.wfFrom_cons] at h ⊢
    exact ⟨hlo.trans h.1, by omega, h.2.2.1, ih le_rfl hsize h.2.2.2⟩

/-- A larger store holds a smaller one's form. -/
theorem Memory.wf_mono {size size' : Nat} {m : Memory} (h : size ≤ size')
    (hm : Memory.wf size m = true) : Memory.wf size' m = true :=
  Memory.wfFrom_mono le_rfl h hm

theorem Memory.read_eq_zero_of_lt {size : Nat} {m : Memory} :
    ∀ {lo a : Nat}, Memory.wfFrom size lo m = true → a < lo → m.read a = 0 := by
  induction m with
  | nil => intros; rfl
  | cons c m ih =>
    intro lo a h ha
    obtain ⟨k, b⟩ := c
    rw [Memory.wfFrom_cons] at h
    rw [Memory.read_cons, if_neg (by omega)]
    exact ih h.2.2.2 (by omega)

theorem Memory.read_eq_zero_of_ge {size : Nat} {m : Memory} :
    ∀ {lo a : Nat}, Memory.wfFrom size lo m = true → size ≤ a → m.read a = 0 := by
  induction m with
  | nil => intros; rfl
  | cons c m ih =>
    intro lo a h ha
    obtain ⟨k, b⟩ := c
    rw [Memory.wfFrom_cons] at h
    rw [Memory.read_cons, if_neg (by omega)]
    exact ih h.2.2.2 ha

/-- An element beyond the store's size reads 0. -/
theorem Memory.read_beyond {size a : Nat} {m : Memory} (h : Memory.wf size m = true)
    (ha : size ≤ a) : m.read a = 0 :=
  Memory.read_eq_zero_of_ge h ha

theorem Memory.read_write_from {size : Nat} {m : Memory} :
    ∀ {lo : Nat} (a b : Nat) (v : Byte), Memory.wfFrom size lo m = true →
      (m.write a v).read b = if b = a then v else m.read b := by
  induction m with
  | nil =>
    intro lo a b v _
    by_cases hv : v = 0
    · subst hv; simp [Memory.write]
    · simp only [Memory.write, if_neg hv, Memory.read_cons, eq_comm (a := a)]
  | cons c m ih =>
    intro lo a b v h
    obtain ⟨k, w⟩ := c
    rw [Memory.wfFrom_cons] at h
    have low : ∀ {x}, x < k + 1 → Memory.read m x = 0 := fun hx =>
      Memory.read_eq_zero_of_lt h.2.2.2 hx
    simp only [Memory.write]
    by_cases h1 : a < k
    · rw [if_pos h1]
      by_cases hv : v = 0
      · rw [if_pos hv, Memory.read_cons]
        by_cases hb : b = a
        · subst hb; rw [if_pos rfl, if_neg (by omega), low (by omega), hv]
        · rw [if_neg hb]
      · rw [if_neg hv]
        simp only [Memory.read_cons, eq_comm]
    · rw [if_neg h1]
      by_cases h2 : a = k
      · subst h2
        rw [if_pos rfl]
        by_cases hv : v = 0
        · rw [if_pos hv, Memory.read_cons]
          by_cases hb : b = a
          · subst hb; rw [if_pos rfl, low (by omega), hv]
          · rw [if_neg hb, if_neg (Ne.symm hb)]
        · rw [if_neg hv]
          by_cases hb : b = a
          · subst hb; simp [Memory.read_cons]
          · simp [Memory.read_cons, hb, Ne.symm hb]
      · rw [if_neg h2, Memory.read_cons, ih a b v h.2.2.2, Memory.read_cons]
        by_cases hb : b = a
        · subst hb; rw [if_pos rfl, if_neg (Ne.symm h2), if_pos rfl]
        · rw [if_neg hb, if_neg hb]

/-- A read after a write gives the value written, and a write leaves every other element alone. -/
theorem Memory.read_write {size : Nat} {m : Memory} (h : Memory.wf size m = true) (a b : Nat)
    (v : Byte) : (m.write a v).read b = if b = a then v else m.read b :=
  Memory.read_write_from a b v h

theorem Memory.wfFrom_write {size : Nat} {m : Memory} :
    ∀ {lo a : Nat} {v : Byte}, Memory.wfFrom size lo m = true → lo ≤ a → a < size →
      Memory.wfFrom size lo (m.write a v) = true := by
  induction m with
  | nil =>
    intro lo a v _ hlo ha
    by_cases hv : v = 0
    · rw [Memory.write, if_pos hv]; rfl
    · rw [Memory.write, if_neg hv, Memory.wfFrom_cons]; exact ⟨hlo, ha, hv, rfl⟩
  | cons c m ih =>
    intro lo a v h hlo ha
    obtain ⟨k, w⟩ := c
    have h' := Memory.wfFrom_cons.mp h
    simp only [Memory.write]
    by_cases h1 : a < k
    · rw [if_pos h1]
      by_cases hv : v = 0
      · rwa [if_pos hv]
      · rw [if_neg hv, Memory.wfFrom_cons, Memory.wfFrom_cons]
        exact ⟨hlo, ha, hv, by omega, h'.2.1, h'.2.2.1, h'.2.2.2⟩
    · rw [if_neg h1]
      by_cases h2 : a = k
      · subst h2
        rw [if_pos rfl]
        by_cases hv : v = 0
        · rw [if_pos hv]; exact Memory.wfFrom_mono (by omega) le_rfl h'.2.2.2
        · rw [if_neg hv, Memory.wfFrom_cons]
          exact ⟨hlo, ha, hv, h'.2.2.2⟩
      · rw [if_neg h2, Memory.wfFrom_cons]
        exact ⟨h'.1, h'.2.1, h'.2.2.1, ih h'.2.2.2 (by omega) ha⟩

/-- A write within the store keeps the canonical form. -/
theorem Memory.wf_write {size a : Nat} {m : Memory} {v : Byte} (h : Memory.wf size m = true)
    (ha : a < size) : (m.write a v).wf size = true :=
  Memory.wfFrom_write h (Nat.zero_le a) ha

/-- Consecutive writes within the store keep the canonical form. -/
theorem Memory.wf_writeList {size : Nat} {vs : List Byte} :
    ∀ {m : Memory} {a : Nat}, Memory.wf size m = true → a + vs.length ≤ size →
      (m.writeList a vs).wf size = true := by
  induction vs with
  | nil => intro m a h _; exact h
  | cons v vs ih =>
    intro m a h ha
    simp only [List.length_cons] at ha
    exact ih (Memory.wf_write h (by omega)) (by omega)

/-- Reads after consecutive writes: the values written, and every other element as before. -/
theorem Memory.read_writeList {size : Nat} {vs : List Byte} :
    ∀ {m : Memory} {a : Nat} (b : Nat), Memory.wf size m = true → a + vs.length ≤ size →
      (m.writeList a vs).read b =
        if a ≤ b ∧ b < a + vs.length then vs.getD (b - a) 0 else m.read b := by
  induction vs with
  | nil => intro m a b _ _; rw [if_neg (by simp)]; rfl
  | cons v vs ih =>
    intro m a b h ha
    simp only [List.length_cons] at ha ⊢
    simp only [Memory.writeList]
    rw [ih b (Memory.wf_write h (by omega)) (by omega), Memory.read_write h]
    by_cases h1 : b = a
    · subst h1; simp
    · by_cases h2 : a + 1 ≤ b ∧ b < a + 1 + vs.length
      · rw [if_pos h2, if_pos (by omega)]
        have : b - a = (b - (a + 1)) + 1 := by omega
        rw [this, List.getD_cons_succ]
      · rw [if_neg h2, if_neg h1, if_neg (by omega)]

/-- A store made from a list is in canonical form. -/
theorem Memory.wf_ofList {size : Nat} {vs : List Byte} (h : vs.length ≤ size) :
    (Memory.ofList vs).wf size = true :=
  Memory.wf_writeList (Memory.wf_nil size) (by omega)

/-- A store made from a list reads the list, and 0 beyond it. -/
theorem Memory.read_ofList (vs : List Byte) (b : Nat) : (Memory.ofList vs).read b = vs.getD b 0 := by
  rw [Memory.ofList, Memory.read_writeList (size := vs.length) b (Memory.wf_nil _) (by omega)]
  by_cases h : b < vs.length
  · simp [h]
  · simp [h]

@[simp] theorem Memory.length_readList (m : Memory) (a n : Nat) : (m.readList a n).length = n := by
  simp [Memory.readList]

theorem Memory.getD_readList (m : Memory) (a n k : Nat) (h : k < n) :
    (m.readList a n).getD k 0 = m.read (a + k) := by
  simp [Memory.readList, List.getD_eq_getElem?_getD, h]

/-- Two stores in canonical form that read alike from `lo` on are equal. -/
theorem Memory.ext_from {size size' : Nat} :
    ∀ {m m' : Memory} {lo lo' : Nat}, Memory.wfFrom size lo m = true →
      Memory.wfFrom size' lo' m' = true → (∀ a, m.read a = m'.read a) → m = m' := by
  intro m
  induction m with
  | nil =>
    intro m' lo lo' _ h' e
    cases m' with
    | nil => rfl
    | cons c m' =>
      obtain ⟨k, b⟩ := c
      exact absurd (by simpa [Memory.read_cons] using (e k).symm) (Memory.wfFrom_cons.mp h').2.2.1
  | cons c m ih =>
    intro m' lo lo' h h' e
    obtain ⟨k, b⟩ := c
    have hk := Memory.wfFrom_cons.mp h
    cases m' with
    | nil => exact absurd (by simpa [Memory.read_cons] using e k) hk.2.2.1
    | cons c' m' =>
      obtain ⟨k', b'⟩ := c'
      have hk' := Memory.wfFrom_cons.mp h'
      have low : ∀ {x}, x < k + 1 → Memory.read m x = 0 := fun hx =>
        Memory.read_eq_zero_of_lt hk.2.2.2 hx
      have low' : ∀ {x}, x < k' + 1 → Memory.read m' x = 0 := fun hx =>
        Memory.read_eq_zero_of_lt hk'.2.2.2 hx
      have ek := e k
      have ek' := e k'
      simp only [Memory.read_cons, if_true] at ek ek'
      have kk : k = k' := by
        rcases Nat.lt_trichotomy k k' with hlt | heq | hgt
        · rw [if_neg (by omega), low' (by omega)] at ek
          exact absurd ek hk.2.2.1
        · exact heq
        · rw [if_neg (by omega), low (by omega)] at ek'
          exact absurd ek'.symm hk'.2.2.1
      subst kk
      have bb : b = b' := by simpa using ek
      subst bb
      congr 1
      refine ih hk.2.2.2 hk'.2.2.2 fun a => ?_
      by_cases ha : a = k
      · subst ha; rw [low (by omega), low' (by omega)]
      · simpa [Memory.read_cons, Ne.symm ha] using e a

/-- Equal reads make equal stores: the canonical form is one list per contents. -/
theorem Memory.ext {size : Nat} {m m' : Memory} (h : Memory.wf size m = true)
    (h' : Memory.wf size m' = true) (e : ∀ a, m.read a = m'.read a) : m = m' :=
  Memory.ext_from h h' e

end Sys2Proof.Machine
end

