-- ==== Sys2Proof/Laws/Penalty.lean ====
section
/-! SUPPORT. What a line scan computes (spec/45_penalty.md R202, R203): the N1 points of the line's runs and the
finder-like patterns of the line between its light borders. -/

namespace Sys2Proof.Machine

/-- A run that ends at a module of the other colour is one run. -/
theorem runLengths_replicate_append {b c : Bool} (h : b ≠ c) (n : Nat) (line : List Bool) :
    runLengths (List.replicate (n + 1) b ++ c :: line) = (n + 1) :: runLengths (c :: line) := by
  induction n with
  | zero =>
    simp only [List.replicate, List.cons_append, List.nil_append, runLengths]
    cases hr : runLengths (c :: line) with
    | nil => cases line <;> simp [runLengths] at hr; split at hr <;> [skip; split at hr] <;> simp at hr
    | cons m ms => simp [h]
  | succ n ih =>
    rw [List.replicate_succ, List.cons_append]
    simp only [List.replicate_succ, List.cons_append] at ih ⊢
    simp [runLengths, ih]

theorem runLengths_replicate (b : Bool) (n : Nat) : runLengths (List.replicate (n + 1) b) = [n + 1] := by
  induction n with
  | zero => rfl
  | succ n ih =>
    simp only [List.replicate_succ] at ih ⊢
    simp [runLengths, ih]

theorem runLengths_ne_nil (b : Bool) (line : List Bool) : runLengths (b :: line) ≠ [] := by
  cases line with
  | nil => simp [runLengths]
  | cons c line =>
    simp only [runLengths]
    split
    · simp
    · split <;> simp

/-- The points of a run of length `n` (R202). -/
def runPointsOf (n : Nat) : Nat := if 5 ≤ n then 3 + (n - 5) else 0

theorem scan_n1 (size : Nat) (line : List Bool) (c : Scan) :
    (line.foldl (scanModule size) c).n1 + runPointsOf c.len =
      c.n1 + ((runLengths (List.replicate c.len c.color ++ line)).map runPointsOf).sum := by
  induction line generalizing c with
  | nil =>
    rcases hc : c.len with _ | n
    · simp [runLengths, runPointsOf]
    · simp [runLengths_replicate]
  | cons m line ih =>
    rw [List.foldl_cons]
    have h := ih (scanModule size c m)
    by_cases hm : m = c.color
    · subst hm
      simp only [scanModule, if_true] at h ⊢
      rw [List.replicate_succ', List.append_assoc] at h
      have hp : runPointsOf (c.len + 1) + c.n1 =
          runPointsOf c.len +
            (if c.len + 1 = 5 then c.n1 + 3 else if c.len + 1 > 5 then c.n1 + 1 else c.n1) := by
        unfold runPointsOf; split_ifs <;> omega
      simp only [List.cons_append, List.nil_append] at h
      omega
    · simp only [scanModule, if_neg hm] at h ⊢
      have hr : ((runLengths (List.replicate c.len c.color ++ m :: line)).map runPointsOf).sum =
          runPointsOf c.len + ((runLengths (m :: line)).map runPointsOf).sum := by
        rcases hc : c.len with _ | n
        · simp [runPointsOf]
        · rw [runLengths_replicate_append (Ne.symm hm)]; simp
      have h1 : runPointsOf 1 = 0 := rfl
      rw [hr]
      simp only [List.replicate, List.cons_append, List.nil_append, h1] at h
      omega

/-- The N1 points of a line scan are those of the line's runs (R202). -/
theorem scanLine_fst (size : Nat) (line : List Bool) : (scanLine size line).1 = lineRunPoints line := by
  have h := scan_n1 size line .start
  have h0 : runPointsOf 0 = 0 := rfl
  simp only [Scan.start, List.replicate, List.nil_append, h0, Nat.add_zero, Nat.zero_add] at h
  exact h

/-- The length with which the current light run enters the history: the first one has the border. -/
def lightRun (size : Nat) (c : Scan) : Nat := c.len + if c.hist.h0 = 0 then size else 0

/-- The patterns still to be counted by the scan in state `c` before `line`. -/
def patternsFrom (size : Nat) (c : Scan) (line : List Bool) : Nat :=
  let h := c.hist
  let border := List.replicate size false
  if c.color then
    finderWindows ([h.h4, h.h3, h.h2, h.h1, h.h0] ++ runLengths (List.replicate c.len true ++ line ++ border))
  else
    finderWindows ([h.h5, h.h4, h.h3, h.h2, h.h1, h.h0] ++
      runLengths (List.replicate (lightRun size c) false ++ line ++ border))

theorem addHistory_eq (size len : Nat) (h : History) : addHistory size len h =
    ⟨len + if h.h0 = 0 then size else 0, h.h0, h.h1, h.h2, h.h3, h.h4, h.h5⟩ := by
  unfold addHistory; split <;> simp

theorem toNat_decide (p : Prop) [Decidable p] : (decide p).toNat = if p then 1 else 0 := by
  split <;> simp_all

/-- The window that ends at the run just pushed. -/
theorem finderWindows_seven (a b c d e f g : Nat) :
    finderWindows [a, b, c, d, e, f, g] = countPatterns ⟨g, f, e, d, c, b, a⟩ := by
  have hc : (0 < b ∧ c = b ∧ d = 3 * b ∧ e = b ∧ f = b) ↔ (f > 0 ∧ e = f ∧ d = 3 * f ∧ c = f ∧ b = f) := by
    constructor <;> rintro ⟨h, rfl, rfl, rfl, rfl⟩ <;> exact ⟨h, rfl, rfl, rfl, rfl⟩
  simp only [finderWindows, countPatterns, Nat.add_zero]
  by_cases h : 0 < b ∧ c = b ∧ d = 3 * b ∧ e = b ∧ f = b
  · have hfb : f = b := h.2.2.2.2
    rw [if_pos h, decide_eq_true (hc.1 h), Bool.true_and, Bool.true_and, toNat_decide, toNat_decide, hfb,
      Nat.add_comm]
  · rw [if_neg h, decide_eq_false (mt hc.2 h)]
    rfl

theorem finderWindows_eight (a b c d e f g r : Nat) (rs : List Nat) :
    finderWindows (a :: b :: c :: d :: e :: f :: g :: r :: rs) =
      countPatterns ⟨g, f, e, d, c, b, a⟩ + finderWindows (c :: d :: e :: f :: g :: r :: rs) := by
  rw [← finderWindows_seven]
  simp [finderWindows]

theorem scan_patterns (size : Nat) (hs : 0 < size) (line : List Bool) (c : Scan)
    (hc : if c.color then 0 < c.len ∧ c.hist.h0 ≠ 0 else c.hist.h0 = 0 ∨ 0 < c.len) :
    (line.foldl (scanModule size) c).cnt + terminateAndCount size (line.foldl (scanModule size) c) =
      c.cnt + patternsFrom size c line := by
  obtain ⟨k, rfl⟩ : ∃ k, size = k + 1 := ⟨size - 1, by omega⟩
  induction line generalizing c with
  | nil =>
    obtain ⟨color, len, h, n1, cnt⟩ := c
    cases color with
    | true =>
      obtain ⟨hl, h0⟩ := hc
      obtain ⟨n, rfl⟩ : ∃ n, len = n + 1 := ⟨len - 1, by simp at hl; omega⟩
      simp only [List.foldl_nil, terminateAndCount, patternsFrom, if_true, List.append_nil]
      rw [List.replicate_succ (n := k), runLengths_replicate_append (by simp), ← List.replicate_succ,
        runLengths_replicate]
      simp only [addHistory_eq, if_neg h0, Nat.add_zero, Nat.succ_ne_zero, if_false, Nat.zero_add,
        List.cons_append, List.nil_append, finderWindows_seven]
    | false =>
      simp only [List.foldl_nil, terminateAndCount, patternsFrom, Bool.false_eq_true, if_false,
        List.append_nil, lightRun, List.replicate_append_replicate, addHistory_eq]
      rw [show ∀ z, len + z + (k + 1) = (len + z + k) + 1 from fun _ => rfl, runLengths_replicate]
      simp only [List.cons_append, List.nil_append, finderWindows_seven]
      congr 3
      omega
  | cons m line ih =>
    rw [List.foldl_cons]
    obtain ⟨color, len, h, n1, cnt⟩ := c
    cases color with
    | true =>
      obtain ⟨hl, h0⟩ := hc
      obtain ⟨n, rfl⟩ : ∃ n, len = n + 1 := ⟨len - 1, by simp at hl; omega⟩
      cases m with
      | true =>
        rw [ih]
        · simp only [scanModule, if_true, patternsFrom]
          rw [List.replicate_succ' (n := n + 1)]
          simp
        · simpa [scanModule] using h0
      | false =>
        rw [ih]
        · simp only [scanModule, Bool.false_eq_true, if_false, if_true, patternsFrom, lightRun, addHistory_eq,
            if_neg h0, Nat.add_zero, Nat.succ_ne_zero]
          rw [List.append_assoc (List.replicate (n + 1) true), List.cons_append (as := line),
            runLengths_replicate_append (by simp : true ≠ false)]
          simp
        · simp [scanModule]
    | false =>
      cases m with
      | false =>
        rw [ih]
        · simp only [scanModule, if_true, Bool.false_eq_true, if_false, patternsFrom, lightRun]
          rw [Nat.add_right_comm, List.replicate_succ']
          simp
        · simp [scanModule]
      | true =>
        have hL : 0 < len + if h.h0 = 0 then k + 1 else 0 := by
          rcases hc with h0 | h0
          · simp at h0; simp [h0]
          · simp at h0; omega
        rw [ih]
        · simp only [scanModule, Bool.true_eq_false, if_true, Bool.false_eq_true, if_false, patternsFrom,
            lightRun, addHistory_eq]
          generalize (len + if h.h0 = 0 then k + 1 else 0) = L at hL
          obtain ⟨n, rfl⟩ : ∃ n, L = n + 1 := ⟨L - 1, by omega⟩
          rw [List.append_assoc (List.replicate (n + 1) false), List.cons_append (as := line),
            runLengths_replicate_append (by simp : false ≠ true)]
          simp only [List.replicate, List.cons_append, List.nil_append]
          rcases hr : runLengths (true :: (line ++ false :: List.replicate k false)) with _ | ⟨r, rs⟩
          · exact absurd hr (runLengths_ne_nil _ _)
          · rw [finderWindows_eight, Nat.add_assoc]
        · simp only [scanModule, Bool.true_eq_false, if_false, if_true, addHistory_eq]
          exact ⟨Nat.one_pos, by omega⟩

/-- A window whose first dark run is empty counts nothing. -/
theorem finderWindows_zero (a : Nat) (runs : List Nat) :
    finderWindows (a :: 0 :: runs) = finderWindows runs := by
  match runs with
  | [] | [_] | [_, _] | [_, _, _] | [_, _, _, _] => simp [finderWindows]
  | _ :: _ :: _ :: _ :: _ :: _ => simp [finderWindows]

/-- The pattern count of a line scan is that of the line between its borders (R203). -/
theorem scanLine_snd (size : Nat) (hs : 0 < size) (line : List Bool) :
    (scanLine size line).2 = lineFinders size line := by
  have h := scan_patterns size hs line .start (by simp [Scan.start, History.empty])
  simp only [scanLine, h]
  simp only [Scan.start, History.empty, patternsFrom, lightRun, lineFinders, Nat.zero_add, Bool.false_eq_true,
    if_false, if_true, List.cons_append, List.nil_append, finderWindows_zero]

end Sys2Proof.Machine
end

