-- ==== Sys2Proof/Laws/PerInstr.lean ====
section
/-! SUPPORT. Facts about every instruction as a term, one lemma a constructor. -/

namespace Sys2Proof.Laws

/-- The family `Encoding`: a well-formed command's OPC and immediate fields fit one 32-bit word, and the
word's OPC field is the command's OPC (spec/30_encoding.md R80, R82). -/
def Encoding.Statement (i : Instr) : Prop :=
  i.WellFormed → i.opc + i.immediate < 2 ^ 32 ∧ bits (encode i) 7 0 = i.opc

theorem opc_lt (i : Instr) : i.opc < 256 := by
  cases i <;> simp [Instr.opc]

theorem Encoding.of_bound {i : Instr} (h : i.immediate < 2 ^ 24 ∧ i.immediate % 256 = 0) :
    i.opc + i.immediate < 2 ^ 32 ∧ bits (encode i) 7 0 = i.opc := by
  have ho := opc_lt i
  have hlt : i.immediate + 256 ≤ 2 ^ 32 := by omega
  refine ⟨by omega, ?_⟩
  simp only [bits, encode, word, BitVec.toNat_ofNat]
  omega

theorem Encoding.nop : Encoding.Statement .nop := fun _ => Encoding.of_bound (by decide)

theorem Encoding.memwr (space : Nat) : Encoding.Statement (.memwr space) := by
  intro h
  simp only [Instr.WellFormed, Instr.wf, decide_eq_true_eq] at h
  exact Encoding.of_bound (by simp only [Instr.immediate]; omega)

theorem Encoding.memrd (space : Nat) : Encoding.Statement (.memrd space) := by
  intro h
  simp only [Instr.WellFormed, Instr.wf, decide_eq_true_eq] at h
  exact Encoding.of_bound (by simp only [Instr.immediate]; omega)

theorem Encoding.bbClr : Encoding.Statement .bbClr := fun _ => Encoding.of_bound (by decide)

theorem Encoding.bbApb (width : Nat) : Encoding.Statement (.bbApb width) := by
  intro h
  simp only [Instr.WellFormed, Instr.wf, decide_eq_true_eq] at h
  exact Encoding.of_bound (by simp only [Instr.immediate]; omega)

theorem Encoding.bbApby (n : Nat) : Encoding.Statement (.bbApby n) := by
  intro h
  simp only [Instr.WellFormed, Instr.wf, decide_eq_true_eq] at h
  exact Encoding.of_bound (by simp only [Instr.immediate]; omega)

theorem Encoding.bbApnum (n : Nat) : Encoding.Statement (.bbApnum n) := by
  intro h
  simp only [Instr.WellFormed, Instr.wf, decide_eq_true_eq] at h
  exact Encoding.of_bound (by simp only [Instr.immediate]; omega)

theorem Encoding.bbApaln (n : Nat) : Encoding.Statement (.bbApaln n) := by
  intro h
  simp only [Instr.WellFormed, Instr.wf, decide_eq_true_eq] at h
  exact Encoding.of_bound (by simp only [Instr.immediate]; omega)

theorem Encoding.bbApeci : Encoding.Statement .bbApeci := fun _ => Encoding.of_bound (by decide)

theorem Encoding.bbGet : Encoding.Statement .bbGet := fun _ => Encoding.of_bound (by decide)

theorem Encoding.gfMul (x : Nat) (y : Nat) : Encoding.Statement (.gfMul x y) := by
  intro h
  simp only [Instr.WellFormed, Instr.wf, Bool.and_eq_true, decide_eq_true_eq] at h
  exact Encoding.of_bound (by simp only [Instr.immediate]; omega)

theorem Encoding.rsDiv (degree : Nat) : Encoding.Statement (.rsDiv degree) := by
  intro h
  simp only [Instr.WellFormed, Instr.wf, decide_eq_true_eq] at h
  exact Encoding.of_bound (by simp only [Instr.immediate]; omega)

theorem Encoding.rsRem : Encoding.Statement .rsRem := fun _ => Encoding.of_bound (by decide)

theorem Encoding.rsRd (sel : RsFile) (index : Nat) : Encoding.Statement (.rsRd sel index) := by
  intro h
  have hs : sel.sel ≤ 1 := by cases sel <;> decide
  simp only [Instr.WellFormed, Instr.wf, decide_eq_true_eq] at h
  exact Encoding.of_bound (by simp only [Instr.immediate]; omega)

theorem Encoding.segDef (index : Nat) (mode : Nat) : Encoding.Statement (.segDef index mode) := by
  intro h
  simp only [Instr.WellFormed, Instr.wf, Bool.and_eq_true, decide_eq_true_eq] at h
  exact Encoding.of_bound (by simp only [Instr.immediate]; omega)

theorem Encoding.vsel (minver : Nat) (maxver : Nat) (boost : Bool) : Encoding.Statement (.vsel minver maxver boost) := by
  intro h
  have hb : boost.toNat ≤ 1 := by cases boost <;> decide
  simp only [Instr.WellFormed, Instr.wf, Bool.and_eq_true, decide_eq_true_eq] at h
  exact Encoding.of_bound (by simp only [Instr.immediate]; omega)

theorem Encoding.capq : Encoding.Statement .capq := fun _ => Encoding.of_bound (by decide)

theorem Encoding.segHdr (mode : Nat) : Encoding.Statement (.segHdr mode) := by
  intro h
  simp only [Instr.WellFormed, Instr.wf, decide_eq_true_eq] at h
  exact Encoding.of_bound (by simp only [Instr.immediate]; omega)

theorem Encoding.termpad : Encoding.Statement .termpad := fun _ => Encoding.of_bound (by decide)

theorem Encoding.pack : Encoding.Statement .pack := fun _ => Encoding.of_bound (by decide)

theorem Encoding.intlv : Encoding.Statement .intlv := fun _ => Encoding.of_bound (by decide)

theorem Encoding.mxInit : Encoding.Statement .mxInit := fun _ => Encoding.of_bound (by decide)

theorem Encoding.mxPlace : Encoding.Statement .mxPlace := fun _ => Encoding.of_bound (by decide)

theorem Encoding.mxMask (mask : Nat) : Encoding.Statement (.mxMask mask) := by
  intro h
  simp only [Instr.WellFormed, Instr.wf, decide_eq_true_eq] at h
  exact Encoding.of_bound (by simp only [Instr.immediate]; omega)

theorem Encoding.mxFmt (mask : Nat) : Encoding.Statement (.mxFmt mask) := by
  intro h
  simp only [Instr.WellFormed, Instr.wf, decide_eq_true_eq] at h
  exact Encoding.of_bound (by simp only [Instr.immediate]; omega)

theorem Encoding.mxRead (x : Nat) (y : Nat) : Encoding.Statement (.mxRead x y) := by
  intro h
  simp only [Instr.WellFormed, Instr.wf, Bool.and_eq_true, decide_eq_true_eq] at h
  exact Encoding.of_bound (by simp only [Instr.immediate]; omega)

theorem Encoding.mxWr (x : Nat) (y : Nat) : Encoding.Statement (.mxWr x y) := by
  intro h
  simp only [Instr.WellFormed, Instr.wf, Bool.and_eq_true, decide_eq_true_eq] at h
  exact Encoding.of_bound (by simp only [Instr.immediate]; omega)

theorem Encoding.mxPen : Encoding.Statement .mxPen := fun _ => Encoding.of_bound (by decide)

theorem Encoding.msel : Encoding.Statement .msel := fun _ => Encoding.of_bound (by decide)

end Sys2Proof.Laws
end

