-- ==== Sys2Proof/Laws/Plane.lean ====
section
/-! SUPPORT. The module planes and the bounded loop: one lemma each for what they can do. -/

namespace Sys2Proof.Machine

@[simp] theorem loop_zero {α : Type} (body : Nat → α → α) (a : α) : loop 0 body a = a := rfl

theorem loop_succ {α : Type} (n : Nat) (body : Nat → α → α) (a : α) :
    loop (n + 1) body a = body n (loop n body a) := rfl

/-- What holds before a loop and is kept by its body holds after it. -/
theorem loop_induction {α : Type} {P : α → Prop} {n : Nat} {body : Nat → α → α} {a : α} (h0 : P a)
    (hs : ∀ i b, i < n → P b → P (body i b)) : P (loop n body a) := by
  induction n with
  | zero => exact h0
  | succ n ih =>
    exact hs n _ (Nat.lt_succ_self n) (ih fun i b hi hb => hs i b (Nat.lt_succ_of_lt hi) hb)

/-- `P i` holds of the accumulator before iteration `i`. -/
theorem loop_invariant {α : Type} {P : Nat → α → Prop} {n : Nat} {body : Nat → α → α} {a : α}
    (h0 : P 0 a) (hs : ∀ i b, i < n → P i b → P (i + 1) (body i b)) : P n (loop n body a) := by
  induction n with
  | zero => exact h0
  | succ n ih =>
    exact hs n _ (Nat.lt_succ_self n) (ih fun i b hi hb => hs i b (Nat.lt_succ_of_lt hi) hb)

theorem Plane.get_eq (p : Plane) (x y : Nat) :
    p.get x y = if h : y < Config.maxSize then p.rows[y].getLsbD x else false := by
  unfold Plane.get
  by_cases h : y < Config.maxSize
  · simp [h]
  · simp [h]

theorem getLsbD_setBit {n : Nat} (row : BitVec n) (x x' : Nat) (d : Bool) :
    (if d then row ||| BitVec.twoPow n x else row &&& ~~~BitVec.twoPow n x).getLsbD x' =
      if x' = x ∧ x < n then d else row.getLsbD x' := by
  by_cases hn : x' < n
  · by_cases hx : x' = x
    · subst hx
      cases d <;> simp [hn]
    · cases d <;> simp [hn, hx]
  · rw [BitVec.getLsbD_of_ge _ _ (Nat.le_of_not_lt hn), BitVec.getLsbD_of_ge _ _ (Nat.le_of_not_lt hn),
      if_neg (by omega)]

/-- The module written reads the value written if it lies in the planes, and every other module reads
as before. -/
theorem Plane.get_set (p : Plane) (x y : Nat) (d : Bool) (x' y' : Nat) :
    (p.set x y d).get x' y' =
      if x' = x ∧ y' = y ∧ x < Config.maxSize ∧ y < Config.maxSize then d else p.get x' y' := by
  by_cases hy : y < Config.maxSize
  · have hs : (p.set x y d).rows = p.rows.setIfInBounds y
        (if d then p.rows[y] ||| BitVec.twoPow Config.maxSize x
          else p.rows[y] &&& ~~~BitVec.twoPow Config.maxSize x) := by
      unfold Plane.set
      simp only [Vector.getElem?_eq_getElem hy]
    generalize hrow : (if d then p.rows[y] ||| BitVec.twoPow Config.maxSize x
          else p.rows[y] &&& ~~~BitVec.twoPow Config.maxSize x) = row at hs
    have hbit : ∀ k, row.getLsbD k = if k = x ∧ x < Config.maxSize then d else p.rows[y].getLsbD k :=
      fun k => by rw [← hrow]; exact getLsbD_setBit _ _ _ _
    rw [Plane.get_eq, Plane.get_eq]
    by_cases hy' : y' < Config.maxSize
    · rw [dif_pos hy', dif_pos hy']
      have hv : (p.set x y d).rows[y'] = if y = y' then row else p.rows[y'] := by
        simp only [hs, Vector.getElem_setIfInBounds]
      rw [hv]
      by_cases e : y = y'
      · subst e
        simp only [if_true, hbit, hy, true_and, and_true]
      · rw [if_neg e, if_neg (fun h => e h.2.1.symm)]
    · rw [dif_neg hy', dif_neg hy', if_neg (by rintro ⟨-, rfl, -, h⟩; exact hy' h)]
  · have hs : p.set x y d = p := by
      unfold Plane.set
      simp only [Vector.getElem?_eq_none (Nat.le_of_not_lt hy)]
    rw [hs, if_neg (fun h => hy h.2.2.2)]

@[simp] theorem Plane.get_zero (x y : Nat) : Plane.zero.get x y = false := by
  rw [Plane.get_eq]
  by_cases h : y < Config.maxSize <;> simp [Plane.zero, h]

theorem Plane.get_of_ge {p : Plane} {x y : Nat} (h : Config.maxSize ≤ x ∨ Config.maxSize ≤ y) :
    p.get x y = false := by
  rw [Plane.get_eq]
  by_cases hy : y < Config.maxSize
  · rw [dif_pos hy, BitVec.getLsbD_of_ge _ _ (by omega)]
  · rw [dif_neg hy]

/-- Two planes with the same modules are equal. -/
theorem Plane.ext_get {p q : Plane} (h : ∀ x y, p.get x y = q.get x y) : p = q := by
  obtain ⟨rp⟩ := p
  obtain ⟨rq⟩ := q
  congr 1
  refine Vector.ext fun y hy => BitVec.eq_of_getLsbD_eq fun x hx => ?_
  have := h x y
  simpa [Plane.get_eq, hy] using this

/-- `Plane.within` says that every module outside the first `size` rows and columns is 0. -/
theorem Plane.within_iff {size : Nat} {p : Plane} :
    p.within size = true ↔ ∀ x y, size ≤ x ∨ size ≤ y → p.get x y = false := by
  have key : ∀ (y : Nat) (hy : y < Config.maxSize),
      (p.rows[y].toNat < if y < size then 2 ^ size else 1) ↔
        ∀ x, size ≤ x ∨ size ≤ y → p.get x y = false := by
    intro y hy
    by_cases hs : y < size
    · rw [if_pos hs]
      constructor
      · intro hlt x hx
        have hx : size ≤ x := by omega
        rw [Plane.get_eq, dif_pos hy, BitVec.getLsbD]
        exact Nat.testBit_lt_two_pow (lt_of_lt_of_le hlt (Nat.pow_le_pow_right (by omega) hx))
      · intro hx
        refine Nat.lt_pow_two_of_testBit _ fun x hge => ?_
        have := hx x (Or.inl hge)
        rwa [Plane.get_eq, dif_pos hy, BitVec.getLsbD] at this
    · rw [if_neg hs]
      constructor
      · intro hlt x _
        have h0 : p.rows[y].toNat = 0 := by omega
        rw [Plane.get_eq, dif_pos hy, BitVec.getLsbD, h0, Nat.zero_testBit]
      · intro hx
        refine Nat.lt_pow_two_of_testBit (n := 0) _ fun x _ => ?_
        have := hx x (Or.inr (Nat.le_of_not_lt hs))
        rwa [Plane.get_eq, dif_pos hy, BitVec.getLsbD] at this
  unfold Plane.within
  rw [List.all_eq_true]
  constructor
  · intro h x y hxy
    by_cases hy : y < Config.maxSize
    · have := h y (List.mem_range.mpr hy)
      rw [Vector.getElem?_eq_getElem hy] at this
      exact (key y hy).mp (of_decide_eq_true this) x hxy
    · exact Plane.get_of_ge (Or.inr (Nat.le_of_not_lt hy))
  · intro h y hy
    have hy := List.mem_range.mp hy
    rw [Vector.getElem?_eq_getElem hy]
    exact decide_eq_true ((key y hy).mpr fun x hx => h x y hx)

@[simp] theorem Planes.setFunction_func (p : Planes) (x y : Nat) (d : Bool) :
    (p.setFunction x y d).func = p.func.set x y true := rfl

@[simp] theorem Planes.setFunction_dark (p : Planes) (x y : Nat) (d : Bool) :
    (p.setFunction x y d).dark = p.dark.set x y d := rfl

@[simp] theorem Planes.setDark_func (p : Planes) (x y : Nat) (d : Bool) :
    (p.setDark x y d).func = p.func := rfl

@[simp] theorem Planes.setDark_dark (p : Planes) (x y : Nat) (d : Bool) :
    (p.setDark x y d).dark = p.dark.set x y d := rfl

end Sys2Proof.Machine
end

