-- ==== Sys2Proof/Tests/Slice0.lean ====
section
/-! SUPPORT. Smoke tests of well-formedness, decode tests with words written out from the spec's formats
(spec/30_encoding.md R82, R85), tests of each command against spec/95_test_vectors.md and the examples of
the command rules, and a witness for each obligation that has hypotheses. -/

open Sys2Proof Sys2Proof.Machine

namespace Sys2Proof.Tests

section

-- One theorem at a time: each is a kernel evaluation, and side by side they need much memory.
set_option Elab.async false

/-! ### Helpers -/

/-- The outcome is a next state that `p` accepts. -/
def answers (o : Host.Outcome State Fault Refusal) (p : State → Bool) : Bool :=
  match o with
  | .next t => p t
  | .fault _ => false
  | .refused _ => false

/-- The command ends in a next state that `p` accepts. -/
def after (i : Instr) (s : State) (p : State → Bool) : Bool := answers (exec i s) p

/-- The two commands one after the other end in a next state that `p` accepts. -/
def after2 (i j : Instr) (s : State) (p : State → Bool) : Bool := after i s fun t => after j t p

/-- The command records the error. -/
def errs (i : Instr) (s : State) (c : ErrCode) : Bool := after i s fun t => t.err == some c

/-- The state after reset with the operand registers written. -/
def withArgs (a b : Word) : State := { State.reset with arg0 := a, arg1 := b }

/-- The state after reset with CFG's version, level, mask request and segment count written. -/
def withCfg (v : BitVec 6) (e : Ecl) (mask : BitVec 4) (nseg : BitVec 7) : State :=
  { State.reset with cfg := { version := v, ecl := e, maskReq := mask, nseg := nseg } }

/-- A version 1-M state in the matrix state `m`, with the function patterns drawn. -/
def built (m : MxState) : State :=
  { withCfg 1 .medium 15 0 with
    mxVer := 1, mxEcl := .medium, mxState := m, mxMaskV := m == .finalized
    planes := drawPatterns 1 .medium }

/-- DATA of HELLO WORLD at 1-M (spec/95_test_vectors.md P2). -/
def helloData : List Byte :=
  [32, 91, 11, 120, 209, 114, 220, 77, 67, 64, 236, 17, 236, 17, 236, 17]

/-- The ECC codewords of HELLO WORLD at 1-M (spec/95_test_vectors.md Q4). -/
def helloEcc : List Byte := [196, 35, 39, 119, 235, 215, 231, 226, 93, 23]

/-- `n` bits of 0. -/
def zeros (n : Nat) : List Bool := List.replicate n false

theorem zeros_length (n : Nat) : (zeros n).length = n := List.length_replicate

/-- The state after reset with `n` bits of 0 in the bit buffer. -/
def filled (n : Nat) : State := { State.reset with bb := zeros n }

theorem filled_length (n : Nat) : (filled n).bb.length = n := zeros_length n

/-- The divisor of degree 2 held, and ARG0, ARG1 written. -/
def held (a b : Word) : State :=
  { withArgs a b with deg := 2, div := Memory.ofList (divisor 2) }

theorem reset_inv : State.reset.Inv := by decide +kernel

theorem held_inv (a b : Word) : (held a b).Inv :=
  ⟨⟨Nat.zero_le _, rfl, rfl, rfl⟩, rfl, fun _ => rfl, reset_inv.2.2.2.1, reset_inv.2.2.2.2.1,
    fun h => absurd rfl h, reset_inv.2.2.2.2.2.2⟩

/-- The drawn planes of version 1-M are 0 outside the symbol and the format area is function modules. -/
theorem built_planes :
    validVer 1 ∧ (drawPatterns 1 .medium).func.within 21 = true ∧
      (drawPatterns 1 .medium).dark.within 21 = true ∧
      ∀ m ∈ formatModules 21, (drawPatterns 1 .medium).func.get m.1 m.2.1 = true := by decide +kernel

theorem built_inv (m : MxState) (h : m ≠ .unbuilt) : (built m).Inv :=
  ⟨reset_inv.1, reset_inv.2.1, reset_inv.2.2.1, reset_inv.2.2.2.1, fun e => absurd e h,
    fun _ => ⟨built_planes.1, rfl, built_planes.2⟩, by cases m <;> decide⟩

/-! ### Well-formedness: each field one past its width is refused -/

theorem test_wf_space : ¬ (Instr.memwr 4).WellFormed ∧ ¬ (Instr.memrd 4).WellFormed := by decide
theorem test_wf_width : ¬ (Instr.bbApb 32).WellFormed := by decide
theorem test_wf_n : ¬ (Instr.bbApby 8).WellFormed ∧ ¬ (Instr.bbApnum 8).WellFormed ∧
    ¬ (Instr.bbApaln 8).WellFormed := by decide
theorem test_wf_x : ¬ (Instr.gfMul 256 0).WellFormed ∧ ¬ (Instr.mxRead 256 0).WellFormed ∧
    ¬ (Instr.mxWr 256 0).WellFormed := by decide
theorem test_wf_y : ¬ (Instr.gfMul 0 256).WellFormed ∧ ¬ (Instr.mxRead 0 256).WellFormed ∧
    ¬ (Instr.mxWr 0 256).WellFormed := by decide
theorem test_wf_degree : ¬ (Instr.rsDiv 512).WellFormed := by decide
theorem test_wf_rs_index : ¬ (Instr.rsRd .div 256).WellFormed := by decide
theorem test_wf_seg_index : ¬ (Instr.segDef 128 0).WellFormed := by decide
theorem test_wf_seg_mode : ¬ (Instr.segDef 0 16).WellFormed := by decide
theorem test_wf_minver : ¬ (Instr.vsel 64 0 false).WellFormed := by decide
theorem test_wf_maxver : ¬ (Instr.vsel 0 64 false).WellFormed := by decide
theorem test_wf_hdr_mode : ¬ (Instr.segHdr 16).WellFormed := by decide
theorem test_wf_mask : ¬ (Instr.mxMask 8).WellFormed ∧ ¬ (Instr.mxFmt 8).WellFormed := by decide

/-! ### Decoding: words written field by field from R82 and R85 -/

theorem test_decode_control :
    decode 0b000000000000000000000000_00000000#32 = .ok .nop ∧
    decode 0b0000000000000000000000_01_00000001#32 = .ok (.memwr 1) ∧
    decode 0b0000000000000000000000_10_00000010#32 = .ok (.memrd 2) := by decide
theorem test_decode_bit_buffer :
    decode 0b000000000000000000000000_00010000#32 = .ok .bbClr ∧
    decode 0b0000000000000000000_01011_00010001#32 = .ok (.bbApb 11) ∧
    decode 0b000000000000000000000_100_00010010#32 = .ok (.bbApby 4) ∧
    decode 0b000000000000000000000_011_00010011#32 = .ok (.bbApnum 3) ∧
    decode 0b000000000000000000000_010_00010100#32 = .ok (.bbApaln 2) ∧
    decode 0b000000000000000000000000_00010101#32 = .ok .bbApeci ∧
    decode 0b000000000000000000000000_00010110#32 = .ok .bbGet := by decide
theorem test_decode_reed_solomon :
    decode 0b00000000_11001010_01010011_00100000#32 = .ok (.gfMul 0x53 0xCA) ∧
    decode 0b000000000000000_011111111_00100001#32 = .ok (.rsDiv 255) ∧
    decode 0b000000000000000000000000_00100010#32 = .ok .rsRem ∧
    decode 0b000000000000000_0_00000101_00100011#32 = .ok (.rsRd .rem 5) ∧
    decode 0b000000000000000_1_00000011_00100011#32 = .ok (.rsRd .div 3) := by decide
theorem test_decode_serializer :
    decode 0b000000000000_0010_0_0000101_00110000#32 = .ok (.segDef 5 2) ∧
    decode 0b00000000000_1_101000_000001_00110001#32 = .ok (.vsel 1 40 true) ∧
    decode 0b00000000000_0_001001_000010_00110001#32 = .ok (.vsel 2 9 false) ∧
    decode 0b000000000000000000000000_00110010#32 = .ok .capq ∧
    decode 0b00000000000000000000_0100_00110011#32 = .ok (.segHdr 4) ∧
    decode 0b000000000000000000000000_00110100#32 = .ok .termpad ∧
    decode 0b000000000000000000000000_00110101#32 = .ok .pack ∧
    decode 0b000000000000000000000000_00110110#32 = .ok .intlv := by decide
theorem test_decode_matrix :
    decode 0b000000000000000000000000_01000000#32 = .ok .mxInit ∧
    decode 0b000000000000000000000000_01000001#32 = .ok .mxPlace ∧
    decode 0b000000000000000000000_011_01000010#32 = .ok (.mxMask 3) ∧
    decode 0b000000000000000000000_101_01000011#32 = .ok (.mxFmt 5) ∧
    decode 0b00000000_00000101_00000100_01000100#32 = .ok (.mxRead 4 5) ∧
    decode 0b00000000_00001001_00001000_01000101#32 = .ok (.mxWr 8 9) ∧
    decode 0b000000000000000000000000_01010000#32 = .ok .mxPen ∧
    decode 0b000000000000000000000000_01010001#32 = .ok .msel := by decide

/-- spec/95_test_vectors.md V1, the rejected words. -/
theorem test_decode_rejects :
    decode 0x00000100#32 = .error (.reservedBits 0x00) ∧ decode 0x00000003#32 = .error (.unassigned 3) ∧
    decode 0xFFFFFF52#32 = .error (.unassigned 0x52) ∧ decode 0x00002011#32 = .error (.reservedBits 0x11) ∧
    decode 0x00000812#32 = .error (.reservedBits 0x12) ∧ decode 0x00008030#32 = .error (.reservedBits 0x30) ∧
    decode 0x01000021#32 = .error (.reservedBits 0x21) ∧ decode 0xFF000044#32 = .error (.reservedBits 0x44) ∧
    decode 0x00200031#32 = .error (.reservedBits 0x31) := by decide

theorem test_decodeTableWord :
    decodeTableWord 32 0x00000A21 = some (.rsDiv 10) ∧ decodeTableWord 32 0x00000100 = none := by decide

/-- The next step after placing a word runs it: `RS_DIV 4`. -/
theorem test_withFetchWord :
    answers (step (State.reset.withFetchWord 32 0x00000421)) (fun t => t.deg == 4 && t.cmdcnt == 1) = true := by
  decide +kernel

/-! ### Commands -/

/-- R100's example. -/
theorem test_nop : after .nop { State.reset with cmdcnt := 5 } (fun t => t.cmdcnt == 6 && t.done) = true := by
  decide

/-- V3: `MEMWR 0, 3, 0x78`, then `MEMRD 0, 3`; address 4096 raises IndexError before the byte check. -/
theorem test_memwr : after (.memwr 0) (withArgs 3 0x78) (fun t => t.data == [(3, 0x78)]) = true ∧
    errs (.memwr 0) (withArgs 4096 256) .indexError = true := by decide +kernel
theorem test_memwr_errors : errs (.memwr 3) (withArgs 9999 999) .invalidArgument = true ∧
    errs (.memwr 0) (withArgs 0 256) .rangeError = true := by decide +kernel
theorem test_memrd : after2 (.memwr 0) (.memrd 0) (withArgs 3 0x78) (fun t => t.result0 == 0x78) = true ∧
    after (.memrd 1) (withArgs 4095 0) (fun t => t.result0 == 0 && t.err == none) = true := by
  decide +kernel

theorem test_bb_clr : after .bbClr { State.reset with bb := zeros 61 } (fun t => t.bb == []) = true := by
  decide +kernel

/-- V4: `BB_APB 11, 461` is Q2's pair "AB"; `BB_APB 31, 0x80000000` raises RangeError. -/
theorem test_bb_apb : after (.bbApb 11) (withArgs 461 0) (fun t =>
    t.bb == [false, false, true, true, true, false, false, true, true, false, true]) = true ∧
    errs (.bbApb 31) (withArgs 0x80000000 0) .rangeError = true := by decide +kernel
theorem test_bb_apby : after (.bbApby 2) (withArgs 0x000001A5 0) (fun t =>
    t.bb == [true, false, true, false, false, true, false, true] ++ zeros 7 ++ [true]) = true ∧
    errs (.bbApby 1) (withArgs 0x161 0) .rangeError = true := by decide +kernel
theorem test_bb_apnum : after (.bbApnum 3) (withArgs 0x00333231 0) (fun t =>
    t.bb == [false, false, false, true, true, true, true, false, true, true]) = true ∧
    errs (.bbApnum 2) (withArgs 0x00004131 0) .formatError = true := by decide +kernel
theorem test_bb_apaln : after (.bbApaln 2) (withArgs 0x00004241 0) (fun t =>
    t.bb == [false, false, true, true, true, false, false, true, true, false, true]) = true ∧
    errs (.bbApaln 1) (withArgs 0x61 0) .formatError = true := by decide +kernel
theorem test_bb_apaln_corners : after (.bbApaln 2) (withArgs 0x00003A3A 0) (fun t =>
    ofMsbBits t.bb == 2024 && t.bb.length == 11) = true ∧
    after (.bbApaln 1) (withArgs 0x44 0) (fun t => ofMsbBits t.bb == 13 && t.bb.length == 6) = true := by
  decide +kernel

/-- R120's corner cases. -/
theorem test_bb_apeci : after .bbApeci (withArgs 128 0) (fun t =>
    ofMsbBits t.bb == 0x8080 && t.bb.length == 16) = true ∧
    after .bbApeci (withArgs 16384 0) (fun t => ofMsbBits t.bb == 0xC04000 && t.bb.length == 24) = true := by
  decide +kernel
theorem test_bb_apeci_range : after .bbApeci (withArgs 127 0) (fun t =>
    ofMsbBits t.bb == 0x7F && t.bb.length == 8) = true ∧
    errs .bbApeci (withArgs 1000000 0) .rangeError = true := by decide +kernel

/-- R122: after `BB_APNUM "123"`, `BB_GET 3` reads 1 and `BB_GET 10` raises IndexError. -/
theorem test_bb_get :
    after .bbGet { withArgs 3 0 with bb := bitsOf 10 123 } (fun t => t.result0 == 1) = true ∧
    errs .bbGet { withArgs 10 0 with bb := bitsOf 10 123 } .indexError = true := by decide +kernel

/-- R131's example and corner case. -/
theorem test_gf_mul : after (.gfMul 0x53 0xCA) State.reset (fun t => t.result0 == 0x8F) = true ∧
    after (.gfMul 0x80 2) State.reset (fun t => t.result0 == 0x1D) = true := by decide +kernel

/-- R133's example; degree 256 raises InvalidArgument. -/
theorem test_rs_div : after (.rsDiv 10) State.reset (fun t => t.deg == 10 &&
    t.div.readList 0 10 == [216, 194, 159, 111, 199, 94, 95, 113, 157, 193]) = true ∧
    errs (.rsDiv 256) State.reset .invalidArgument = true := by decide +kernel

/-- R135's example; with no divisor held it raises SequenceError. -/
theorem test_rs_rem : after2 (.rsDiv 10) .rsRem { withArgs 0 16 with data := Memory.ofList helloData }
    (fun t => t.rem.readList 0 10 == helloEcc) = true ∧
    errs .rsRem (withArgs 0 16) .sequenceError = true := by decide +kernel

/-- R136's example. -/
theorem test_rs_rd : after2 (.rsDiv 4) (.rsRd .div 3) State.reset (fun t => t.result0 == 64) = true ∧
    after2 (.rsDiv 4) (.rsRd .div 4) State.reset (fun t => t.err == some .indexError) = true := by
  decide +kernel

/-- R146's example; the index check precedes the mode check. -/
theorem test_seg_def : after (.segDef 0 2) (withArgs 11 61)
    (fun t => t.segtab[0] == ⟨2, 11, 61⟩ && t.segtab[1] == ⟨0, 0, 0⟩) = true ∧
    errs (.segDef 64 0) State.reset .indexError = true := by decide +kernel

/-- Q7: HELLO WORLD at Low, boosted to Quartile. R220's example: 23 bytes do not fit 1-H. -/
theorem test_vsel : after2 (.segDef 0 2) (.vsel 1 40 true) { withCfg 0 .low 0 1 with arg0 := 11, arg1 := 61 }
    (fun t => t.cfg.version == 1 && t.cfg.ecl == .quartile && t.result0 == 74 && t.result1 == 104) = true := by
  decide +kernel
theorem test_vsel_too_long :
    after2 (.segDef 0 4) (.vsel 1 1 false) { withCfg 0 .high 0 1 with arg0 := 23, arg1 := 184 }
      (fun t => t.err == some .dataTooLong && t.result0 == 196 && t.result1 == 72) = true := by
  decide +kernel

/-- Q1: CAPQ at 1-M and 5-Q. -/
theorem test_capq : after .capq (withCfg 1 .medium 0 0)
    (fun t => t.result0 == 16 && t.result1 == 0x0A01001A) = true ∧
    after .capq (withCfg 5 .quartile 0 0) (fun t => t.result0 == 62 && t.result1 == 0x12040086) = true := by
  decide +kernel

/-- R149's example, and Q3: a Byte count of 256 does not fit version 1. -/
theorem test_seg_hdr : after (.segHdr 2) { withCfg 1 .low 0 0 with arg0 := 11 }
    (fun t => t.bb == [false, false, true, false, false, false, false, false, false, true, false, true, true]) =
      true ∧
    errs (.segHdr 4) { withCfg 1 .low 0 0 with arg0 := 256 } .rangeError = true := by decide +kernel

/-- R150: an empty buffer at 1-L becomes a zero byte and 18 pad bytes; `cap - 2` bits get 2 zeros. -/
theorem test_termpad : after .termpad (withCfg 1 .low 0 0) (fun t =>
    packBits t.bb == 0 :: (List.replicate 9 [0xEC, 0x11]).flatten && t.result0 == 152) = true ∧
    after .termpad { withCfg 1 .medium 0 0 with bb := List.replicate 126 true }
      (fun t => t.bb == List.replicate 126 true ++ zeros 2) = true := by decide +kernel

/-- R64: the first bit is the most significant; 9 bits raise InvalidArgument. -/
theorem test_pack : after .pack { State.reset with bb := [true] ++ zeros 14 ++ [true] }
    (fun t => t.data == [(0, 0x80), (1, 0x01)] && t.result0 == 2) = true ∧
    errs .pack { State.reset with bb := zeros 9 } .invalidArgument = true := by decide +kernel

/-- R153's example. -/
theorem test_intlv :
    after .intlv { withCfg 1 .medium 0 0 with arg0 := 16, data := Memory.ofList helloData }
      (fun t => t.raw.readList 0 26 == helloData ++ helloEcc && t.deg == 10 && t.result0 == 26) = true := by
  decide +kernel

/-- R172, R171, R176 at version 1: the finder's corner, its separator, the timing strip, the dark module;
version 0 raises InvalidArgument. -/
theorem test_mx_init : after .mxInit (withCfg 1 .low 0 0) (fun t =>
    t.planes.dark.get 0 0 && t.planes.func.get 7 7 && !t.planes.dark.get 7 7 && t.planes.dark.get 8 6 &&
      !t.planes.dark.get 9 6 && t.planes.dark.get 8 13 && !t.planes.func.get 9 9) = true ∧
    errs .mxInit State.reset .invalidArgument = true := by decide +kernel

/-- R178's example: 208 modules carry bits; the first codeword's top bits go up the right columns. -/
theorem test_mx_place :
    after .mxPlace { built .patterns with arg0 := 26, raw := [(0, 0b10010000)] } (fun t =>
      t.result0 == 208 && t.planes.dark.get 20 20 && !t.planes.dark.get 19 20 && !t.planes.dark.get 20 19 &&
        t.planes.dark.get 19 19 && t.mxState == .placed) = true := by decide +kernel

/-- R181: legal in PLACED, SequenceError in PATTERNS. -/
theorem test_mx_mask : after (.mxMask 3) (built .placed) (fun t => t.err == none && t.mxState == .placed) = true ∧
    errs (.mxMask 3) (built .patterns) .sequenceError = true := by decide +kernel

/-- R180: mask 3 inverts the non-function modules with (x + y) % 3 = 0, here in a corner of four. -/
theorem test_apply_mask :
    (fun p => (p.dark.get 0 0, p.dark.get 1 0, p.dark.get 1 1, p.dark.get 0 2, p.dark.get 2 1))
      (applyMask 3 3 { func := Plane.zero.set 0 0 true, dark := Plane.zero.set 2 1 true }) =
      (false, false, false, false, false) ∧
    (applyMask 3 3 Planes.zero).dark.get 1 2 = true := by decide +kernel

/-- R182's example: 1-M with mask 0 writes 0x5412, bit 1 at (8, 1), bit 14 at (0, 8) and (8, 20). -/
theorem test_mx_fmt : after2 (.mxFmt 7) (.mxFmt 0) (built .placed) (fun t =>
    !t.planes.dark.get 8 0 && t.planes.dark.get 8 1 && t.planes.dark.get 0 8 && t.planes.dark.get 8 20 &&
      !t.planes.dark.get 1 8) = true := by decide +kernel

/-- R183's example, and a dark function module reading 3. -/
theorem test_mx_read : after (.mxRead 21 0) (built .placed) (fun t => t.result0 == 0 && t.err == none) = true ∧
    after (.mxRead 0 0) (built .placed) (fun t => t.result0 == 3) = true := by decide +kernel

/-- R184's examples. -/
theorem test_mx_wr : after2 (.mxWr 9 9) (.mxRead 9 9) { built .patterns with arg0 := 1 }
    (fun t => t.result0 == 1) = true ∧
    errs (.mxWr 0 0) (built .patterns) .invalidArgument = true := by decide +kernel

/-- Q11: 1-M after MX_INIT scores 2371 with 116 dark modules. -/
theorem test_mx_pen : after .mxPen (built .patterns) (fun t => t.result0 == 2371 && t.result1 == 116) = true := by
  decide +kernel

/-- Q9: MASKREQ = 3 forces mask 3, and MXINFO reads 0x0000B101. -/
theorem test_msel :
    after2 .mxPlace .msel
      { built .patterns with
        cfg := { version := 1, ecl := .medium, maskReq := 3, nseg := 0 }, arg0 := 26 }
      (fun t => t.result0 == 3 && t.mxState == .finalized && t.mxInfoWord == 0x0000B101) = true := by
  decide +kernel

/-- Q11's line scores. -/
theorem test_scan_line :
    (scanLine 21 (List.replicate 21 true)).1 = 19 ∧
    (scanLine 21 (List.replicate 5 true ++ List.replicate 16 false)).1 = 17 ∧
    (scanLine 21 (List.replicate 4 true ++ List.replicate 17 false)).1 = 15 := by decide +kernel

/-- Q1: raw codewords and data codewords of versions 1, 7, 10 and 40. -/
theorem test_capacities : rawCw 1 = 26 ∧ rawCw 2 = 44 ∧ rawCw 7 = 196 ∧ rawCw 40 = 3706 ∧
    Ecl.ordered.map (ndata 1) = [19, 16, 13, 9] ∧ Ecl.ordered.map (ndata 10) = [274, 216, 154, 122] ∧
    Ecl.ordered.map (ndata 40) = [2956, 2334, 1666, 1276] := by decide +kernel

/-- R179 at version 1: the first pair goes up from the bottom right, the second down from the top; columns 8 and 7
come before 5 and 4. -/
theorem test_zigzag :
    (zigzag 21).take 3 = [(20, 20), (19, 20), (20, 19)] ∧
    ((zigzag 21).drop 42).take 3 = [(18, 0), (17, 0), (18, 1)] ∧
    ((zigzag 21).drop 293).take 3 = [(7, 0), (5, 0), (4, 0)] := by decide +kernel

/-- Q12 and R173: version words and alignment positions. -/
theorem test_version_word : versionBits 7 = 0x07C94 ∧ alignPositions 32 = [6, 34, 60, 86, 112, 138] := by
  decide +kernel

/-- V2: CFG reads back with reserved bits 0; a write while BUSY sets OVR. -/
theorem test_host_registers :
    (hostWrite 0x0C 0xFFFFFFFF State.reset).regWord .cfg = 0x007FF33F ∧
    (hostRead 0x00 State.reset).reads = [0x51524301] ∧
    (hostWrite 0x10 5 { State.reset with engine := .running 0x36 0 }).ovr = true := by decide +kernel

/-! ### Witnesses: for each obligation with hypotheses, states and operands that meet them, clause by clause
at the ends of the ranges -/

theorem witness_DecodeOfEncodeIsTheCommand : (Instr.vsel 63 63 true).WellFormed ∧
    (Instr.rsDiv 511).WellFormed ∧ Instr.nop.WellFormed := by decide

theorem witness_EachWordHasOneMeaning : decode 0x001FFF31#32 = .ok (.vsel 63 63 true) ∧
    (0x00, 0xFFFFFFFF#32) ∈ opcodeRows := by decide

theorem witness_StepRunsTheDecodedCommand :
    ({ State.reset with engine := .running 0x51 0 } : State).engine = .running 0x51 0 ∧
    decode 0x51 = .ok .msel ∧
    ({ State.reset with engine := .running 0x51 1 } : State).engine = .running 0x51 (0 + 1) :=
  ⟨rfl, by decide, rfl⟩

theorem witness_IllegalWordRaisesIllegalCommand :
    ({ State.reset with engine := .running 0x52 0 } : State).engine = .running 0x52 0 ∧
    State.reset.err = none ∧ (∀ r ∈ opcodeRows, 0x52#32 &&& r.2 ≠ BitVec.ofNat 32 r.1) ∧
    ∀ r ∈ opcodeRows, 0x100#32 &&& r.2 ≠ BitVec.ofNat 32 r.1 := by
  refine ⟨rfl, rfl, ?_, ?_⟩ <;> decide

/-- An error recorded, with the engine idle and at the end of a run. -/
theorem witness_StickyErrorDropsEveryCommand :
    ({ State.reset with err := some .bufferFull } : State).err ≠ none ∧
    ({ State.reset with err := some .bufferFull } : State).engine = .idle ∧
    ({ State.reset with err := some .bufferFull, engine := .running 0xFF 0 } : State).engine =
      .running 0xFF 0 := by decide +kernel

theorem witness_EveryCommandCompletes :
    ({ State.reset with engine := .running 0xFF 0 } : State).engine = .running 0xFF 0 ∧
    ({ State.reset with done := true } : State).done = true ∧
    answers (step { State.reset with done := true }) (fun _ => true) = true := by decide +kernel

theorem witness_ErrorsArePrecise : State.reset.err = none ∧ errs .bbGet State.reset .indexError = true ∧
    errs .termpad { withCfg 1 .high 0 0 with bb := zeros 73 } .dataTooLong = true := by decide +kernel

theorem witness_OnlyTheListedErrorsAreRaised : State.reset.err = none ∧
    errs .bbGet State.reset .indexError = true := by decide +kernel

/-- Success, and an error that keeps the results. -/
theorem witness_StoresChangeOnlyUnderTheirCommands : State.reset.err = none ∧
    after .nop State.reset (fun t => t.err == none) = true ∧
    after .bbGet State.reset (fun t => t.err == some .indexError) = true := by decide +kernel

/-- Function modules outside and in the format area, and a non-function module, under MX_FMT. -/
theorem witness_FunctionModulesAreWrittenOnce : (built .placed).Inv ∧
    after (.mxFmt 3) (built .placed) (fun t => t.err == none) = true ∧
    (built .placed).planes.func.get 0 0 = true ∧
    (∀ m ∈ formatModules (symbolSize (built .placed)), (m.1, m.2.1) ≠ (0, 0)) ∧
    (built .placed).planes.func.get 9 9 = false := ⟨built_inv _ (by decide), by decide +kernel⟩

theorem witness_UnusedOperandsAreIgnored : readsArg0 .capq = false ∧ readsArg1 .capq = false ∧
    after .capq (withCfg 1 .low 0 0) (fun t => t.err == none) = true := by decide +kernel

theorem witness_MatrixCommandsUseTheLatchedVersion : isMatrix (.mxRead 0 0) = true ∧
    after (.mxRead 0 0) (built .patterns) (fun t => t.err == none) = true ∧
    after .msel { built .placed with cfg := { version := 1, ecl := .low, maskReq := 0, nseg := 0 } }
      (fun t => t.err == none) = true := by decide +kernel

theorem witness_MatrixCommandsAreLegalInTheirStates : State.reset.err = none ∧ isMatrix .mxPen = true ∧
    legalIn .mxPen State.reset.mxState = false ∧ legalIn .mxPen (built .finalized).mxState = true ∧
    (built .finalized).err = none ∧ after (.mxRead 0 0) (built .finalized) (fun t => t.err == none) = true ∧
    after .mxInit State.reset (fun t => t.err != none) = true := by decide +kernel

theorem witness_InterruptLineFollowsCompletion :
    after .nop State.reset (fun _ => true) = true ∧ State.reset.engine = .idle ∧
    (1 : Word).getLsbD 1 = false ∧ (2 : Word).getLsbD 1 = true := by decide +kernel

theorem witness_EveryStepKeepsTheStateLegal : (built .finalized).Inv ∧ State.reset.Inv ∧
    answers (step State.reset) (fun _ => true) = true :=
  ⟨built_inv _ (by decide), reset_inv, by decide +kernel⟩

/-- Good accesses; a misaligned read and a short write at the host's turn, idle, while a command runs and in a
reset, each with no next state. -/
theorem witness_OnlyBadAccessesStopAStep :
    ({ State.reset with host := [.wr 0xFC .word 0, .rd 0x00 .word, .poll] } : State).HostOk ∧
    (AccessSize.word ≠ .word ∨ (0x01#8).toNat % 4 ≠ 0) ∧ (AccessSize.half ≠ .word ∨ (0x10#8).toNat % 4 ≠ 0) ∧
    ∀ e ∈ [Engine.idle, .running 0x51 1, .resetting 1],
      (∀ w, e ≠ .running w 0) ∧ e ≠ .resetting 0 ∧
      answers (step { State.reset with engine := e, host := [.rd 0x01 .word] }) (fun _ => true) = false ∧
      answers (step { State.reset with engine := e, host := [.wr 0x10 .half 0] }) (fun _ => true) = false := by
  refine ⟨by decide, by decide, by decide, fun e he => ⟨?_, ?_⟩⟩
  · rintro w rfl; simp at he
  · revert e; decide +kernel

theorem witness_EveryIssuedCommandCompletes :
    answers (runWord 0x10 { State.reset with engine := .running 0x10 0, host := [.poll] })
      (fun t => t.done) = true ∧
    ({ State.reset with host := [.wr 0x18 .word 0x10, .poll] } : State).engine = .idle := by
  decide +kernel

theorem witness_ResetsReachTheResetState :
    ({ State.reset with host := [.resetInput, .poll] } : State).host = .resetInput :: [.poll] ∧
    (∀ n, ({ State.reset with engine := .running 0x51 3 } : State).engine ≠ .resetting n) ∧
    (2 : Word).getLsbD 1 = true := ⟨rfl, fun n h => Engine.noConfusion h, by decide⟩

theorem witness_ReadsReturnTheRegisters : State.reset.engine = .idle ∧ 0x34 ≤ (0x34#8).toNat ∧
    0x34 ≤ (0xFF#8).toNat ∧
    ({ State.reset with engine := .running 0x51 3 } : State).engine = .running 0x51 3 := by decide +kernel

theorem witness_RegisterWritesWhileIdle : State.reset.engine = .idle ∧ (0xFFFFFFFD#32).getLsbD 1 = false ∧
    (0x30#8) ∉ [0x04#8, 0x08#8, 0x0C#8, 0x10#8, 0x14#8, 0x18#8] ∧
    (0x00#8) ∉ [0x04#8, 0x08#8, 0x0C#8, 0x10#8, 0x14#8, 0x18#8] := by decide +kernel

theorem witness_WritesWhileACommandRuns :
    ({ State.reset with engine := .running 0x51 0 } : State).engine = .running 0x51 0 ∧
    (1 : Word).getLsbD 1 = false ∧ (3 : Word).getLsbD 1 = true ∧
    (0x1C#8) ∉ [0x04#8, 0x08#8, 0x0C#8, 0x10#8, 0x14#8, 0x18#8] := by decide +kernel

theorem witness_ReadsChangeNothingAndResetIgnoresWrites :
    ({ State.reset with engine := .resetting 0 } : State).engine = .resetting 0 := rfl

theorem witness_NopAndClearComplete : State.reset.err = none := rfl

/-- Both stores at their last address, then one past it; the byte 255, then 256; space 2. -/
theorem witness_MemwrWritesOneByte :
    ((withArgs 4095 255).Inv ∧ (withArgs 4096 0).Inv ∧ (withArgs 4095 256).Inv) ∧
    (withArgs 4095 255).err = none ∧ (withArgs 4095 255).arg0.toNat < sizeOfSpace 0 ∧
    (withArgs 4095 255).arg0.toNat < sizeOfSpace 1 ∧ (withArgs 4095 255).arg1.toNat ≤ 255 ∧
    sizeOfSpace 1 ≤ (withArgs 4096 0).arg0.toNat ∧ 255 < (withArgs 4095 256).arg1.toNat :=
  ⟨⟨reset_inv, reset_inv, reset_inv⟩, by decide +kernel⟩

/-- Last element and first index past it, for memory, bit buffer, register files and symbol. -/
theorem witness_ReadBackCommands : (withArgs 4095 0).arg0.toNat < sizeOfSpace 1 ∧
    sizeOfSpace 0 ≤ (withArgs 4096 0).arg0.toNat ∧
    (withArgs 0 0).arg0.toNat < ({ withArgs 0 0 with bb := [true] } : State).bb.length ∧
    ({ withArgs 1 0 with bb := [true] } : State).bb.length ≤ (withArgs 1 0).arg0.toNat ∧
    254 < ({ State.reset with deg := 255 } : State).deg.val ∧ State.reset.deg.val ≤ 0 ∧
    (built .patterns).mxState ≠ .unbuilt ∧ (built .patterns).err = none ∧
    symbolSize (built .patterns) = 21 ∧ State.reset.mxState = .unbuilt := by decide +kernel

/-- Width 31 with its largest value and one more; width 0; a full buffer. -/
theorem witness_BbApbAppendsTheValue : (withArgs 0x7FFFFFFF 0).arg0.toNat < 2 ^ 31 ∧
    (withArgs 0x7FFFFFFF 0).bb.length + 31 ≤ Config.bbCap ∧ 2 ^ 31 ≤ (withArgs 0x80000000 0).arg0.toNat ∧
    2 ^ 0 ≤ (withArgs 1 0).arg0.toNat ∧ (withArgs 0 0).arg0.toNat < 2 ^ 1 ∧ (withArgs 0 0).err = none := by
  decide +kernel
theorem witness_BbApbAppendsTheValue_full :
    Config.bbCap < (filled 32768).bb.length + 1 := by
  rw [filled_length]; decide

theorem witness_BbApbyAppendsTheLanes : (withArgs 0xFFFFFFFF 0).arg0.toNat < 2 ^ (8 * 4) ∧
    (withArgs 0xFF 0).arg0.toNat < 2 ^ (8 * 1) ∧ 2 ^ (8 * 3) ≤ (withArgs 0x1000000 0).arg0.toNat ∧
    State.reset.bb.length + 8 * 4 ≤ Config.bbCap ∧ State.reset.err = none := by decide +kernel
theorem witness_BbApbyAppendsTheLanes_full :
    Config.bbCap < (filled 32761).bb.length + 8 * 1 := by
  rw [filled_length]; decide

/-- The digits "9", "90" and "909"; a lane above; the characters next to the digits; no room. -/
theorem witness_BbApnumAppendsTheNumber :
    (withArgs 0x39 0).arg0.toNat = 0x30 + [9].getD 0 0 ∧
    (withArgs 0x393039 0).arg0.toNat =
      (0x30 + [9, 0, 9].getD 0 0) + 2 ^ 8 * (0x30 + [9, 0, 9].getD 1 0) +
        2 ^ 16 * (0x30 + [9, 0, 9].getD 2 0) ∧
    2 ^ (8 * 3) ≤ (withArgs 0x01393039 0).arg0.toNat ∧
    (∃ k < 2, byteAt (withArgs 0x3A30 0).arg0 k < 0x30 ∨ 0x39 < byteAt (withArgs 0x3A30 0).arg0 k) ∧
    (∀ k < 2, 0x30 ≤ byteAt (withArgs 0x3930 0).arg0 k ∧ byteAt (withArgs 0x3930 0).arg0 k ≤ 0x39) ∧
    (withArgs 0x3930 0).arg0.toNat < 2 ^ (8 * 2) ∧ State.reset.err = none := by decide +kernel
theorem witness_BbApnumAppendsTheNumber_full :
    Config.bbCap < (filled 32762).bb.length + (3 * 2 + 1) := by
  rw [filled_length]; decide

/-- The first and last characters of the charset; a character outside it; no room. -/
theorem witness_BbApalnAppendsTheIndexes :
    (withArgs 0x3A30 0).arg0.toNat = asciiOf 0 + 2 ^ 8 * asciiOf 44 ∧
    (withArgs 0x3A 0).arg0.toNat = asciiOf 44 ∧ 2 ^ (8 * 2) ≤ (withArgs 0x10000 0).arg0.toNat ∧
    (∃ k < 2, ∀ i < 45, byteAt (withArgs 0x6130 0).arg0 k ≠ asciiOf i) ∧
    (∀ k < 2, ∃ i < 45, byteAt (withArgs 0x5A24 0).arg0 k = asciiOf i) ∧
    (withArgs 0x5A24 0).arg0.toNat < 2 ^ (8 * 2) ∧ State.reset.err = none := by decide +kernel
theorem witness_BbApalnAppendsTheIndexes_full :
    Config.bbCap < (filled 32763).bb.length + (if 1 = 2 then 11 else 6) := by
  rw [filled_length]; decide

/-- Each form at its first and last value. -/
theorem witness_BbApeciAppendsTheDesignator :
    (withArgs 0 0).arg0.toNat < 128 ∧ (withArgs 127 0).arg0.toNat < 128 ∧
    128 ≤ (withArgs 128 0).arg0.toNat ∧ (withArgs 16383 0).arg0.toNat < 16384 ∧
    16384 ≤ (withArgs 16384 0).arg0.toNat ∧ (withArgs 999999 0).arg0.toNat < 1000000 ∧
    State.reset.bb.length + 24 ≤ Config.bbCap ∧ 1000000 ≤ (withArgs 1000000 0).arg0.toNat ∧
    State.reset.err = none := by decide +kernel
theorem witness_BbApeciAppendsTheDesignator_full :
    Config.bbCap < (filled 32761).bb.length + 8 := by
  rw [filled_length]; decide

theorem witness_QueryCommandsWriteTheirResults : validVer (withCfg 1 .low 0 0).cfg.version.toNat ∧
    validVer (withCfg 40 .high 0 0).cfg.version.toNat ∧ ¬ validVer State.reset.cfg.version.toNat ∧
    ¬ validVer (withCfg 41 .low 0 0).cfg.version.toNat ∧ State.reset.mxState = .unbuilt ∧
    (built .finalized).mxState ≠ .unbuilt ∧ (built .finalized).err = none := by decide +kernel

theorem witness_GfProductIsReducedModulo0x11D : (255 : Nat) < 256 := by decide

theorem witness_RsDivHoldsTheDivisor : State.reset.err = none ∧ (1 ≤ 1 ∧ 1 ≤ 255) ∧ (1 ≤ 255 ∧ 255 ≤ 255) ∧
    (0 = 0 ∨ 255 < 0) ∧ (256 = 0 ∨ 255 < 256) := by decide +kernel

theorem witness_DivisorRootsAreThePowersOfAlpha : (1 ≤ 1 ∧ 1 ≤ 255) ∧ 1 ≤ 255 ∧ 254 < 255 := by decide

/-- A divisor held, all of DATA named, then one byte more; no divisor held. -/
theorem witness_RsRemLeavesTheRemainder : ((held 0 4096).Inv ∧ (held 1 4096).Inv ∧ State.reset.Inv) ∧
    (held 0 4096).err = none ∧ (held 0 4096).deg.val ≠ 0 ∧
    (held 0 4096).arg0.toNat + (held 0 4096).arg1.toNat ≤ Config.dataSize ∧
    Config.dataSize < (held 1 4096).arg0.toNat + (held 1 4096).arg1.toNat ∧ State.reset.deg.val = 0 :=
  ⟨⟨held_inv _ _, held_inv _ _, reset_inv⟩, by decide +kernel⟩

theorem witness_RemainderIsSystematic : ([3, 2] : List Byte) ≠ [] ∧ (1 ≤ 1 ∧ 0 < 1) ∧ 255 ≤ 255 ∧
    254 < 255 := by decide

theorem witness_SegDefWritesOneEntry : 63 < Config.segMax ∧ Config.segMax ≤ 64 ∧ 8 ∈ [1, 2, 4, 7, 8] ∧
    0 ∉ [1, 2, 4, 7, 8] ∧ State.reset.err = none := by decide +kernel

/-- 18 bytes need 4 + 8 + 144 = 156 bits at version 1, which holds 152 at L; version 2 holds them. -/
theorem witness_VselChoosesTheFirstVersionThatFits :
    let s : State := { withCfg 0 .low 0 1 with
      segtab := State.reset.segtab.set 0 { mode := 4, count := 18, plen := 144 } }
    s.err = none ∧ validVer 1 ∧ validVer 40 ∧ s.cfg.nseg.toNat ≤ Config.segMax ∧
      describes s [⟨.byte, 18, 144⟩] ∧ 1 ≤ 2 ∧ 2 ≤ 40 ∧ countsFit [⟨.byte, 18, 144⟩] 2 ∧
      needBits [⟨.byte, 18, 144⟩] 2 ≤ capBits 2 s.cfg.ecl ∧
      ∀ u < 2, 1 ≤ u →
        ¬ (countsFit [⟨.byte, 18, 144⟩] u ∧ needBits [⟨.byte, 18, 144⟩] u ≤ capBits u s.cfg.ecl) := by
  decide +kernel

/-- A count that fits no field up to version 9, and R220's total above the capacity. -/
theorem witness_VselReportsDataTooLong :
    let s : State := { withCfg 0 .low 0 1 with
      segtab := State.reset.segtab.set 0 { mode := 4, count := 256, plen := 2048 } }
    s.err = none ∧ describes s [⟨.byte, 256, 2048⟩] ∧ s.cfg.nseg.toNat ≤ Config.segMax ∧
      (∀ u ≤ 9, 1 ≤ u →
        ¬ (countsFit [⟨.byte, 256, 2048⟩] u ∧ needBits [⟨.byte, 256, 2048⟩] u ≤ capBits u s.cfg.ecl)) ∧
      ¬ countsFit [⟨.byte, 256, 2048⟩] 9 ∧ countsFit [⟨.byte, 23, 184⟩] 1 ∧
      ¬ needBits [⟨.byte, 23, 184⟩] 1 ≤ capBits 1 .high := by decide +kernel

theorem witness_VselRejectsBadArguments : State.reset.err = none ∧
    ¬ (validVer 0 ∧ validVer 40 ∧ 0 ≤ 40) ∧ ¬ (validVer 1 ∧ validVer 41 ∧ 1 ≤ 41) ∧
    ¬ (validVer 2 ∧ validVer 1 ∧ 2 ≤ 1) ∧ Config.segMax < (withCfg 0 .low 0 65).cfg.nseg.toNat ∧
    (withCfg 0 .low 0 1).segtab[0].mode.toNat ∉ [1, 2, 4, 7, 8] := by decide +kernel

theorem witness_SegHdrAppendsTheHeader : State.reset.err = none ∧ 0 ∉ [1, 2, 4, 7, 8] ∧
    ¬ validVer State.reset.cfg.version.toNat ∧ 4 = indicator .byte ∧
    validVer (withCfg 9 .low 0 0).cfg.version.toNat ∧ (withArgs 255 0).arg0.toNat < 2 ^ fieldWidth .byte 9 ∧
    2 ^ fieldWidth .byte 9 ≤ (withArgs 256 0).arg0.toNat ∧
    (withArgs 0xFFFF 0).arg0.toNat < 2 ^ fieldWidth .byte 10 ∧
    (withArgs 4095 0).arg0.toNat < 2 ^ fieldWidth .numeric 26 ∧
    2 ^ fieldWidth .numeric 26 ≤ (withArgs 4096 0).arg0.toNat ∧
    (withArgs 4096 0).arg0.toNat < 2 ^ fieldWidth .numeric 27 ∧
    (withArgs 0 0).arg0.toNat < 2 ^ fieldWidth .eci 1 ∧
    State.reset.bb.length + (4 + fieldWidth .byte 9) ≤ Config.bbCap := by decide +kernel
theorem witness_SegHdrAppendsTheHeader_full :
    Config.bbCap < (filled 32765).bb.length + (4 + fieldWidth .eci 1) := by
  rw [filled_length]; decide

/-- A buffer of exactly the capacity of 1-H, and of one bit more; version 0. -/
theorem witness_TermpadFillsTheCapacity : validVer (withCfg 1 .high 0 0).cfg.version.toNat ∧
    (zeros 72).length ≤ capBits 1 .high ∧ capBits 1 .high < (zeros 73).length ∧
    ¬ validVer State.reset.cfg.version.toNat ∧ State.reset.err = none := by decide +kernel

theorem witness_PackWritesTheBytes :
    ({ State.reset with bb := zeros 16 } : State).Inv ∧ (zeros 16).length % 8 = 0 ∧
    (zeros 17).length % 8 ≠ 0 ∧ 8 * 1 + 7 < (zeros 16).length :=
  ⟨⟨⟨by decide, rfl, rfl, rfl⟩, reset_inv.2⟩, by decide +kernel⟩

theorem witness_IntlvWritesTheRawCodewords : ({ withCfg 1 .medium 0 0 with arg0 := 16 } : State).Inv ∧
    validVer (withCfg 1 .medium 0 0).cfg.version.toNat ∧
    (withArgs 16 0).arg0.toNat = ndata 1 .medium ∧ (withArgs 17 0).arg0.toNat ≠ ndata 1 .medium ∧
    ¬ validVer State.reset.cfg.version.toNat := ⟨reset_inv, by decide +kernel⟩

theorem witness_InterleaveReadsTheBlocksInRoundRobin : validVer 1 ∧ validVer 40 ∧
    (List.replicate (ndata 40 .low) (0 : Byte)).length = ndata 40 .low :=
  ⟨by decide, by decide, List.length_replicate⟩

theorem witness_PipelineAcceptsEachStage : (withCfg 40 .low 0 0).Inv ∧ (withCfg 40 .low 0 0).err = none ∧
    validVer (withCfg 40 .low 0 0).cfg.version.toNat ∧
    (withCfg 40 .low 0 0).bb.length ≤ capBits 40 .low := ⟨reset_inv, by decide +kernel⟩

theorem witness_MxInitStartsAConstruction : validVer (withCfg 40 .low 0 0).cfg.version.toNat ∧
    ¬ validVer (withCfg 41 .low 0 0).cfg.version.toNat ∧ State.reset.err = none := by decide +kernel

/-- A module of each pattern of version 7, at its distance. -/
theorem witness_FunctionPatternGeometry : validVer 7 ∧ 8 ≤ 36 ∧ 36 < 7 * 4 + 17 - 8 ∧
    (41, 3) ∈ finderCentres 45 ∧ chebyshev 37 7 41 3 ≤ 4 ∧ (38, 38) ∈ alignCentres 7 ∧
    chebyshev 36 40 38 38 ≤ 2 ∧ (8, 37, none) ∈ formatModules 45 ∧ (36, 5, 17) ∈ versionModules 7 := by
  decide +kernel

/-- The first and last pair of the zig-zag, its pairs on both sides of column 6, and its last element. -/
theorem witness_ZigzagVisitsTheFreeModulesOnce : validVer 1 ∧ validVer 40 ∧ 9 < (21 - 1) / 2 ∧ 20 < 21 ∧ 1 < 2 ∧
    [0, 6, 7, 9].map (pairRight 21) = [20, 8, 5, 1] ∧ 2 * 21 * 9 + 2 * 20 + 1 = 21 * 20 - 1 := by decide

theorem witness_MxPlaceFillsTheZigzag : ({ built .patterns with arg0 := 26 } : State).Inv ∧
    (built .patterns).err = none ∧ (withArgs 26 0).arg0.toNat = rawCw (built .patterns).mxVer.toNat ∧
    (withArgs 27 0).arg0.toNat ≠ rawCw (built .patterns).mxVer.toNat ∧
    (built .patterns).mxState = .patterns ∧ (built .placed).mxState ≠ .patterns :=
  ⟨built_inv .patterns (by decide), by decide +kernel⟩

/-- The last free module of version 1 gets the last bit: 208 of both. -/
theorem witness_MxPlaceFillsTheZigzag_last :
    8 * rawCw 1 = 208 ∧ (freeModules 21 (built .patterns).planes.func).length = 208 := by decide +kernel

theorem witness_MxMaskInvertsTheSelectedModules : (built .placed).Inv ∧ (built .placed).err = none ∧ 7 ≤ 7 ∧
    (built .placed).mxState = .placed ∧ (built .finalized).mxState ≠ .placed :=
  ⟨built_inv _ (by decide), by decide +kernel⟩

/-- Each predicate at a module it selects and at one it does not. -/
theorem witness_MxMaskInvertsTheSelectedModules_each :
    ∀ p ∈ [(0, (1, 1), (1, 0)), (1, (1, 0), (0, 1)), (2, (3, 1), (1, 3)), (3, (1, 2), (1, 1)),
        (4, (2, 1), (3, 1)), (5, (3, 2), (1, 1)), (6, (1, 1), (2, 2)), (7, (3, 1), (1, 0))],
      inverted p.1 p.2.1.1 p.2.1.2 ∧ ¬ inverted p.1 p.2.2.1 p.2.2.2 := by
  unfold inverted
  decide

theorem witness_MxFmtDrawsTheFormatWord : (built .placed).Inv ∧ (built .placed).mxState = .placed ∧ 7 ≤ 7 ∧
    (8, 13, none) ∈ formatModules (symbolSize (built .placed)) ∧
    (∀ m ∈ formatModules (symbolSize (built .placed)), (m.1, m.2.1) ≠ (9, 8)) ∧
    (built .patterns).mxState ≠ .placed := ⟨built_inv _ (by decide), by decide +kernel⟩

/-- A free module, a function module, the first column outside, values 1 and 2. -/
theorem witness_MxWrWritesOneModule : ({ built .placed with arg0 := 1 } : State).Inv ∧
    20 < symbolSize (built .placed) ∧ symbolSize (built .placed) ≤ 21 ∧
    (built .placed).planes.func.get 20 20 = false ∧ (built .placed).planes.func.get 20 0 = true ∧
    (withArgs 1 0).arg0.toNat ≤ 1 ∧ 1 < (withArgs 2 0).arg0.toNat ∧
    (built .finalized).mxState ≠ .patterns ∧ (built .finalized).mxState ≠ .placed :=
  ⟨built_inv .placed (by decide), by decide +kernel⟩

theorem witness_RunScoresThreePlusExcess : [true, false].getLast? ≠ some true ∧ [false].head? ≠ some true ∧
    ([] : List Bool).getLast? ≠ some true ∧ 0 < 4 ∧ 0 < 5 := by decide

/-- A plane and its transpose, which differ. -/
theorem witness_PenaltyIsTransposeInvariant :
    (∀ x < 5, ∀ y < 5, (Plane.zero.set 1 2 true).get x y = (Plane.zero.set 2 1 true).get y x) ∧
    (Plane.zero.set 1 2 true).get 1 2 ≠ (Plane.zero.set 2 1 true).get 1 2 := by decide +kernel

theorem witness_MselFinishesWithTheBestMask : (built .placed).Inv ∧ (built .placed).err = none ∧
    (built .placed).mxState = .placed ∧ (built .placed).cfg.maskReq.toNat = 15 ∧
    (withCfg 1 .low 7 0).cfg.maskReq.toNat ≤ 7 ∧ 8 ≤ (withCfg 1 .low 8 0).cfg.maskReq.toNat ∧
    (withCfg 1 .low 15 0).cfg.maskReq.toNat = 15 ∧ (withCfg 1 .low 14 0).cfg.maskReq.toNat ≤ 14 ∧
    (built .patterns).mxState ≠ .placed :=
  ⟨built_inv _ (by decide), by decide +kernel⟩

end

end Sys2Proof.Tests
end

/-! ## Register words, the register window and the reset values -/

namespace Sys2Proof.Machine

/-! ### Fields of a register word -/

/-- Fields side by side: a field above the others is joined by `|||`. -/
theorem word_add_mul_two_pow {k a : Nat} (b : Nat) (h : a < 2 ^ k) :
    word (a + b * 2 ^ k) = word a ||| word b <<< k := by
  apply BitVec.eq_of_toNat_eq
  rw [Nat.add_comm, Nat.mul_comm, Nat.two_pow_add_eq_or_of_lt h]
  simp [Nat.shiftLeft_eq, Nat.mul_comm, Nat.or_comm]

theorem extractLsb'_word (n k w : Nat) (h : k + w ≤ 32) :
    (word n).extractLsb' k w = BitVec.ofNat w (n / 2 ^ k) := by
  apply BitVec.eq_of_toNat_eq
  have : n % 2 ^ 32 / 2 ^ k % 2 ^ w = n / 2 ^ k % 2 ^ w := by
    rw [← Nat.mod_mul_right_div_self, ← Nat.mod_mul_right_div_self n, Nat.mod_mod_of_dvd]
    rw [← Nat.pow_add]
    exact Nat.pow_dvd_pow 2 h
  simpa [BitVec.extractLsb'_toNat, Nat.shiftRight_eq_div_pow] using this

theorem extractLsb'_word_eq {n k w : Nat} {x : BitVec w} (hk : k + w ≤ 32) (h : n / 2 ^ k % 2 ^ w = x.toNat) :
    (word n).extractLsb' k w = x := by
  rw [extractLsb'_word n k w hk]
  exact BitVec.eq_of_toNat_eq (by rw [BitVec.toNat_ofNat, h])

theorem getLsbD_word_eq {n k : Nat} {b : Bool} (hk : k < 32) (h : n / 2 ^ k % 2 = b.toNat) :
    (word n).getLsbD k = b := by
  rw [BitVec.getLsbD_ofNat, decide_eq_true hk, Bool.true_and, Nat.testBit_eq_decide_div_mod_eq, h]
  cases b <;> rfl

/-- The bits `k + w - 1` to `k`. -/
def fieldMask (k w : Nat) : Word := (BitVec.allOnes w).setWidth 32 <<< k

/-- A mask picks the field it covers. -/
theorem and_fieldMask (v : Word) (k w : Nat) :
    v &&& fieldMask k w = (v.extractLsb' k w).setWidth 32 <<< k := by
  ext i hi
  simp only [fieldMask, BitVec.getElem_and, BitVec.getElem_shiftLeft, BitVec.getElem_setWidth]
  by_cases hk : i < k
  · simp [hk]
  · have hki : k + (i - k) = i := Nat.add_sub_cancel' (Nat.le_of_not_lt hk)
    by_cases hw : i - k < w <;> simp [hk, hw, hki, BitVec.getLsbD_eq_getElem hi]

/-- A word whose field is 0 has no bit under the field's mask. -/
theorem word_and_fieldMask_eq_zero {n k w : Nat} (hk : k + w ≤ 32) (h : n / 2 ^ k % 2 ^ w = 0) :
    word n &&& fieldMask k w = 0 := by
  rw [and_fieldMask, extractLsb'_word_eq (x := 0) hk (by simpa using h)]
  simp

theorem and_or_eq_zero {v a b : Word} (ha : v &&& a = 0) (hb : v &&& b = 0) : v &&& (a ||| b) = 0 := by
  rw [BitVec.and_or_distrib_left, ha, hb]
  rfl

/-! ### STATUS, MXINFO and CFG -/

theorem errCode_toNat (s : State) : (errCode s.err).toNat = s.errField := by
  unfold State.errField
  cases s.err with
  | none => rfl
  | some c => cases c <;> rfl

theorem mxCode_toNat (m : MxState) : (mxCode m).toNat = m.code := by cases m <;> rfl

theorem eclCode_eq_toBits (e : Ecl) : eclCode e = e.toBits := by cases e <;> rfl

theorem eclCode_ofBits (b : BitVec 2) : eclCode (Ecl.ofBits b) = b := by revert b; decide

/-- The fields of a STATUS word, with any value in MXSTATE, and its reserved bits (R24). -/
theorem statusWordWith_fields (s : State) (m : BitVec 2) :
    ((s.statusWordWith m.toNat).getLsbD 0 = s.busy ∧ (s.statusWordWith m.toNat).getLsbD 1 = s.done ∧
      (s.statusWordWith m.toNat).getLsbD 3 = s.ovr) ∧
    (s.statusWordWith m.toNat).extractLsb' 4 4 = errCode s.err ∧
    (s.statusWordWith m.toNat).extractLsb' 8 2 = m ∧
    (s.statusWordWith m.toNat).extractLsb' 16 8 = s.errOpc ∧
    s.statusWordWith m.toNat &&& 0xFF00FC04#32 = 0 := by
  have hbusy := s.busy.toNat_le
  have hdone := s.done.toNat_le
  have hovr := s.ovr.toNat_le
  have herr := (errCode s.err).isLt
  have hm := m.isLt
  have hopc := s.errOpc.isLt
  rw [State.statusWordWith, ← errCode_toNat,
    show 0xFF00FC04#32 = fieldMask 2 1 ||| fieldMask 10 6 ||| fieldMask 24 8 by decide]
  refine ⟨⟨getLsbD_word_eq (by decide) ?_, getLsbD_word_eq (by decide) ?_, getLsbD_word_eq (by decide) ?_⟩,
    extractLsb'_word_eq (by decide) ?_, extractLsb'_word_eq (by decide) ?_,
    extractLsb'_word_eq (by decide) ?_, and_or_eq_zero (and_or_eq_zero
      (word_and_fieldMask_eq_zero (by decide) ?_) (word_and_fieldMask_eq_zero (by decide) ?_))
      (word_and_fieldMask_eq_zero (by decide) ?_)⟩ <;> omega

theorem statusWord_eq (s : State) : s.statusWord = s.statusWordWith (mxCode s.mxState).toNat := by
  rw [mxCode_toNat]
  rfl

/-- Settles O22: STATUS is the sum of its fields at their bits. -/
theorem statusReadsItsFields : Obligations.StatusReadsItsFields := by
  intro s
  obtain ⟨⟨hbusy, hdone, hovr⟩, hrest⟩ := statusWordWith_fields s (mxCode s.mxState)
  rw [← statusWord_eq] at *
  exact ⟨hbusy, hdone, hovr, hrest⟩

/-- The fields of MXINFO and its reserved bits (R33). -/
theorem mxInfoWord_fields (s : State) :
    s.mxInfoWord.extractLsb' 0 6 = s.mxVer ∧ s.mxInfoWord.extractLsb' 8 2 = eclCode s.mxEcl ∧
      s.mxInfoWord.extractLsb' 12 3 = s.mxMask ∧ s.mxInfoWord.getLsbD 15 = s.mxMaskV ∧
      s.mxInfoWord &&& 0xFFFF0CC0#32 = 0 := by
  have hver := s.mxVer.isLt
  have hecl := s.mxEcl.toBits.isLt
  have hmask := s.mxMask.isLt
  have hmaskV := s.mxMaskV.toNat_le
  rw [eclCode_eq_toBits, State.mxInfoWord,
    show 0xFFFF0CC0#32 = fieldMask 6 2 ||| fieldMask 10 2 ||| fieldMask 16 16 by decide]
  refine ⟨extractLsb'_word_eq (by decide) ?_, extractLsb'_word_eq (by decide) ?_,
    extractLsb'_word_eq (by decide) ?_, getLsbD_word_eq (by decide) ?_, and_or_eq_zero (and_or_eq_zero
      (word_and_fieldMask_eq_zero (by decide) ?_) (word_and_fieldMask_eq_zero (by decide) ?_))
      (word_and_fieldMask_eq_zero (by decide) ?_)⟩ <;> omega

/-- CFG reads back what was written, reserved bits 0 (R26, R27). -/
theorem cfg_toWord_ofWord (v : Word) : (Cfg.ofWord v).toWord = v &&& 0x007FF33F#32 := by
  have hver := (v.extractLsb' 0 6).isLt
  have hecl := (v.extractLsb' 8 2).isLt
  have hmask := (v.extractLsb' 12 4).isLt
  have field : ∀ k w, word (v.extractLsb' k w).toNat = (v.extractLsb' k w).setWidth 32 := fun _ _ =>
    BitVec.eq_of_toNat_eq (by simp)
  rw [Cfg.toWord, ← eclCode_eq_toBits]
  simp only [Cfg.ofWord, eclCode_ofBits]
  rw [word_add_mul_two_pow _ (by omega), word_add_mul_two_pow _ (by omega), word_add_mul_two_pow _ (by omega),
    field, field, field, field, ← and_fieldMask v 8 2, ← and_fieldMask v 12 4, ← and_fieldMask v 16 7,
    show (v.extractLsb' 0 6).setWidth 32 = v &&& fieldMask 0 6 by rw [and_fieldMask, BitVec.shiftLeft_zero],
    ← BitVec.and_or_distrib_left, ← BitVec.and_or_distrib_left, ← BitVec.and_or_distrib_left]
  rfl

/-! ### The running command and the reset values -/

/-- Settles O4: the two cases of `step` on a running command. -/
theorem stepRunsTheDecodedCommand : Obligations.StepRunsTheDecodedCommand := by
  refine fun s w => ⟨fun i he hi => ?_, fun left he => ?_⟩
  · rw [step, he]
    simp only [runWord, hi]
  · rw [step, he]

/-- Settles O20: register by register, element by element. -/
theorem resetValues : Obligations.ResetValues := by
  refine ⟨fun r => ?_, rfl, fun a => ⟨rfl, rfl, rfl, rfl⟩, fun i hi => Vector.getElem_replicate _,
    fun x y => ⟨Plane.get_zero x y, Plane.get_zero x y⟩⟩
  cases r <;> rfl

/-! ### Reads -/

/-- A reserved offset reads 0 in every state (R36). -/
theorem hostRead_reads_of_none {o : BitVec 8} (ho : Reg.ofOffset o = none) (s : State) :
    (hostRead o s).reads = s.reads ++ [0] := by
  rw [hostRead, ho]

/-- While no command runs a read returns the register's value. -/
theorem hostRead_reads_of_idle {o : BitVec 8} {r : Reg} (ho : Reg.ofOffset o = some r) {s : State}
    (hs : s.engine = .idle) : (hostRead o s).reads = s.reads ++ [s.regWord r] := by
  simp only [hostRead, ho, hs]

theorem hostRead_reads_of_running {o : BitVec 8} {r : Reg} (ho : Reg.ofOffset o = some r) {s : State}
    {w : Word} {left : Nat} (hs : s.engine = .running w left) :
    (hostRead o s).reads = s.reads ++ [s.regWordRunning (Config.busyRead s.draws) r] := by
  simp only [hostRead, ho, hs]

/-- Every read records one value. -/
theorem hostRead_reads (o : BitVec 8) (s : State) : ∃ v, (hostRead o s).reads = s.reads ++ [v] := by
  unfold hostRead
  split
  · exact ⟨_, rfl⟩
  · split <;> exact ⟨_, rfl⟩

theorem Reg.ofOffset_eq_none : ∀ o : BitVec 8, 0x34 ≤ o.toNat → Reg.ofOffset o = none := by decide

/-- Settles O23: the register at each offset, and its value idle and while a command runs. -/
theorem readsReturnTheRegisters : Obligations.ReadsReturnTheRegisters := by
  refine fun s => ⟨fun hs => ⟨?_, _, hostRead_reads_of_idle (r := .mxinfo) rfl hs, mxInfoWord_fields s⟩,
    fun w left hs => ⟨?_, _, hostRead_reads_of_running (r := .status) rfl hs, ?_⟩,
    fun o ho => hostRead_reads_of_none (Reg.ofOffset_eq_none o ho) s, fun o => hostRead_reads o s⟩
  · simp only [List.forall_mem_cons]
    exact ⟨hostRead_reads_of_idle (r := .id) rfl hs, hostRead_reads_of_idle (r := .ctrl) rfl hs,
      hostRead_reads_of_idle rfl hs, hostRead_reads_of_idle rfl hs,
      hostRead_reads_of_idle (r := .arg0) rfl hs, hostRead_reads_of_idle (r := .arg1) rfl hs,
      hostRead_reads_of_idle (r := .cmd) rfl hs, hostRead_reads_of_idle (r := .result0) rfl hs,
      hostRead_reads_of_idle (r := .result1) rfl hs, hostRead_reads_of_idle (r := .bblen) rfl hs,
      hostRead_reads_of_idle (r := .rsdeg) rfl hs, hostRead_reads_of_idle (r := .cmdcnt) rfl hs,
      List.forall_mem_nil _⟩
  · simp only [List.forall_mem_cons]
    exact ⟨hostRead_reads_of_running (r := .id) rfl hs, hostRead_reads_of_running (r := .ctrl) rfl hs,
      hostRead_reads_of_running (r := .cfg) rfl hs, hostRead_reads_of_running (r := .arg0) rfl hs,
      hostRead_reads_of_running (r := .arg1) rfl hs, hostRead_reads_of_running (r := .cmd) rfl hs,
      hostRead_reads_of_running (r := .cmdcnt) rfl hs, List.forall_mem_nil _⟩
  · let m := BitVec.ofNat 2 (Config.busyRead s.draws).toNat
    have hdraw : (Config.busyRead s.draws).toNat % 4 = m.toNat := by simp [m]
    obtain ⟨⟨hbusy, hdone, hovr⟩, herr, -, hopc, hreserved⟩ := statusWordWith_fields s m
    rw [← hdraw] at *
    exact ⟨hbusy.trans (by simp [State.busy, hs]), hdone, hovr, herr, hopc, hreserved⟩

/-! ### Writes -/

/-- A STATUS write clears each flag on its own (R25). -/
theorem writeStatus_eq (v : Word) (s : State) : writeStatus v s = { s with
    done := s.done && !v.getLsbD 1, ovr := s.ovr && !v.getLsbD 3,
    err := if v.getLsbD 2 then none else s.err, errOpc := if v.getLsbD 2 then 0 else s.errOpc } := by
  unfold writeStatus clearError
  cases v.getLsbD 1 <;> cases v.getLsbD 2 <;> cases v.getLsbD 3 <;> simp

/-- The offsets without a writable register are reserved or read-only (R21). -/
theorem Reg.ofOffset_of_not_writable : ∀ o : BitVec 8,
    o ∉ [0x04#8, 0x08#8, 0x0C#8, 0x10#8, 0x14#8, 0x18#8] →
      Reg.ofOffset o ∈ [none, some .id, some .result0, some .result1, some .bblen, some .rsdeg, some .mxinfo,
        some .cmdcnt] := by
  decide

/-- A write to an offset without a writable register changes nothing (R36). -/
theorem hostWrite_of_not_writable {o : BitVec 8} (v : Word) (s : State)
    (ho : o ∉ [0x04#8, 0x08#8, 0x0C#8, 0x10#8, 0x14#8, 0x18#8]) : hostWrite o v s = s := by
  have hreg := Reg.ofOffset_of_not_writable o ho
  simp only [List.mem_cons, List.not_mem_nil, or_false] at hreg
  unfold hostWrite
  rcases hreg with h | h | h | h | h | h | h | h <;> rw [h] <;> cases s.engine <;> rfl

/-- While BUSY = 0 a write goes to its register. -/
theorem hostWrite_of_idle {o : BitVec 8} {r : Reg} (ho : Reg.ofOffset o = some r) (v : Word) {s : State}
    (hs : s.engine = .idle) : hostWrite o v s = writeIdle r v s := by
  simp only [hostWrite, ho, hs]

/-- Settles O24: the effect of a write on each writable register. -/
theorem registerWritesWhileIdle : Obligations.RegisterWritesWhileIdle := by
  intro s v hs
  refine ⟨(hostWrite_of_idle (r := .status) rfl v hs).trans (writeStatus_eq v s),
    ⟨_, hostWrite_of_idle (r := .cfg) rfl v hs, rfl, eclCode_ofBits _, rfl, rfl⟩, ?_, fun hv => ?_,
    hostWrite_of_idle (r := .arg0) rfl v hs, hostWrite_of_idle (r := .arg1) rfl v hs,
    ⟨_, hostWrite_of_idle (r := .cmd) rfl v hs⟩, fun o ho => hostWrite_of_not_writable v s ho⟩
  · rw [hostWrite_of_idle (r := .cfg) rfl v hs]
    exact cfg_toWord_ofWord v
  · rw [hostWrite_of_idle (r := .ctrl) rfl v hs, writeIdle, writeCtrl, hv]
    rfl

end Sys2Proof.Machine

/-! ## The geometry of the function patterns -/

namespace Sys2Proof.Machine

/-! ### Painting: what a drawing routine does to the planes

A drawing routine of R171 to R177 marks a region of modules as function modules and gives them the dark
values of a pattern; it leaves every other module alone. -/

/-- `f` makes the modules of `region` function modules with the dark values `val`, and changes no other. -/
structure Paints (f : Planes → Planes) (region : Nat → Nat → Prop) (val : Nat → Nat → Bool) : Prop where
  func_iff : ∀ p x y, (f p).func.get x y = true ↔ region x y ∨ p.func.get x y = true
  dark_mem : ∀ p x y, region x y → (f p).dark.get x y = val x y
  dark_not_mem : ∀ p x y, ¬ region x y → (f p).dark.get x y = p.dark.get x y

namespace Paints

variable {f g : Planes → Planes} {A B : Nat → Nat → Prop} {val : Nat → Nat → Bool}

theorem skip : Paints (fun p => p) (fun _ _ => False) val :=
  ⟨fun _ _ _ => by simp, fun _ _ _ h => h.elim, fun _ _ _ _ => rfl⟩

/-- One `setFunction` inside the planes paints one module. -/
theorem setFunction {x y : Nat} {d : Bool} (hx : x < Config.maxSize) (hy : y < Config.maxSize)
    (hd : val x y = d) :
    Paints (fun p => p.setFunction x y d) (fun x' y' => x' = x ∧ y' = y) val where
  func_iff p x' y' := by
    rw [Planes.setFunction_func, Plane.get_set]
    by_cases h : x' = x ∧ y' = y <;> simp [h, hx, hy]
  dark_mem p x' y' h := by
    obtain ⟨rfl, rfl⟩ := h
    simp [Plane.get_set, hx, hy, hd]
  dark_not_mem p x' y' h := by
    rw [Planes.setFunction_dark, Plane.get_set, if_neg fun h' => h ⟨h'.1, h'.2.1⟩]

/-- Two routines that paint with the same values paint both regions. -/
theorem comp (hg : Paints g B val) (hf : Paints f A val) :
    Paints (fun p => g (f p)) (fun x y => A x y ∨ B x y) val where
  func_iff p x y := by rw [hg.func_iff, hf.func_iff]; tauto
  dark_mem p x y h := by
    by_cases hB : B x y
    · exact hg.dark_mem _ x y hB
    · rw [hg.dark_not_mem _ x y hB, hf.dark_mem _ x y (h.resolve_right hB)]
  dark_not_mem p x y h := by
    rw [hg.dark_not_mem _ x y fun hB => h (.inr hB), hf.dark_not_mem _ x y fun hA => h (.inl hA)]

theorem of_iff (hf : Paints f A val) (h : ∀ x y, A x y ↔ B x y) : Paints f B val := by
  rwa [show A = B from funext fun x => funext fun y => propext (h x y)] at hf

/-- A loop of routines that paint with the same values paints the regions of all its iterations. -/
theorem loop {n : Nat} {body : Nat → Planes → Planes} {R : Nat → Nat → Nat → Prop}
    (h : ∀ i < n, Paints (body i) (R i) val) :
    Paints (Machine.loop n body) (fun x y => ∃ i < n, R i x y) val := by
  induction n with
  | zero => exact skip.of_iff fun x y => by simp
  | succ n ih =>
    refine ((h n (Nat.lt_succ_self n)).comp (ih fun i hi => h i (Nat.lt_succ_of_lt hi))).of_iff fun x y => ?_
    simp only [Nat.lt_succ_iff_lt_or_eq, or_and_right, exists_or, exists_eq_left]

/-- A list of modules, each drawn with its own bit, paints exactly the listed modules. -/
theorem foldl {α : Type} {l : List α} {px py : α → Nat} {d : α → Bool}
    (h : ∀ m ∈ l, px m < Config.maxSize ∧ py m < Config.maxSize ∧ val (px m) (py m) = d m) :
    Paints (fun p => l.foldl (fun p m => p.setFunction (px m) (py m) (d m)) p)
      (fun x y => ∃ m ∈ l, px m = x ∧ py m = y) val := by
  induction l with
  | nil => exact skip.of_iff fun x y => by simp
  | cons m l ih =>
    obtain ⟨hx, hy, hd⟩ := h m List.mem_cons_self
    refine ((ih fun m' hm' => h m' (List.mem_cons_of_mem _ hm')).comp (setFunction hx hy hd)).of_iff
      fun x y => ?_
    simp only [List.mem_cons, or_and_right, exists_or, exists_eq_left, @eq_comm _ x, @eq_comm _ y]

/-- A routine that runs only under a condition paints its region where the condition holds. -/
theorem ite {c : Prop} [Decidable c] (hf : c → Paints f A val) :
    Paints (fun p => if c then f p else p) (fun x y => c ∧ A x y) val := by
  by_cases hc : c
  · simpa only [hc, if_true, true_and] using hf hc
  · simpa only [hc, if_false, false_and] using skip

theorem ite_neg {c : Prop} [Decidable c] (hf : ¬ c → Paints f A val) :
    Paints (fun p => if c then p else f p) (fun x y => ¬ c ∧ A x y) val := by
  simpa only [ite_not] using ite hf

end Paints

/-! ### The routines of R171 to R177 as paintings -/

theorem chebyshev_le_iff {x y cx cy r : Nat} :
    chebyshev x y cx cy ≤ r ↔ (x ≤ cx + r ∧ cx ≤ x + r) ∧ y ≤ cy + r ∧ cy ≤ y + r := by
  simp only [chebyshev]
  omega

theorem chebyshev_triangle (x y a b a' b' : Nat) :
    chebyshev a b a' b' ≤ chebyshev x y a b + chebyshev x y a' b' := by
  have h := chebyshev_le_iff.mp (le_refl (chebyshev x y a b))
  have h' := chebyshev_le_iff.mp (le_refl (chebyshev x y a' b'))
  rw [chebyshev_le_iff]
  omega

/-- The values of concentric square rings about the centres: light at the distances `light` selects. -/
def ringPattern (centres : List (Nat × Nat)) (light : Nat → Bool) (x y : Nat) : Bool :=
  centres.all fun c => !light (chebyshev x y c.1 c.2)

/-- About centres far enough apart, the rings of one centre decide. -/
theorem ringPattern_eq {centres : List (Nat × Nat)} {light : Nat → Bool} {r x y : Nat} {c : Nat × Nat}
    (hl : ∀ d, light d = true → d ≤ r)
    (hsep : ∀ c ∈ centres, ∀ c' ∈ centres, c = c' ∨ 2 * r < chebyshev c.1 c.2 c'.1 c'.2)
    (hc : c ∈ centres) (h : chebyshev x y c.1 c.2 ≤ r) :
    ringPattern centres light x y = !light (chebyshev x y c.1 c.2) := by
  rw [ringPattern, Bool.eq_iff_iff, List.all_eq_true]
  refine ⟨fun hall => hall c hc, fun hne c' hc' => ?_⟩
  rcases hsep c hc c' hc' with rfl | hfar
  · exact hne
  · rw [Bool.not_eq_true']
    refine eq_false_of_ne_true fun hlight => ?_
    have hnear := hl _ hlight
    have htriangle := chebyshev_triangle x y c.1 c.2 c'.1 c'.2
    omega

/-! #### Timing -/

/-- The timing strips: column 6 and row 6 (R171). -/
abbrev timingRegion (size x y : Nat) : Prop := x < size ∧ y < size ∧ (x = 6 ∨ y = 6)

/-- The dark value of a timing module; on both strips the other coordinate is 6, which is even (R171). -/
def timingDark (x y : Nat) : Bool := (x + y) % 2 == 0

theorem paints_drawTiming {size : Nat} (hs : 7 ≤ size) (hmax : size ≤ Config.maxSize) :
    Paints (drawTiming size) (timingRegion size) timingDark := by
  refine (Paints.loop (R := fun i x y => (x = 6 ∧ y = i) ∨ (x = i ∧ y = 6)) fun i hi =>
    (Paints.setFunction (by omega) (by omega) ?_).comp
      (Paints.setFunction (by omega) (by omega) ?_)).of_iff fun x y => ?_
  · simp [timingDark, Nat.add_mod i 6]
  · simp [timingDark, Nat.add_mod 6 i]
  · constructor
    · rintro ⟨i, hi, ⟨rfl, rfl⟩ | ⟨rfl, rfl⟩⟩ <;> omega
    · rintro ⟨hx, hy, rfl | rfl⟩
      · exact ⟨y, hy, .inl ⟨rfl, rfl⟩⟩
      · exact ⟨x, hx, .inr ⟨rfl, rfl⟩⟩

/-! #### Finders -/

/-- The rings of a finder that are light: the one between the eyes and the separator (R172). -/
def finderLight (d : Nat) : Bool := d == 2 || d == 4

theorem finderLight_le (d : Nat) (h : finderLight d = true) : d ≤ 4 := by
  simp only [finderLight, Bool.or_eq_true, beq_iff_eq] at h
  omega

/-- One finder with its separator, cut at the symbol's border (R172). -/
theorem paints_drawFinder {size cx cy : Nat} {val : Nat → Nat → Bool} (hmax : size ≤ Config.maxSize)
    (hval : ∀ x y, chebyshev x y cx cy ≤ 4 → val x y = !finderLight (chebyshev x y cx cy)) :
    Paints (drawFinder size cx cy)
      (fun x y => x < size ∧ y < size ∧ chebyshev x y cx cy ≤ 4) val := by
  refine (Paints.loop (R := fun j x y => ∃ i < 9,
    ((4 ≤ cx + i ∧ cx + i < size + 4) ∧ 4 ≤ cy + j ∧ cy + j < size + 4) ∧
      x = cx + i - 4 ∧ y = cy + j - 4) fun j hj => Paints.loop fun i hi => Paints.ite fun hc =>
        Paints.setFunction (by omega) (by omega) ?_).of_iff fun x y => ?_
  · have hd : chebyshev (cx + i - 4) (cy + j - 4) cx cy = max (dist i 4) (dist j 4) :=
      congrArg₂ max (by simp only [dist]; omega) (by simp only [dist]; omega)
    rw [hval _ _ (by simp only [hd, dist]; omega), hd, finderLight, Bool.not_or]
    rfl
  · rw [chebyshev_le_iff]
    constructor
    · rintro ⟨j, hj, i, hi, hc, rfl, rfl⟩
      omega
    · intro h
      exact ⟨y + 4 - cy, by omega, x + 4 - cx, by omega, by omega⟩

/-- The three finder centres are far apart. -/
theorem finderCentres_separated {size : Nat} (hs : 21 ≤ size) :
    ∀ c ∈ finderCentres size, ∀ c' ∈ finderCentres size,
      c = c' ∨ 2 * 4 < chebyshev c.1 c.2 c'.1 c'.2 := by
  simp only [finderCentres, List.forall_mem_cons, List.not_mem_nil, false_imp_iff, implies_true, and_true,
    chebyshev, Prod.mk.injEq, true_or, true_and, and_true]
  omega

/-- The modules of the three finders and their separators (R172). -/
abbrev finderRegion (size x y : Nat) : Prop :=
  x < size ∧ y < size ∧ ∃ c ∈ finderCentres size, chebyshev x y c.1 c.2 ≤ 4

theorem paints_drawFinders {size : Nat} (hs : 21 ≤ size) (hmax : size ≤ Config.maxSize) :
    Paints (drawFinders size) (finderRegion size) (ringPattern (finderCentres size) finderLight) := by
  have one : ∀ c ∈ finderCentres size, Paints (drawFinder size c.1 c.2)
      (fun x y => x < size ∧ y < size ∧ chebyshev x y c.1 c.2 ≤ 4)
      (ringPattern (finderCentres size) finderLight) := fun c hc =>
    paints_drawFinder hmax fun x y h => ringPattern_eq finderLight_le (finderCentres_separated hs) hc h
  refine (((one (3, size - 4) (by simp [finderCentres])).comp (one (size - 4, 3) (by simp [finderCentres]))).comp
    (one (3, 3) (by simp [finderCentres]))).of_iff fun x y => ?_
  simp only [finderRegion, finderCentres, List.mem_cons, List.not_mem_nil, or_false, exists_eq_or_imp,
    exists_eq_left]
  tauto

/-! #### Alignment patterns -/

theorem mem_versions {v : Nat} : v ∈ versions ↔ validVer v := by
  simp only [versions, List.mem_map, List.mem_range]
  exact ⟨by rintro ⟨i, hi, rfl⟩; omega, fun ⟨h, h'⟩ => ⟨v - 1, by omega, by omega⟩⟩

/-- The positions are even; they are 6, or the last one, or well inside; and two of them are more than 4
apart (R173, read off for each version). -/
theorem alignCoords_facts : ∀ v ∈ versions, ∀ a ∈ alignCoords v,
    a % 2 = 0 ∧ (a = 6 ∨ 18 ≤ a ∧ (a + 7 = v * 4 + 17 ∨ a + 23 ≤ v * 4 + 17)) ∧
      ∀ b ∈ alignCoords v, a = b ∨ 4 < dist a b := by
  decide

/-- The pairs of indices whose centres lie under the finders (R174). -/
abbrev cornerPair (na i j : Nat) : Prop :=
  (i = 0 ∧ j = 0) ∨ (i = 0 ∧ j = na - 1) ∨ (i = na - 1 ∧ j = 0)

set_option maxRecDepth 4000 in
/-- Skipping three pairs of indices (R174) skips the centres under the finders. -/
theorem alignCentres_eq_pairs : ∀ v ∈ versions, alignCentres v =
    ((List.range (alignPositions v).length ×ˢ List.range (alignPositions v).length).filter fun c =>
      ¬ cornerPair (alignPositions v).length c.1 c.2).map
      fun c => ((alignPositions v).getD c.1 0, (alignPositions v).getD c.2 0) := by
  decide

theorem mem_alignCentres {v : Nat} {c : Nat × Nat} : c ∈ alignCentres v ↔
    (c.1 ∈ alignCoords v ∧ c.2 ∈ alignCoords v) ∧ c ≠ (6, 6) ∧ c ≠ (6, v * 4 + 17 - 7) ∧
      c ≠ (v * 4 + 17 - 7, 6) := by
  obtain ⟨a, b⟩ := c
  simp [alignCentres, and_assoc]

/-- The place of an alignment centre: on the axis of a timing strip or off it, never in the corners of the
finders. -/
theorem alignCentres_place {v : Nat} (hv : validVer v) {c : Nat × Nat} (hc : c ∈ alignCentres v) :
    (c.1 % 2 = 0 ∧ c.2 % 2 = 0) ∧
      ((c.1 = 6 ∧ 18 ≤ c.2 ∧ c.2 + 23 ≤ v * 4 + 17) ∨ (c.2 = 6 ∧ 18 ≤ c.1 ∧ c.1 + 23 ≤ v * 4 + 17) ∨
        (18 ≤ c.1 ∧ c.1 + 7 ≤ v * 4 + 17 ∧ 18 ≤ c.2 ∧ c.2 + 7 ≤ v * 4 + 17)) := by
  obtain ⟨⟨h1, h2⟩, hne⟩ := mem_alignCentres.mp hc
  obtain ⟨heven1, hplace1, -⟩ := alignCoords_facts v (mem_versions.mpr hv) _ h1
  obtain ⟨heven2, hplace2, -⟩ := alignCoords_facts v (mem_versions.mpr hv) _ h2
  obtain ⟨a, b⟩ := c
  simp only [ne_eq, Prod.mk.injEq] at heven1 heven2 hne hplace1 hplace2 ⊢
  refine ⟨⟨heven1, heven2⟩, ?_⟩
  rcases hplace1 with rfl | ⟨hlo1, hhi1⟩ <;> rcases hplace2 with rfl | ⟨hlo2, hhi2⟩ <;> omega

theorem alignCentres_separated {v : Nat} (hv : validVer v) :
    ∀ c ∈ alignCentres v, ∀ c' ∈ alignCentres v, c = c' ∨ 2 * 2 < chebyshev c.1 c.2 c'.1 c'.2 := by
  intro c hc c' hc'
  obtain ⟨⟨h1, h2⟩, -⟩ := mem_alignCentres.mp hc
  obtain ⟨⟨h1', h2'⟩, -⟩ := mem_alignCentres.mp hc'
  obtain ⟨-, -, hx⟩ := alignCoords_facts v (mem_versions.mpr hv) _ h1
  obtain ⟨-, -, hy⟩ := alignCoords_facts v (mem_versions.mpr hv) _ h2
  rcases hx _ h1' with e1 | far
  · rcases hy _ h2' with e2 | far
    · exact .inl (Prod.ext e1 e2)
    · exact .inr (lt_max_of_lt_right far)
  · exact .inr (lt_max_of_lt_left far)

/-- The ring of an alignment pattern that is light (R174). -/
def alignLight (d : Nat) : Bool := d == 1

theorem alignLight_le (d : Nat) (h : alignLight d = true) : d ≤ 2 := by
  simp only [alignLight, beq_iff_eq] at h
  omega

/-- One alignment pattern (R174). -/
theorem paints_drawAlignment {cx cy : Nat} {val : Nat → Nat → Bool} (hx : 2 ≤ cx ∧ cx + 2 < Config.maxSize)
    (hy : 2 ≤ cy ∧ cy + 2 < Config.maxSize)
    (hval : ∀ x y, chebyshev x y cx cy ≤ 2 → val x y = !alignLight (chebyshev x y cx cy)) :
    Paints (drawAlignment cx cy) (fun x y => chebyshev x y cx cy ≤ 2) val := by
  refine (Paints.loop (R := fun b x y => ∃ a < 5, x = cx + a - 2 ∧ y = cy + b - 2) fun b hb =>
    Paints.loop fun a ha => Paints.setFunction (by omega) (by omega) ?_).of_iff fun x y => ?_
  · have hd : chebyshev (cx + a - 2) (cy + b - 2) cx cy = max (dist a 2) (dist b 2) :=
      congrArg₂ max (by simp only [dist]; omega) (by simp only [dist]; omega)
    rw [hval _ _ (by simp only [hd, dist]; omega), hd]
    rfl
  · rw [chebyshev_le_iff]
    constructor
    · rintro ⟨b, hb, a, ha, rfl, rfl⟩
      omega
    · intro h
      exact ⟨y + 2 - cy, by omega, x + 2 - cx, by omega, by omega⟩

/-- The modules of the alignment patterns (R174). -/
abbrev alignRegion (v x y : Nat) : Prop := ∃ c ∈ alignCentres v, chebyshev x y c.1 c.2 ≤ 2

theorem paints_drawAlignments {v : Nat} (hv : validVer v) :
    Paints (drawAlignments v) (alignRegion v) (ringPattern (alignCentres v) alignLight) := by
  have hpairs := alignCentres_eq_pairs v (mem_versions.mpr hv)
  have one : ∀ c ∈ alignCentres v, Paints (drawAlignment c.1 c.2)
      (fun x y => chebyshev x y c.1 c.2 ≤ 2) (ringPattern (alignCentres v) alignLight) := by
    intro c hc
    have hplace := (alignCentres_place hv hc).2
    have hmax : Config.maxSize = 177 := rfl
    exact paints_drawAlignment (by omega) (by omega) fun x y h =>
      ringPattern_eq alignLight_le (alignCentres_separated hv) hc h
  have pair : ∀ {n i j : Nat}, i < n → j < n → (i, j) ∈ List.range n ×ˢ List.range n := fun hi hj =>
    List.pair_mem_product.mpr ⟨List.mem_range.mpr hi, List.mem_range.mpr hj⟩
  refine (Paints.loop (R := fun i x y => ∃ j < (alignPositions v).length,
    ¬ cornerPair (alignPositions v).length i j ∧
      chebyshev x y ((alignPositions v).getD i 0) ((alignPositions v).getD j 0) ≤ 2) fun i hi =>
    Paints.loop fun j hj => Paints.ite_neg fun hij => ?_).of_iff fun x y => ?_
  · refine one (_, _) ?_
    rw [hpairs]
    exact List.mem_map.mpr ⟨(i, j), List.mem_filter.mpr ⟨pair hi hj, decide_eq_true hij⟩, rfl⟩
  · rw [alignRegion, hpairs]
    simp only [List.mem_map, List.mem_filter, decide_eq_true_eq]
    constructor
    · rintro ⟨i, hi, j, hj, hij, h⟩
      exact ⟨_, ⟨(i, j), ⟨pair hi hj, hij⟩, rfl⟩, h⟩
    · rintro ⟨_, ⟨⟨i, j⟩, ⟨hmem, hij⟩, rfl⟩, h⟩
      obtain ⟨hi, hj⟩ := List.pair_mem_product.mp hmem
      exact ⟨i, List.mem_range.mp hi, j, List.mem_range.mp hj, hij, h⟩

/-! #### Format information -/

/-- The bit of the format word at a module of the format area. -/
def formatBitAt (size x y : Nat) : Option Nat :=
  if x = 8 then
    if y = size - 8 then none
    else if y < 6 then some y
    else if y = 7 then some 6
    else if y = 8 then some 7
    else some (y + 15 - size)
  else if x < 6 then some (14 - x)
  else if x = 7 then some 8
  else some (size - 1 - x)

/-- Where the format-area modules lie, and the bit each holds. -/
theorem formatModules_place {size : Nat} (hs : 21 ≤ size) : ∀ m ∈ formatModules size,
    ((m.1 = 8 ∧ (m.2.1 < 9 ∨ size - 8 ≤ m.2.1 ∧ m.2.1 < size) ∧ m.2.1 ≠ 6) ∨
      (m.2.1 = 8 ∧ (m.1 < 9 ∨ size - 8 ≤ m.1 ∧ m.1 < size) ∧ m.1 ≠ 6)) ∧
    formatBitAt size m.1 m.2.1 = m.2.2 := by
  intro m hm
  simp only [formatModules, List.mem_append, List.mem_map, List.mem_range, List.mem_cons, List.not_mem_nil,
    or_false] at hm
  rcases hm with (((((⟨i, hi, rfl⟩ | rfl | rfl | rfl) | ⟨i, hi, rfl⟩) | ⟨i, hi, rfl⟩) | ⟨i, hi, rfl⟩) | rfl)
  all_goals exact ⟨by dsimp only; omega, by grind [formatBitAt]⟩

/-- Drawing the format information sets the listed modules one after the other (R176). -/
theorem drawFormat_eq_foldl {size : Nat} (hs : 21 ≤ size) (e : Ecl) (mask : Nat) (p : Planes) :
    drawFormat size e mask p = (formatModules size).foldl
      (fun p m => p.setFunction m.1 m.2.1 (formatBitOf (formatBits e mask) m.2.2)) p := by
  obtain ⟨n, rfl⟩ : ∃ n, size = n + 15 := ⟨size - 15, by omega⟩
  simp [drawFormat, formatModules, loop, List.range, List.range.loop, formatBitOf]

/-- The modules of the format area (R176). -/
abbrev formatRegion (size x y : Nat) : Prop := ∃ m ∈ formatModules size, m.1 = x ∧ m.2.1 = y

theorem paints_drawFormat {size : Nat} (hs : 21 ≤ size) (hmax : size ≤ Config.maxSize) (e : Ecl) (mask : Nat) :
    Paints (drawFormat size e mask) (formatRegion size)
      (fun x y => formatBitOf (formatBits e mask) (formatBitAt size x y)) := by
  rw [show drawFormat size e mask = _ from funext (drawFormat_eq_foldl hs e mask)]
  refine Paints.foldl fun m hm => ?_
  obtain ⟨hplace, hbit⟩ := formatModules_place hs m hm
  rw [hbit]
  exact ⟨by omega, by omega, rfl⟩

set_option maxRecDepth 4000 in
/-- The format word is that of R176. -/
theorem isFormatWord_formatBits (e : Ecl) : ∀ mask < 8, IsFormatWord e mask (formatBits e mask) := by
  unfold IsFormatWord
  cases e <;> decide

/-! #### Version information -/

theorem mem_versionModules {v : Nat} {m : Nat × Nat × Nat} : m ∈ versionModules v ↔
    ∃ k < 18, m = ((v * 4 + 17) - 11 + k % 3, k / 3, k) ∨ m = (k / 3, (v * 4 + 17) - 11 + k % 3, k) := by
  simp [versionModules]

/-- The bit of the version word at a module of the version information. -/
def versionBitAt (v x y : Nat) : Nat :=
  if x < 6 then 3 * x + (y - (v * 4 + 17 - 11)) else 3 * y + (x - (v * 4 + 17 - 11))

/-- Where the version modules lie, and the bit each holds. -/
theorem versionModules_place {v : Nat} : ∀ m ∈ versionModules v,
    ((m.1 < 6 ∧ v * 4 + 17 - 11 ≤ m.2.1 ∧ m.2.1 < v * 4 + 17 - 8) ∨
      (m.2.1 < 6 ∧ v * 4 + 17 - 11 ≤ m.1 ∧ m.1 < v * 4 + 17 - 8)) ∧
    versionBitAt v m.1 m.2.1 = m.2.2 := by
  intro m hm
  obtain ⟨k, hk, rfl | rfl⟩ := mem_versionModules.mp hm
  · rw [versionBitAt, if_neg (by omega)]
    dsimp only
    omega
  · rw [versionBitAt, if_pos (by omega)]
    dsimp only
    omega

/-- The modules of the version information, from version 7 on (R177). -/
abbrev versionRegion (v x y : Nat) : Prop := 7 ≤ v ∧ ∃ m ∈ versionModules v, m.1 = x ∧ m.2.1 = y

theorem paints_drawVersion {v : Nat} (hv : validVer v) : Paints (drawVersion v) (versionRegion v)
      (fun x y => (versionBits v).testBit (versionBitAt v x y)) := by
  have hmax : Config.maxSize = 177 := rfl
  have bound : ∀ i < 18, v * 4 + 17 - 11 + i % 3 < Config.maxSize ∧ i / 3 < Config.maxSize := by omega
  have bit : ∀ m ∈ versionModules v,
      (versionBits v).testBit (versionBitAt v m.1 m.2.1) = (versionBits v).testBit m.2.2 :=
    fun m hm => by rw [(versionModules_place m hm).2]
  refine (Paints.ite_neg fun _ => Paints.loop (R := fun i x y =>
    (x = v * 4 + 17 - 11 + i % 3 ∧ y = i / 3) ∨ (x = i / 3 ∧ y = v * 4 + 17 - 11 + i % 3)) fun i hi =>
      (Paints.setFunction (bound i hi).2 (bound i hi).1
        (bit (_, _, i) (mem_versionModules.mpr ⟨i, hi, .inr rfl⟩))).comp
      (Paints.setFunction (bound i hi).1 (bound i hi).2
        (bit (_, _, i) (mem_versionModules.mpr ⟨i, hi, .inl rfl⟩)))).of_iff fun x y => ?_
  simp only [versionRegion, mem_versionModules, Nat.not_lt]
  refine and_congr_right fun _ => ⟨?_, ?_⟩
  · rintro ⟨i, hi, ⟨rfl, rfl⟩ | ⟨rfl, rfl⟩⟩
    · exact ⟨_, ⟨i, hi, .inl rfl⟩, rfl, rfl⟩
    · exact ⟨_, ⟨i, hi, .inr rfl⟩, rfl, rfl⟩
  · rintro ⟨m, ⟨i, hi, rfl | rfl⟩, rfl, rfl⟩
    · exact ⟨i, hi, .inl ⟨rfl, rfl⟩⟩
    · exact ⟨i, hi, .inr ⟨rfl, rfl⟩⟩

/-- The version word is that of R177. -/
theorem isVersionWord_versionBits : ∀ v ∈ versions, IsVersionWord v (versionBits v) := by
  unfold IsVersionWord
  decide +kernel

/-! ### What MX_INIT draws (R170) -/

/-- A version's symbol fits the planes and holds the patterns. -/
theorem validVer.size {v : Nat} (hv : validVer v) :
    21 ≤ v * 4 + 17 ∧ v * 4 + 17 ≤ Config.maxSize := by
  have hmax : Config.maxSize = 177 := rfl
  omega

/-! #### Where the regions lie -/

theorem finderRegion.place {size x y : Nat} (h : finderRegion size x y) :
    x < size ∧ y < size ∧ ((x ≤ 7 ∧ y ≤ 7) ∨ (size ≤ x + 8 ∧ y ≤ 7) ∨ (x ≤ 7 ∧ size ≤ y + 8)) := by
  obtain ⟨hx, hy, c, hc, hd⟩ := h
  simp only [finderCentres, List.mem_cons, List.not_mem_nil, or_false] at hc
  rw [chebyshev_le_iff] at hd
  rcases hc with rfl | rfl | rfl <;> omega

/-- An alignment pattern lies across a timing strip, or inside the symbol away from the finders. -/
theorem alignRegion.place {v x y : Nat} (hv : validVer v) (h : alignRegion v x y) :
    (4 ≤ x ∧ x ≤ 8 ∧ 16 ≤ y ∧ y + 21 ≤ v * 4 + 17) ∨ (4 ≤ y ∧ y ≤ 8 ∧ 16 ≤ x ∧ x + 21 ≤ v * 4 + 17) ∨
      (16 ≤ x ∧ x + 5 ≤ v * 4 + 17 ∧ 16 ≤ y ∧ y + 5 ≤ v * 4 + 17) := by
  obtain ⟨c, hc, hd⟩ := h
  obtain ⟨-, hplace⟩ := alignCentres_place hv hc
  rw [chebyshev_le_iff] at hd
  rcases hplace with h | h | h <;> omega

theorem formatRegion.place {size x y : Nat} (hs : 21 ≤ size) (h : formatRegion size x y) :
    (x = 8 ∧ (y < 9 ∨ size ≤ y + 8 ∧ y < size) ∧ y ≠ 6) ∨
      (y = 8 ∧ (x < 9 ∨ size ≤ x + 8 ∧ x < size) ∧ x ≠ 6) := by
  obtain ⟨m, hm, rfl, rfl⟩ := h
  obtain ⟨hplace, -⟩ := formatModules_place hs m hm
  omega

theorem versionRegion.place {v x y : Nat} (h : versionRegion v x y) :
    7 ≤ v ∧ ((x < 6 ∧ v * 4 + 6 ≤ y ∧ y < v * 4 + 9) ∨ (y < 6 ∧ v * 4 + 6 ≤ x ∧ x < v * 4 + 9)) := by
  obtain ⟨hv, m, hm, rfl, rfl⟩ := h
  obtain ⟨hplace, -⟩ := versionModules_place m hm
  omega

/-- An alignment pattern on a timing strip agrees with the strip (R171, R174). -/
theorem ringPattern_align_eq_timingDark {v x y : Nat} (hv : validVer v) (h : alignRegion v x y)
    (ht : x = 6 ∨ y = 6) : ringPattern (alignCentres v) alignLight x y = timingDark x y := by
  obtain ⟨c, hc, hd⟩ := h
  obtain ⟨heven, hplace⟩ := alignCentres_place hv hc
  rw [ringPattern_eq alignLight_le (alignCentres_separated hv) hc hd, Bool.eq_iff_iff]
  rw [chebyshev_le_iff] at hd
  simp only [alignLight, timingDark, chebyshev, Bool.not_eq_true', beq_eq_false_iff_ne, beq_iff_eq]
  rcases ht with rfl | rfl <;> rcases hplace with h | h | h <;> omega

/-! #### The planes MX_INIT leaves -/

/-- The function modules are the regions of the five patterns. -/
theorem drawPatterns_func_iff {v : Nat} (hv : validVer v) (e : Ecl) (x y : Nat) :
    (drawPatterns v e).func.get x y = true ↔
      versionRegion v x y ∨ formatRegion (v * 4 + 17) x y ∨ alignRegion v x y ∨
        finderRegion (v * 4 + 17) x y ∨ timingRegion (v * 4 + 17) x y := by
  obtain ⟨hs, hmax⟩ := hv.size
  rw [drawPatterns, (paints_drawVersion hv).func_iff, (paints_drawFormat hs hmax e 0).func_iff,
    (paints_drawAlignments hv).func_iff, (paints_drawFinders hs hmax).func_iff,
    (paints_drawTiming (by omega) hmax).func_iff, Planes.zero, Plane.get_zero, eq_false Bool.false_ne_true,
    or_false]

theorem drawPatterns_dark_of_version {v : Nat} (hv : validVer v) (e : Ecl) {x y : Nat}
    (h : versionRegion v x y) :
    (drawPatterns v e).dark.get x y = (versionBits v).testBit (versionBitAt v x y) :=
  (paints_drawVersion hv).dark_mem _ x y h

theorem drawPatterns_dark_of_format {v : Nat} (hv : validVer v) (e : Ecl) {x y : Nat}
    (h : formatRegion (v * 4 + 17) x y) :
    (drawPatterns v e).dark.get x y =
      formatBitOf (formatBits e 0) (formatBitAt (v * 4 + 17) x y) := by
  obtain ⟨hs, hmax⟩ := hv.size
  have hplace := h.place hs
  have hversion : ¬ versionRegion v x y := fun h' => by have := h'.place; omega
  rw [drawPatterns, (paints_drawVersion hv).dark_not_mem _ x y hversion,
    (paints_drawFormat hs hmax e 0).dark_mem _ x y h]

/-- Outside the format area and the version information the other patterns stay as drawn. -/
theorem drawPatterns_dark_of_not_information {v : Nat} (hv : validVer v) (e : Ecl) {x y : Nat}
    (hformat : ¬ formatRegion (v * 4 + 17) x y) (hversion : ¬ versionRegion v x y) :
    (drawPatterns v e).dark.get x y = (drawAlignments v (drawFinders (v * 4 + 17)
      (drawTiming (v * 4 + 17) Planes.zero))).dark.get x y := by
  obtain ⟨hs, hmax⟩ := hv.size
  rw [drawPatterns, (paints_drawVersion hv).dark_not_mem _ x y hversion,
    (paints_drawFormat hs hmax e 0).dark_not_mem _ x y hformat]

theorem drawPatterns_dark_of_align {v : Nat} (hv : validVer v) (e : Ecl) {x y : Nat}
    (h : alignRegion v x y) :
    (drawPatterns v e).dark.get x y = ringPattern (alignCentres v) alignLight x y := by
  have hplace := h.place hv
  rw [drawPatterns_dark_of_not_information hv e (fun h' => by have := h'.place hv.size.1; omega)
    (fun h' => by have := h'.place; omega), (paints_drawAlignments hv).dark_mem _ x y h]

theorem drawPatterns_dark_of_finder {v : Nat} (hv : validVer v) (e : Ecl) {x y : Nat}
    (h : finderRegion (v * 4 + 17) x y) :
    (drawPatterns v e).dark.get x y = ringPattern (finderCentres (v * 4 + 17)) finderLight x y := by
  obtain ⟨hs, hmax⟩ := hv.size
  have hplace := h.place
  rw [drawPatterns_dark_of_not_information hv e (fun h' => by have := h'.place hs; omega)
    (fun h' => by have := h'.place; omega),
    (paints_drawAlignments hv).dark_not_mem _ x y (fun h' => by have := h'.place hv; omega),
    (paints_drawFinders hs hmax).dark_mem _ x y h]

theorem drawPatterns_dark_of_timing {v : Nat} (hv : validVer v) (e : Ecl) {x y : Nat}
    (h : timingRegion (v * 4 + 17) x y) (hfinder : ¬ finderRegion (v * 4 + 17) x y) :
    (drawPatterns v e).dark.get x y = timingDark x y := by
  obtain ⟨hs, hmax⟩ := hv.size
  by_cases halign : alignRegion v x y
  · rw [drawPatterns_dark_of_align hv e halign, ringPattern_align_eq_timingDark hv halign h.2.2]
  · rw [drawPatterns_dark_of_not_information hv e (fun h' => by have := h'.place hs; omega)
      (fun h' => by have := h'.place; omega), (paints_drawAlignments hv).dark_not_mem _ x y halign,
      (paints_drawFinders hs hmax).dark_not_mem _ x y hfinder,
      (paints_drawTiming (by omega) hmax).dark_mem _ x y h]

theorem drawPatterns_dark_of_not_func {v : Nat} (hv : validVer v) (e : Ecl) {x y : Nat}
    (h : (drawPatterns v e).func.get x y = false) : (drawPatterns v e).dark.get x y = false := by
  obtain ⟨hs, hmax⟩ := hv.size
  rw [← Bool.not_eq_true, drawPatterns_func_iff hv] at h
  simp only [not_or] at h
  obtain ⟨hversion, hformat, halign, hfinder, htiming⟩ := h
  rw [drawPatterns_dark_of_not_information hv e hformat hversion,
    (paints_drawAlignments hv).dark_not_mem _ x y halign,
    (paints_drawFinders hs hmax).dark_not_mem _ x y hfinder,
    (paints_drawTiming (by omega) hmax).dark_not_mem _ x y htiming]
  exact Plane.get_zero x y

/-- No function module lies outside the symbol. -/
theorem drawPatterns_func_lt {v : Nat} (hv : validVer v) (e : Ecl) {x y : Nat}
    (h : (drawPatterns v e).func.get x y = true) : x < v * 4 + 17 ∧ y < v * 4 + 17 := by
  obtain ⟨hs, -⟩ := hv.size
  rcases (drawPatterns_func_iff hv e x y).mp h with h | h | h | h | h
  · have := h.place
    omega
  · have := h.place hs
    omega
  · have := h.place hv
    omega
  · exact ⟨h.1, h.2.1⟩
  · exact ⟨h.1, h.2.1⟩

/-! ### The geometry of the function patterns -/

section

variable {v : Nat} (hv : validVer v) (e : Ecl)

include hv

/-- Between the finders the strips of R171 stand, also where an alignment pattern lies on them. -/
theorem drawPatterns_timing {i : Nat} (h8 : 8 ≤ i) (hi : i < v * 4 + 17 - 8) :
    ((drawPatterns v e).func.get i 6 = true ∧ (drawPatterns v e).dark.get i 6 = (i % 2 == 0)) ∧
      (drawPatterns v e).func.get 6 i = true ∧ (drawPatterns v e).dark.get 6 i = (i % 2 == 0) := by
  have strip : ∀ {x y : Nat}, timingRegion (v * 4 + 17) x y → ¬ finderRegion (v * 4 + 17) x y →
      (drawPatterns v e).func.get x y = true ∧ (drawPatterns v e).dark.get x y = timingDark x y :=
    fun h hf => ⟨(drawPatterns_func_iff hv e _ _).mpr (.inr (.inr (.inr (.inr h)))),
      drawPatterns_dark_of_timing hv e h hf⟩
  have hrow : timingDark i 6 = (i % 2 == 0) := by simp [timingDark, Nat.add_mod i 6]
  have hcolumn : timingDark 6 i = (i % 2 == 0) := by simp [timingDark, Nat.add_mod 6 i]
  constructor
  · rw [← hrow]
    exact strip (by omega) fun h => by have := h.place; omega
  · rw [← hcolumn]
    exact strip (by omega) fun h => by have := h.place; omega

theorem drawPatterns_finder {c : Nat × Nat} (hc : c ∈ finderCentres (v * 4 + 17)) {x y : Nat}
    (hx : x < v * 4 + 17) (hy : y < v * 4 + 17) (hd : chebyshev x y c.1 c.2 ≤ 4) :
    (drawPatterns v e).func.get x y = true ∧
      (drawPatterns v e).dark.get x y = (chebyshev x y c.1 c.2 != 2 && chebyshev x y c.1 c.2 != 4) := by
  have h : finderRegion (v * 4 + 17) x y := ⟨hx, hy, c, hc, hd⟩
  refine ⟨(drawPatterns_func_iff hv e x y).mpr (.inr (.inr (.inr (.inl h)))), ?_⟩
  rw [drawPatterns_dark_of_finder hv e h,
    ringPattern_eq finderLight_le (finderCentres_separated hv.size.1) hc hd, finderLight, Bool.not_or]
  rfl

theorem drawPatterns_align {c : Nat × Nat} (hc : c ∈ alignCentres v) {x y : Nat}
    (hd : chebyshev x y c.1 c.2 ≤ 2) :
    (drawPatterns v e).func.get x y = true ∧
      (drawPatterns v e).dark.get x y = (chebyshev x y c.1 c.2 != 1) := by
  have h : alignRegion v x y := ⟨c, hc, hd⟩
  refine ⟨(drawPatterns_func_iff hv e x y).mpr (.inr (.inr (.inl h))), ?_⟩
  rw [drawPatterns_dark_of_align hv e h, ringPattern_eq alignLight_le (alignCentres_separated hv) hc hd]
  rfl

theorem drawPatterns_format {m : Nat × Nat × Option Nat} (hm : m ∈ formatModules (v * 4 + 17)) :
    (drawPatterns v e).func.get m.1 m.2.1 = true ∧
      (drawPatterns v e).dark.get m.1 m.2.1 = formatBitOf (formatBits e 0) m.2.2 := by
  have h : formatRegion (v * 4 + 17) m.1 m.2.1 := ⟨m, hm, rfl, rfl⟩
  refine ⟨(drawPatterns_func_iff hv e _ _).mpr (.inr (.inl h)), ?_⟩
  rw [drawPatterns_dark_of_format hv e h, (formatModules_place hv.size.1 m hm).2]

/-- Below version 7 the modules of the version information are free (R177). -/
theorem drawPatterns_version {m : Nat × Nat × Nat} (hm : m ∈ versionModules v) :
    (drawPatterns v e).func.get m.1 m.2.1 = decide (7 ≤ v) ∧
      (drawPatterns v e).dark.get m.1 m.2.1 = (decide (7 ≤ v) && (versionBits v).testBit m.2.2) := by
  obtain ⟨hplace, hbit⟩ := versionModules_place m hm
  by_cases h7 : 7 ≤ v
  · have h : versionRegion v m.1 m.2.1 := ⟨h7, m, hm, rfl, rfl⟩
    rw [decide_eq_true h7, Bool.true_and, drawPatterns_dark_of_version hv e h, hbit]
    exact ⟨(drawPatterns_func_iff hv e _ _).mpr (.inl h), rfl⟩
  · have hfree : (drawPatterns v e).func.get m.1 m.2.1 = false := by
      rw [← Bool.not_eq_true, drawPatterns_func_iff hv]
      rintro (h | h | h | h | h)
      · exact h7 h.1
      · have := h.place hv.size.1
        omega
      · have := h.place hv
        omega
      · have := h.place
        omega
      · have := h.2.2
        omega
    rw [decide_eq_false h7, Bool.false_and]
    exact ⟨hfree, drawPatterns_dark_of_not_func hv e hfree⟩

theorem drawPatterns_func_cases {x y : Nat} (h : (drawPatterns v e).func.get x y = true) :
    x = 6 ∨ y = 6 ∨ (∃ c ∈ finderCentres (v * 4 + 17), chebyshev x y c.1 c.2 ≤ 4) ∨
      (∃ c ∈ alignCentres v, chebyshev x y c.1 c.2 ≤ 2) ∨
      (∃ m ∈ formatModules (v * 4 + 17), (m.1, m.2.1) = (x, y)) ∨
      (7 ≤ v ∧ ∃ m ∈ versionModules v, (m.1, m.2.1) = (x, y)) := by
  simp only [Prod.mk.injEq]
  rcases (drawPatterns_func_iff hv e x y).mp h with h | h | h | ⟨-, -, h⟩ | ⟨-, -, h | h⟩
  · exact .inr (.inr (.inr (.inr (.inr h))))
  · exact .inr (.inr (.inr (.inr (.inl h))))
  · exact .inr (.inr (.inr (.inl h)))
  · exact .inr (.inr (.inl h))
  · exact .inl h
  · exact .inr (.inl h)

end

/-- Settles O52: each pattern is a region MX_INIT paints, and the regions meet only where they agree. -/
theorem functionPatternGeometry : Obligations.FunctionPatternGeometry := by
  refine ⟨by decide, fun v e hv => ⟨fun i h8 hi => ?_,
    fun c hc x y hx hy hd => drawPatterns_finder hv e hc hx hy hd,
    fun c hc x y hd => drawPatterns_align hv e hc hd,
    ⟨_, isFormatWord_formatBits e 0 (by decide), fun m hm => drawPatterns_format hv e hm⟩,
    ⟨_, isVersionWord_versionBits v (mem_versions.mpr hv), fun m hm => drawPatterns_version hv e hm⟩,
    fun x y h => drawPatterns_dark_of_not_func hv e h, fun x y h => ?_⟩⟩
  · simpa only [and_assoc] using drawPatterns_timing hv e h8 hi
  · obtain ⟨hx, hy⟩ := drawPatterns_func_lt hv e h
    exact ⟨hx, hy, drawPatterns_func_cases hv e h⟩

end Sys2Proof.Machine

/-! ## Every step keeps a legal state legal -/

namespace Sys2Proof.Machine

/-! ### Operations on a built symbol keep FUNC and the border -/

theorem Plane.within_set {size x y : Nat} {p : Plane} (d : Bool) (h : p.within size = true) (hx : x < size)
    (hy : y < size) : (p.set x y d).within size = true := by
  rw [Plane.within_iff] at h ⊢
  intro x' y' hout
  rw [Plane.get_set, if_neg (by omega)]
  exact h x' y' hout

/-- The planes have the function modules `f` and are light outside the symbol region. -/
def Planes.Fits (size : Nat) (f : Plane) (p : Planes) : Prop := p.func = f ∧ p.dark.within size = true

namespace Planes.Fits

variable {size : Nat} {f : Plane} {p : Planes}

theorem setDark {x y : Nat} (d : Bool) (h : p.Fits size f) (hx : x < size) (hy : y < size) :
    (p.setDark x y d).Fits size f :=
  ⟨h.1, Plane.within_set d h.2 hx hy⟩

theorem applyMask (k : Nat) (h : p.Fits size f) : (applyMask size k p).Fits size f := by
  refine loop_induction h fun y q hy hq => loop_induction hq fun x q hx hq => ?_
  split
  · exact hq.setDark _ hx hy
  · exact hq

/-- Redrawing the format information changes only DARK, where the format area is function modules (R182). -/
theorem drawFormat (hs : 21 ≤ size) (hmax : size ≤ Config.maxSize)
    (hf : ∀ m ∈ formatModules size, f.get m.1 m.2.1 = true) (e : Ecl) (mask : Nat) (h : p.Fits size f) :
    (drawFormat size e mask p).Fits size f := by
  obtain ⟨hfunc, hdark⟩ := h
  have paints := paints_drawFormat hs hmax e mask
  constructor
  · refine Plane.ext_get fun x y => Bool.eq_iff_iff.mpr ?_
    rw [paints.func_iff, hfunc]
    refine ⟨?_, .inr⟩
    rintro (⟨m, hm, rfl, rfl⟩ | h)
    · exact hf m hm
    · exact h
  · rw [Plane.within_iff] at hdark ⊢
    intro x y hout
    rw [paints.dark_not_mem _ x y fun h => by have := h.place hs; omega]
    exact hdark x y hout

theorem masked (hs : 21 ≤ size) (hmax : size ≤ Config.maxSize)
    (hf : ∀ m ∈ formatModules size, f.get m.1 m.2.1 = true) (e : Ecl) (k : Nat) (h : p.Fits size f) :
    (masked size e k p).Fits size f :=
  (h.applyMask k).drawFormat hs hmax hf e k

theorem selectMask (hs : 21 ≤ size) (hmax : size ≤ Config.maxSize)
    (hf : ∀ m ∈ formatModules size, f.get m.1 m.2.1 = true) (e : Ecl) (h : p.Fits size f) :
    (selectMask size e p).1.Fits size f :=
  loop_induction (P := fun r : Planes × Option (Nat × Nat) => r.1.Fits size f) h fun k _ _ hr =>
    (hr.masked hs hmax hf e k).applyMask k

end Planes.Fits

/-! The zig-zag of R179 stays in the symbol region. -/

theorem le_of_mem_pairColumns {fuel right c : Nat} (h : c ∈ pairColumns fuel right) : c ≤ right := by
  induction fuel generalizing right with
  | zero => simp [pairColumns] at h
  | succ fuel ih =>
    simp only [pairColumns] at h
    split at h
    · simp at h
    · rw [List.mem_cons] at h
      rcases h with rfl | h
      · split <;> omega
      · have := ih h
        split at this <;> omega

theorem lt_of_mem_zigzag {size : Nat} {m : Nat × Nat} (h : m ∈ zigzag size) : m.1 < size ∧ m.2 < size := by
  simp only [zigzag, pairModules, List.mem_flatMap, List.mem_cons, List.not_mem_nil, or_false,
    List.mem_range] at h
  obtain ⟨right, hright, vert, hvert, hm⟩ := h
  have := le_of_mem_pairColumns hright
  have hrow : (if ((right + 1) &&& 2) == 0 then size - 1 - vert else vert) < size := by split <;> omega
  rcases hm with rfl | rfl
  · exact ⟨by omega, hrow⟩
  · exact ⟨by omega, hrow⟩

theorem within_placeBits {size : Nat} (func : Plane) {ms : List (Nat × Nat)} :
    ∀ {bs : List Bool} {placed : Nat} {dark : Plane}, (∀ m ∈ ms, m.1 < size ∧ m.2 < size) →
      dark.within size = true → (placeBits func ms bs placed dark).1.within size = true := by
  induction ms with
  | nil => intro bs placed dark _ h; exact h
  | cons m ms ih =>
    intro bs placed dark hms h
    obtain ⟨hm, hms⟩ := List.forall_mem_cons.mp hms
    cases bs with
    | nil => exact h
    | cons b bs =>
      rw [placeBits]
      split
      · exact ih hms h
      · exact ih hms (Plane.within_set b h hm.1 hm.2)

theorem Planes.Fits.place {size : Nat} {f : Plane} {p : Planes} (cw : List Byte) (h : p.Fits size f) :
    (place size cw p).1.Fits size f :=
  ⟨h.1, within_placeBits p.func (fun _ hm => lt_of_mem_zigzag hm) h.2⟩

/-! ### The invariant of a state whose symbol changes -/

/-- What MX_INIT draws is a legal symbol. -/
theorem drawPatterns_within {v : Nat} (hv : validVer v) (e : Ecl) :
    (drawPatterns v e).func.within (v * 4 + 17) = true ∧
      (drawPatterns v e).dark.within (v * 4 + 17) = true := by
  have hout : ∀ x y, v * 4 + 17 ≤ x ∨ v * 4 + 17 ≤ y → (drawPatterns v e).func.get x y = false := by
    intro x y hxy
    rw [← Bool.not_eq_true]
    intro h
    have := drawPatterns_func_lt hv e h
    omega
  exact ⟨Plane.within_iff.mpr hout,
    Plane.within_iff.mpr fun x y hxy => drawPatterns_dark_of_not_func hv e (hout x y hxy)⟩

/-- A symbol whose function modules stand and that stays light outside its region is legal. -/
theorem State.Inv.with_planes {s : State} (h : s.Inv) (hbuilt : s.mxState ≠ .unbuilt) {q : Planes}
    (hq : q.Fits s.mxSize s.planes.func) {m : MxState} {maskV : Bool}
    (hm : m ≠ .unbuilt) (hmask : maskV = true ↔ m = .finalized) :
    State.Inv { s with planes := q, mxState := m, mxMaskV := maskV } := by
  obtain ⟨hstores, hdivisor, herror, hsegtab, -, hok, -⟩ := h
  obtain ⟨hv, hfunc, hwithin, -, hformat⟩ := hok hbuilt
  obtain ⟨hqfunc, hqdark⟩ := hq
  refine ⟨hstores, hdivisor, herror, hsegtab, fun h => absurd h hm, fun _ => ?_, hmask⟩
  show validVer _ ∧ q.func = _ ∧ q.func.within _ = true ∧ q.dark.within _ = true ∧ ∀ m ∈ _, q.func.get _ _ = true
  rw [hqfunc]
  exact ⟨hv, hfunc, hwithin, hqdark, hformat⟩

/-! ### Sizes the stores' bounds rest on -/

/-- The bounds of the tables of R54 and R55 that the stores rely on, read off for each version and level. -/
theorem table_bounds : ∀ v ∈ versions, ∀ e ∈ Ecl.ordered,
    (1 ≤ eccPerBlock e v ∧ eccPerBlock e v ≤ 30) ∧ rawCw v + numBlocks e v ≤ Config.rawSize ∧
      capBits v e ≤ Config.bbCap := by
  decide

theorem Ecl.mem_ordered (e : Ecl) : e ∈ Ecl.ordered := by cases e <;> decide

theorem length_interleave_le {v : Nat} (hv : validVer v) (e : Ecl) (data : List Byte) :
    (interleave v e data).length ≤ Config.rawSize := by
  obtain ⟨-, hraw, -⟩ := table_bounds v (mem_versions.mpr hv) e e.mem_ordered
  have hround : (interleave v e data).length ≤ ((split v e).sl + 1) * (split v e).nb := by
    rw [interleave, roundRobin, List.length_flatMap]
    refine (List.sum_le_card_nsmul _ (split v e).nb fun n hn => ?_).trans (by simp)
    obtain ⟨c, -, rfl⟩ := List.mem_map.mp hn
    rw [List.length_flatMap]
    refine (List.sum_le_card_nsmul _ 1 fun n hn => ?_).trans (by simp)
    obtain ⟨i, -, rfl⟩ := List.mem_map.mp hn
    split <;> simp
  have hdiv : rawCw v / numBlocks e v * numBlocks e v ≤ rawCw v := Nat.div_mul_le_self _ _
  simp only [split, Nat.add_mul, Nat.one_mul] at hround
  omega

theorem length_padded_le {cap : Nat} {bb : List Bool} (h8 : cap % 8 = 0) (h : bb.length ≤ cap) :
    (padded cap bb).length ≤ cap := by
  simp only [padded, List.length_append, length_msbBits, length_padBytes]
  omega

theorem Mode.ofCode_isSome_mod {n : Nat} (h : Mode.ofCode n ≠ none) :
    (Mode.ofCode (BitVec.ofNat 4 n).toNat).isSome = true := by
  unfold Mode.ofCode at h
  split_ifs at h with h1 h2 h4 h8 h7
  · subst h1; rfl
  · subst h2; rfl
  · subst h4; rfl
  · subst h8; rfl
  · subst h7; rfl
  · exact absurd rfl h

/-! ### Every command keeps the invariant -/

/-- The checks and writes of a command keep a legal state legal. -/
def KeepsInv (body : State → Except Raised State) : Prop := ∀ s t, s.Inv → body s = .ok t → t.Inv

/-- An error records itself and writes no store (R217). -/
theorem State.Inv.raise {s : State} (h : s.Inv) (e : Raised) (opc : BitVec 8) : (raise e opc s).Inv := by
  obtain ⟨hstores, hdivisor, -, hsegtab, hunbuilt, hbuilt, hmask⟩ := h
  have herror : (Machine.raise e opc s).ErrorOk := fun h => by simp at h
  cases e <;> exact ⟨hstores, hdivisor, herror, hsegtab, hunbuilt, hbuilt, hmask⟩

/-- A command whose body keeps the invariant keeps it, dropped, completed or in error. -/
theorem KeepsInv.command {opc : BitVec 8} {body : State → Except Raised State} (hbody : KeepsInv body)
    {s t : State} (hs : s.Inv) (h : command opc body s = .next t) : t.Inv := by
  obtain ⟨t', ht', hcases⟩ := command_cases (opc := opc) (body := body) (s := s)
  obtain rfl : t' = t := by simpa using ht'.symm.trans h
  rcases hcases with ⟨-, rfl⟩ | ⟨-, u, hu, rfl⟩ | ⟨-, e, -, rfl⟩
  · exact hs
  · exact hbody s u hs hu
  · exact hs.raise e opc

/-- An append stays within the capacity (R38, R111). -/
theorem State.Inv.appendBits {s t : State} {bs : List Bool} (hs : s.Inv) (h : appendBits bs s = .ok t) :
    t.Inv := by
  rcases appendBits_cases bs s with ⟨hlen, hok⟩ | ⟨-, herr⟩
  · obtain rfl : { s with bb := s.bb ++ bs } = t := by simpa [hok] using h
    obtain ⟨⟨-, hmem⟩, hrest⟩ := hs
    exact ⟨⟨by simpa using hlen, hmem⟩, hrest⟩
  · simp [herr] at h

section

variable {s t : State} (hs : s.Inv)

include hs

/-! #### Bit buffer -/

theorem State.Inv.execBbClr (h : execBbClr s = .next t) : t.Inv := by
  refine KeepsInv.command (fun s t hs h => ?_) hs h
  cases h
  obtain ⟨⟨-, hmem⟩, hrest⟩ := hs
  exact ⟨⟨Nat.zero_le _, hmem⟩, hrest⟩

theorem State.Inv.execBbApb {width : Nat} (h : execBbApb width s = .next t) : t.Inv := by
  refine KeepsInv.command (fun s t hs h => ?_) hs h
  split_ifs at h
  exact hs.appendBits h

theorem State.Inv.execBbApby {n : Nat} (h : execBbApby n s = .next t) : t.Inv := by
  refine KeepsInv.command (fun s t hs h => ?_) hs h
  split_ifs at h
  exact hs.appendBits h

theorem State.Inv.execBbApnum {n : Nat} (h : execBbApnum n s = .next t) : t.Inv := by
  refine KeepsInv.command (fun s t hs h => ?_) hs h
  split_ifs at h
  exact hs.appendBits h

theorem State.Inv.execBbApaln {n : Nat} (h : execBbApaln n s = .next t) : t.Inv := by
  refine KeepsInv.command (fun s t hs h => ?_) hs h
  split_ifs at h
  · split at h
    · exact hs.appendBits h
    · cases h
    · cases h
  · split at h
    · exact hs.appendBits h
    · cases h

theorem State.Inv.execBbApeci (h : execBbApeci s = .next t) : t.Inv := by
  refine KeepsInv.command (fun s t hs h => ?_) hs h
  split_ifs at h
  exact hs.appendBits h

theorem State.Inv.execSegHdr {mode : Nat} (h : execSegHdr mode s = .next t) : t.Inv := by
  refine KeepsInv.command (fun s t hs h => ?_) hs h
  split at h
  · cases h
  · dsimp only at h
    split_ifs at h
    exact hs.appendBits h

/-- TERMPAD fills the buffer up to the symbol's capacity, which the buffer holds (R150). -/
theorem State.Inv.execTermpad (h : execTermpad s = .next t) : t.Inv := by
  refine KeepsInv.command (fun s t hs h => ?_) hs h
  dsimp only at h
  split_ifs at h with hv hcap
  cases h
  obtain ⟨-, -, hbound⟩ := table_bounds _ (mem_versions.mpr hv) s.cfg.ecl s.cfg.ecl.mem_ordered
  obtain ⟨⟨-, hmem⟩, hrest⟩ := hs
  exact ⟨⟨(length_padded_le (Nat.mul_mod_left _ _) (Nat.le_of_not_lt hcap)).trans hbound, hmem⟩, hrest⟩

/-! #### Byte stores, divisor and remainder -/

theorem State.Inv.execMemwr {space : Nat} (h : execMemwr space s = .next t) : t.Inv := by
  refine KeepsInv.command (fun s t hs h => ?_) hs h
  obtain ⟨⟨hbb, hdata, hraw, hrem⟩, hrest⟩ := hs
  by_cases h0 : space = 0
  · simp only [spaceSize, spaceWrite, h0, if_true] at h
    split at h
    · cases h
    · rename_i haddr
      split at h
      · cases h
      · cases h
        exact ⟨⟨hbb, Memory.wf_write hdata (Nat.lt_of_not_le haddr), hraw, hrem⟩, hrest⟩
  · by_cases h1 : space = 1
    · simp only [spaceSize, spaceWrite, h1, if_true, Nat.one_ne_zero, if_false] at h
      split at h
      · cases h
      · rename_i haddr
        split at h
        · cases h
        · cases h
          exact ⟨⟨hbb, hdata, Memory.wf_write hraw (Nat.lt_of_not_le haddr), hrem⟩, hrest⟩
    · simp [spaceSize, h0, h1] at h

theorem State.Inv.execPack (h : execPack s = .next t) : t.Inv := by
  refine KeepsInv.command (fun s t hs h => ?_) hs h
  obtain ⟨⟨hbb, hdata, hraw, hrem⟩, hrest⟩ := hs
  split_ifs at h
  cases h
  have hlen : (packBits s.bb).length ≤ Config.dataSize := by
    rw [length_packBits]
    exact Nat.div_le_of_le_mul hbb
  exact ⟨⟨hbb, Memory.wf_writeList hdata (by simpa using hlen), hraw, hrem⟩, hrest⟩

/-- A divisor of degree `d` and a remainder as long belong together (R42). -/
theorem State.Inv.with_divisor {d : Nat} (hd : 1 ≤ d ∧ d ≤ 255) {raw rem : Memory}
    (hraw : raw.wf Config.rawSize = true) (hrem : rem.wf d = true) :
    State.Inv { s with raw := raw, div := Memory.ofList (divisor d), rem := rem, deg := Fin.ofNat 256 d } := by
  obtain ⟨⟨hbb, hdata, -, -⟩, -, hrest⟩ := hs
  have hdeg : (Fin.ofNat 256 d).val = d := Nat.mod_eq_of_lt (by omega)
  refine ⟨⟨hbb, hdata, hraw, ?_⟩, ?_, hrest⟩
  · show rem.wf (Fin.ofNat 256 d).val = true
    rwa [hdeg]
  · show _ = if (Fin.ofNat 256 d).val = 0 then [] else Memory.ofList (divisor (Fin.ofNat 256 d).val)
    rw [hdeg, if_neg (by omega)]

theorem State.Inv.execRsDiv {degree : Nat} (h : execRsDiv degree s = .next t) : t.Inv := by
  refine KeepsInv.command (fun s t hs h => ?_) hs h
  split_ifs at h with hd
  cases h
  exact hs.with_divisor (by omega) hs.1.2.2.1 (Memory.wf_nil degree)

theorem State.Inv.execRsRem (h : execRsRem s = .next t) : t.Inv := by
  refine KeepsInv.command (fun s t hs h => ?_) hs h
  dsimp only at h
  split_ifs at h
  cases h
  obtain ⟨⟨hbb, hdata, hraw, hrem⟩, hrest⟩ := hs
  exact ⟨⟨hbb, hdata, hraw, Memory.wf_writeList hrem (by simp)⟩, hrest⟩

theorem State.Inv.execIntlv (h : execIntlv s = .next t) : t.Inv := by
  refine KeepsInv.command (fun s t hs h => ?_) hs h
  dsimp only at h
  split_ifs at h with hv
  cases h
  obtain ⟨hecc, -, -⟩ := table_bounds _ (mem_versions.mpr hv) s.cfg.ecl s.cfg.ecl.mem_ordered
  refine hs.with_divisor (by omega) (Memory.wf_writeList hs.1.2.2.1 ?_) (Memory.wf_ofList ?_)
  · simpa using length_interleave_le hv s.cfg.ecl _
  · simp only [lastEcc, length_remainder, split]
    exact (length_divisor hecc.1).le

theorem State.Inv.execSegDef {index mode : Nat} (h : execSegDef index mode s = .next t) : t.Inv := by
  refine KeepsInv.command (fun s t hs h => ?_) hs h
  split_ifs at h with hindex hmode
  cases h
  obtain ⟨hstores, hdivisor, herror, hsegtab, hrest⟩ := hs
  refine ⟨hstores, hdivisor, herror, fun i hi => ?_, hrest⟩
  dsimp only
  rw [Vector.getElem_setIfInBounds]
  split
  · exact .inr (Mode.ofCode_isSome_mod hmode)
  · exact hsegtab i hi

/-! #### The matrix -/

/-- A symbol under construction is of a legal version, and its format area is function modules. -/
theorem State.Inv.built (hbuilt : s.mxState ≠ .unbuilt) :
    (21 ≤ s.mxSize ∧ s.mxSize ≤ Config.maxSize) ∧ s.planes.Fits s.mxSize s.planes.func ∧
      ∀ m ∈ formatModules s.mxSize, s.planes.func.get m.1 m.2.1 = true := by
  obtain ⟨-, -, -, -, -, hok, -⟩ := hs
  obtain ⟨hv, -, -, hdark, hformat⟩ := hok hbuilt
  exact ⟨validVer.size hv, ⟨rfl, hdark⟩, hformat⟩

/-- What a matrix command leaves of a symbol under construction. -/
theorem State.Inv.with_dark (hbuilt : s.mxState ≠ .unbuilt) {q : Planes} (hq : q.Fits s.mxSize s.planes.func) :
    State.Inv { s with planes := q } := by
  obtain ⟨-, -, -, -, -, -, hmask⟩ := id hs
  exact hs.with_planes hbuilt hq hbuilt hmask

theorem State.Inv.execMxInit (h : execMxInit s = .next t) : t.Inv := by
  refine KeepsInv.command (fun s t hs h => ?_) hs h
  split_ifs at h with hv
  cases h
  obtain ⟨hstores, hdivisor, herror, hsegtab, -⟩ := hs
  obtain ⟨hfunc, hdark⟩ := drawPatterns_within hv s.cfg.ecl
  exact ⟨hstores, hdivisor, herror, hsegtab, fun h => MxState.noConfusion h,
    fun _ => ⟨hv, rfl, hfunc, hdark, fun m hm => (drawPatterns_format hv s.cfg.ecl hm).1⟩,
    iff_of_false Bool.false_ne_true MxState.noConfusion⟩

theorem State.Inv.execMxPlace (h : execMxPlace s = .next t) : t.Inv := by
  refine KeepsInv.command (fun s t hs h => ?_) hs h
  dsimp only at h
  split_ifs at h with hstate
  cases h
  have hbuilt : s.mxState ≠ .unbuilt := by simp [not_not.mp hstate]
  obtain ⟨-, hfits, -⟩ := hs.built hbuilt
  obtain ⟨-, -, -, -, -, -, hmask⟩ := id hs
  refine hs.with_planes (maskV := s.mxMaskV) hbuilt (hfits.place _) MxState.noConfusion
    (Iff.trans hmask ?_)
  simp [not_not.mp hstate]

theorem State.Inv.execMxMask {mask : Nat} (h : execMxMask mask s = .next t) : t.Inv := by
  refine KeepsInv.command (fun s t hs h => ?_) hs h
  split_ifs at h with hstate
  cases h
  have hbuilt : s.mxState ≠ .unbuilt := by simp [not_not.mp hstate]
  exact hs.with_dark hbuilt ((hs.built hbuilt).2.1.applyMask mask)

theorem State.Inv.execMxFmt {mask : Nat} (h : execMxFmt mask s = .next t) : t.Inv := by
  refine KeepsInv.command (fun s t hs h => ?_) hs h
  split_ifs at h with hstate
  cases h
  have hbuilt : s.mxState ≠ .unbuilt := by simp [not_not.mp hstate]
  obtain ⟨⟨hlo, hhi⟩, hfits, hformat⟩ := hs.built hbuilt
  exact hs.with_dark hbuilt (hfits.drawFormat hlo hhi hformat _ mask)

theorem State.Inv.execMxWr {x y : Nat} (h : execMxWr x y s = .next t) : t.Inv := by
  refine KeepsInv.command (fun s t hs h => ?_) hs h
  split_ifs at h with hstate hxy
  cases h
  have hbuilt : s.mxState ≠ .unbuilt := fun h => by simp [h] at hstate
  exact hs.with_dark hbuilt ((hs.built hbuilt).2.1.setDark _ (by omega) (by omega))

theorem State.Inv.execMsel (h : execMsel s = .next t) : t.Inv := by
  refine KeepsInv.command (fun s t hs h => ?_) hs h
  dsimp only at h
  split_ifs at h with hstate hreq hauto
  all_goals
    cases h
    have hbuilt : s.mxState ≠ .unbuilt := by simp [not_not.mp hstate]
    obtain ⟨⟨hlo, hhi⟩, hfits, hformat⟩ := hs.built hbuilt
  · exact hs.with_planes hbuilt ((hfits.selectMask hlo hhi hformat _).masked hlo hhi hformat _ _)
      MxState.noConfusion (by simp)
  · exact hs.with_planes hbuilt (hfits.masked hlo hhi hformat _ _) MxState.noConfusion (by simp)

end

section

variable {s t : State} (hs : s.Inv)

include hs

/-! #### Commands that write RESULT0, RESULT1 and CFG only, which the invariant does not read -/

theorem State.Inv.execNop (h : execNop s = .next t) : t.Inv := by
  refine KeepsInv.command (fun s t hs h => ?_) hs h
  cases h
  exact hs

theorem State.Inv.execMemrd {space : Nat} (h : execMemrd space s = .next t) : t.Inv := by
  refine KeepsInv.command (fun s t hs h => ?_) hs h
  split at h
  · cases h
  · split at h
    · cases h
    · cases h
      exact hs

theorem State.Inv.execBbGet (h : execBbGet s = .next t) : t.Inv := by
  refine KeepsInv.command (fun s t hs h => ?_) hs h
  split at h
  · cases h
  · cases h
    exact hs

theorem State.Inv.execGfMul {x y : Nat} (h : execGfMul x y s = .next t) : t.Inv := by
  refine KeepsInv.command (fun s t hs h => ?_) hs h
  cases h
  exact hs

theorem State.Inv.execRsRd {sel : RsFile} {index : Nat} (h : execRsRd sel index s = .next t) : t.Inv := by
  refine KeepsInv.command (fun s t hs h => ?_) hs h
  split_ifs at h
  cases h
  exact hs

theorem State.Inv.execVsel {minver maxver : Nat} {boost : Bool} (h : execVsel minver maxver boost s = .next t) :
    t.Inv := by
  refine KeepsInv.command (fun s t hs h => ?_) hs h
  split at h
  · cases h
  · split at h
    · cases h
    · split at h
      · cases h
      · split at h
        · cases h
        · cases h
          exact hs

theorem State.Inv.execCapq (h : execCapq s = .next t) : t.Inv := by
  refine KeepsInv.command (fun s t hs h => ?_) hs h
  dsimp only at h
  split_ifs at h
  cases h
  exact hs

theorem State.Inv.execMxRead {x y : Nat} (h : execMxRead x y s = .next t) : t.Inv := by
  refine KeepsInv.command (fun s t hs h => ?_) hs h
  split_ifs at h
  · cases h
    exact hs
  · cases h
    exact hs

theorem State.Inv.execMxPen (h : execMxPen s = .next t) : t.Inv := by
  refine KeepsInv.command (fun s t hs h => ?_) hs h
  split_ifs at h
  cases h
  exact hs

/-- Every command keeps a legal state legal. -/
theorem State.Inv.exec (i : Instr) (h : exec i s = .next t) : t.Inv := by
  cases i with
  | nop => exact hs.execNop h
  | memwr space => exact hs.execMemwr h
  | memrd space => exact hs.execMemrd h
  | bbClr => exact hs.execBbClr h
  | bbApb width => exact hs.execBbApb h
  | bbApby n => exact hs.execBbApby h
  | bbApnum n => exact hs.execBbApnum h
  | bbApaln n => exact hs.execBbApaln h
  | bbApeci => exact hs.execBbApeci h
  | bbGet => exact hs.execBbGet h
  | gfMul x y => exact hs.execGfMul h
  | rsDiv degree => exact hs.execRsDiv h
  | rsRem => exact hs.execRsRem h
  | rsRd sel index => exact hs.execRsRd h
  | segDef index mode => exact hs.execSegDef h
  | vsel minver maxver boost => exact hs.execVsel h
  | capq => exact hs.execCapq h
  | segHdr mode => exact hs.execSegHdr h
  | termpad => exact hs.execTermpad h
  | pack => exact hs.execPack h
  | intlv => exact hs.execIntlv h
  | mxInit => exact hs.execMxInit h
  | mxPlace => exact hs.execMxPlace h
  | mxMask mask => exact hs.execMxMask h
  | mxFmt mask => exact hs.execMxFmt h
  | mxRead x y => exact hs.execMxRead h
  | mxWr x y => exact hs.execMxWr h
  | mxPen => exact hs.execMxPen h
  | msel => exact hs.execMsel h

theorem State.Inv.rejectWord {w : Word} (h : rejectWord w s = .next t) : t.Inv :=
  KeepsInv.command (fun _ _ _ h => by cases h) hs h

end

/-! ### The host and the steps keep the invariant -/

/-- Settles O16: every store is empty, no symbol is built and no error recorded (R48). -/
theorem legalAtReset : Obligations.LegalAtReset :=
  ⟨⟨Nat.zero_le _, rfl, rfl, rfl⟩, rfl, fun _ => rfl, fun _ _ => .inl (Vector.getElem_replicate _),
    fun _ => ⟨rfl, rfl⟩, fun h => absurd rfl h, iff_of_false Bool.false_ne_true MxState.noConfusion⟩

section

variable {s : State} (hs : s.Inv)

include hs

/-- ERRCLR clears the error with its OPC (R25, R223); the other bits clear nothing the invariant reads. -/
theorem State.Inv.writeStatus (v : Word) : (writeStatus v s).Inv := by
  obtain ⟨hstores, hdivisor, herror, hrest⟩ := hs
  rw [writeStatus_eq]
  refine ⟨hstores, hdivisor, fun h => ?_, hrest⟩
  dsimp only at h ⊢
  split at h
  · rw [if_pos ‹_›]
  · rw [if_neg ‹_›]
    exact herror h

/-- A reset starts from the reset values, which are legal (R240). -/
theorem State.Inv.writeCtrl (v : Word) : (writeCtrl v s).Inv := by
  unfold Machine.writeCtrl
  split
  · exact legalAtReset
  · exact hs

theorem State.Inv.hostWrite (o : BitVec 8) (v : Word) : (hostWrite o v s).Inv := by
  unfold Machine.hostWrite
  split
  · exact hs
  · rename_i r _
    split
    · cases r with
      | ctrl => exact hs.writeCtrl v
      | status => exact hs.writeStatus v
      | _ => exact hs
    · cases r with
      | ctrl => exact hs.writeCtrl v
      | _ => exact hs
    · exact hs

theorem State.Inv.hostRead (o : BitVec 8) : (hostRead o s).Inv := by
  unfold Machine.hostRead
  split
  · exact hs
  · split <;> exact hs

theorem State.Inv.hostTurn {t : State} (h : hostTurn s = .next t) : t.Inv := by
  rcases hostTurn_cases s with ⟨-, e⟩ | ⟨o, v, rest, -, -, e⟩ | ⟨o, rest, -, -, e⟩ | ⟨rest, -, -, e⟩ |
    ⟨rest, -, -, e⟩ | ⟨rest, -, e⟩ | ⟨op, rest, -, -, e⟩ <;> cases e.symm.trans h
  · exact hs
  · exact State.Inv.hostWrite (s := { s with host := rest }) hs o v
  · exact State.Inv.hostRead (s := { s with host := rest }) hs o
  · exact hs
  · exact hs
  · exact legalAtReset

end

/-- Settles O17: the invariant holds after each kind of step, by what a step can do. -/
theorem everyStepKeepsTheStateLegal : Obligations.EveryStepKeepsTheStateLegal := by
  intro s t hs h
  rcases step_cases s with ⟨-, e⟩ | ⟨w, i, -, -, e⟩ | ⟨w, _, -, -, e⟩ | ⟨w, left, -, e⟩ | ⟨-, e⟩ |
    ⟨left, -, e⟩ <;> rw [e] at h
  · exact hs.hostTurn h
  · exact hs.exec i h
  · exact hs.rejectWord h
  · exact State.Inv.hostTurn (s := { s with engine := .running w left }) hs h
  · cases h
    exact hs
  · exact State.Inv.hostTurn (s := { s with engine := .resetting left }) hs h

end Sys2Proof.Machine

/-! ## The query commands and the version search -/

namespace Sys2Proof.Machine

/-! ### The tables of R54 and R55 -/

/-- The tables CAPQ reads are the spec's, row by row. -/
theorem tables_eq : versions.map rawCw = rawCwRow ∧
    versions.map rawModules = List.zipWith (fun cw bits => 8 * cw + bits) rawCwRow remainderBitsRow ∧
    ∀ e, versions.map (eccPerBlock e) = eccRow e ∧ versions.map (numBlocks e) = blocksRow e ∧
      versions.map (ndata · e) = ndataRow e ∧ ∀ v, capBits v e = 8 * ndata v e := by
  refine ⟨by decide, by decide, fun e => ⟨?_, ?_, ?_, fun v => Nat.mul_comm _ _⟩⟩
  · cases e <;> decide
  · cases e <;> decide
  · cases e <;> decide

/-- CAPQ's three numbers fit their fields of RESULT1. -/
theorem capq_fields : ∀ v ∈ versions, ∀ e ∈ Ecl.ordered,
    rawCw v < 2 ^ 16 ∧ rawCw v + numBlocks e v * 2 ^ 16 < 2 ^ 24 := by
  decide

theorem word_capq {v : Nat} (hv : validVer v) (e : Ecl) :
    word (rawCw v + numBlocks e v * 2 ^ 16 + eccPerBlock e v * 2 ^ 24) =
      word (rawCw v) ||| word (numBlocks e v) <<< 16 ||| word (eccPerBlock e v) <<< 24 := by
  obtain ⟨h16, h24⟩ := capq_fields v (mem_versions.mpr hv) e e.mem_ordered
  rw [word_add_mul_two_pow _ h24, word_add_mul_two_pow _ h16]

/-! ### The penalty is the score of R201 to R204 -/

/-- The loops over rows and columns, as one sum over the lines of the symbol. -/
theorem sum_symbolLines (f : List Bool → Nat) (size : Nat) (dark : Plane) :
    ((symbolLines size dark).map f).sum =
      sumTo size (fun y => f (dark.row size y)) + sumTo size fun x => f (dark.column size x) := by
  simp only [symbolLines, List.map_append, List.map_map, List.sum_append]
  rfl

/-- A double loop that counts, as a count over the modules of a square. -/
theorem countP_square (p : Nat × Nat → Bool) (n : Nat) :
    (square n).countP p = sumTo n fun y => sumTo n fun x => (p (x, y)).toNat := by
  have row : ∀ l : List (Nat × Nat), l.countP p = (l.map fun m => (p m).toNat).sum := by
    intro l
    induction l with
    | nil => rfl
    | cons m l ih => cases h : p m <;> simp [h, ih, Nat.add_comm]
  rw [row, square, List.map_flatMap, List.flatMap_def, List.sum_flatten, List.map_map]
  simp only [sumTo, Function.comp_def, List.map_map]

theorem blocks2x2_eq (size : Nat) (dark : Plane) : blocks2x2 size dark = uniformBlocks size dark := by
  rw [uniformBlocks, countP_square]
  simp only [blocks2x2, Bool.decide_and, Bool.and_assoc]
  rfl

theorem darkCount_eq (size : Nat) (dark : Plane) : darkCount size dark = darkModules size dark := by
  rw [darkModules, countP_square]
  rfl

theorem runPoints_eq (size : Nat) (dark : Plane) :
    runPoints size dark = ((symbolLines size dark).map lineRunPoints).sum := by
  simp only [sum_symbolLines, runPoints, scanLine_fst]

theorem finderCount_eq {size : Nat} (hs : 0 < size) (dark : Plane) :
    finderCount size dark = ((symbolLines size dark).map (lineFinders size)).sum := by
  simp only [sum_symbolLines, finderCount, scanLine_snd size hs]

theorem natAbs_sub_eq_dist (a b : Nat) : ((a : Int) - b).natAbs = dist a b := by
  simp only [dist]
  omega

theorem penalty_eq_scoreOf {size : Nat} (hs : 0 < size) (dark : Plane) :
    penalty size dark = scoreOf size dark := by
  have hbalance : ((darkModules size dark : Int) * 20 - ((size * size : Nat) : Int) * 10).natAbs =
      dist (darkModules size dark * 20) (size * size * 10) := by
    exact_mod_cast natAbs_sub_eq_dist (darkModules size dark * 20) (size * size * 10)
  simp only [penalty, scoreOf, balanceSteps, runPoints_eq, blocks2x2_eq, finderCount_eq hs, darkCount_eq,
    hbalance]

/-! ### The query commands -/

theorem execGfMul_eq {s : State} (h : s.err = none) (x y : Nat) :
    execGfMul x y s = .next (complete { s with result0 := word (gfmulNat x y) }) :=
  command_of_ok h rfl

theorem execCapq_eq {s : State} (h : s.err = none) (hv : validVer s.cfg.version.toNat) :
    execCapq s = .next (complete { s with
      result0 := word (ndata s.cfg.version.toNat s.cfg.ecl)
      result1 := word (rawCw s.cfg.version.toNat + numBlocks s.cfg.ecl s.cfg.version.toNat * 2 ^ 16 +
        eccPerBlock s.cfg.ecl s.cfg.version.toNat * 2 ^ 24) }) := by
  refine command_of_ok h ?_
  exact if_neg (not_not_intro hv)

theorem execMxPen_eq {s : State} (h : s.err = none) (hm : s.mxState ≠ .unbuilt) :
    execMxPen s = .next (complete { s with
      result0 := word (penalty s.mxSize s.planes.dark)
      result1 := word (darkCount s.mxSize s.planes.dark) }) := by
  refine command_of_ok h ?_
  exact if_neg hm

/-- A command whose body raises an error other than DataTooLong. -/
theorem raises_of_error {i : Instr} {body : State → Except Raised State} {s : State} {e : Raised}
    {o : Host.Outcome State Fault Refusal} (hi : exec i s = o)
    (ho : o = command (BitVec.ofNat 8 i.opc) body s) (h : s.err = none) (hb : body s = .error e)
    (he : e.code ≠ .dataTooLong) : Raises i s e.code := by
  rw [Raises, hi, ho, command_of_error h hb, raise_of_ne _ s he]

/-- Settles O35: the tables by reading them off, the results by the meaning of each command, the score by the
sums over the symbol's lines and squares. -/
theorem queryCommandsWriteTheirResults : Obligations.QueryCommandsWriteTheirResults := by
  refine ⟨tables_eq, fun s h => ⟨execGfMul_eq h, fun hv => (execCapq_eq h hv).trans ?_,
    fun hm => (execMxPen_eq h hm).trans ?_, fun hv => ?_, fun hm => ?_⟩⟩
  · rw [word_capq hv]
    rfl
  · rw [penalty_eq_scoreOf (size := s.mxSize) (Nat.succ_pos _), darkCount_eq]
    rfl
  · refine raises_of_error (e := .invalidArgument) (o := execCapq s) rfl rfl h ?_ ErrCode.noConfusion
    exact if_pos hv
  · refine raises_of_error (e := .sequenceError) (o := execMxPen s) rfl rfl h ?_ ErrCode.noConfusion
    exact if_pos hm

/-! ### The version search of VSEL (R145, R147) -/

theorem ccbits_eq_fieldWidth (m : Mode) (v : Nat) : ccbits m v = fieldWidth m v := by
  cases m <;> by_cases h9 : v ≤ 9 <;> by_cases h26 : v ≤ 26 <;> simp [ccbits, fieldWidth, bandWidths, h9, h26]

theorem ofCode_indicator (m : Mode) : Mode.ofCode (indicator m) = some m := by cases m <;> rfl

/-- The running total passes no field and no bound exactly where `countsFit` says (R145). -/
theorem totalBitsFrom_eq (v : Nat) (gs : List Seg) {t : Nat} (ht : t ≤ 2 ^ 31 - 1) :
    totalBitsFrom v t gs =
      if (∀ g ∈ gs, g.count < 2 ^ fieldWidth g.mode v) ∧ t + needBits gs v ≤ 2 ^ 31 - 1 then
        some (t + needBits gs v)
      else none := by
  induction gs generalizing t with
  | nil => simpa [totalBitsFrom, needBits] using ht
  | cons g gs ih =>
    have hneed : needBits (g :: gs) v = (4 + fieldWidth g.mode v + g.plen) + needBits gs v := by
      simp [needBits]
    rw [totalBitsFrom, ccbits_eq_fieldWidth, hneed]
    simp only [List.forall_mem_cons]
    by_cases hg : g.count < 2 ^ fieldWidth g.mode v
    · simp only [hg, if_true, true_and]
      by_cases hbound : t + 4 + fieldWidth g.mode v + g.plen > 2 ^ 31 - 1
      · rw [if_pos hbound, if_neg (by omega)]
      · rw [if_neg hbound, ih (Nat.le_of_not_lt hbound)]
        simp only [Nat.add_assoc]
    · simp only [hg, if_false, false_and]

theorem totalBits_eq (gs : List Seg) (v : Nat) :
    totalBits gs v = if countsFit gs v then some (needBits gs v) else none := by
  simpa [totalBits, countsFit] using totalBitsFrom_eq v gs (Nat.zero_le _)

/-- The version holds the segments at the level. -/
abbrev holdsAt (gs : List Seg) (e : Ecl) (v : Nat) : Prop := countsFit gs v ∧ needBits gs v ≤ capBits v e

theorem fitsAt_eq (gs : List Seg) (e : Ecl) (v : Nat) :
    fitsAt gs e v = if holdsAt gs e v then some (needBits gs v) else none := by
  rw [fitsAt, totalBits_eq]
  by_cases h : holdsAt gs e v
  · rw [if_pos h, if_pos h.1]
    exact if_pos h.2
  · rw [if_neg h]
    by_cases hc : countsFit gs v
    · rw [if_pos hc]
      exact if_neg fun hcap => h ⟨hc, hcap⟩
    · rw [if_neg hc]

/-- The search ends at the first version that holds the segments. -/
theorem searchVersion_eq_some {gs : List Seg} {e : Ecl} {u : Nat} (hu : holdsAt gs e u) :
    ∀ {v more : Nat}, v ≤ u → u ≤ v + more → (∀ w, v ≤ w → w < u → ¬ holdsAt gs e w) →
      searchVersion gs e v more = some (u, needBits gs u) := by
  intro v more
  induction more generalizing v with
  | zero =>
    intro hvu huv _
    obtain rfl : v = u := by omega
    rw [searchVersion, fitsAt_eq, if_pos hu]
    rfl
  | succ more ih =>
    intro hvu huv hfirst
    rw [searchVersion, fitsAt_eq]
    by_cases hv : v = u
    · subst hv
      rw [if_pos hu]
    · rw [if_neg (hfirst v le_rfl (by omega))]
      exact ih (by omega) (by omega) fun w hw => hfirst w (by omega)

theorem searchVersion_eq_none {gs : List Seg} {e : Ecl} :
    ∀ {v more : Nat}, (∀ w, v ≤ w → w ≤ v + more → ¬ holdsAt gs e w) → searchVersion gs e v more = none := by
  intro v more
  induction more generalizing v with
  | zero =>
    intro hnone
    rw [searchVersion, fitsAt_eq, if_neg (hnone v le_rfl le_rfl)]
    rfl
  | succ more ih =>
    intro hnone
    rw [searchVersion, fitsAt_eq, if_neg (hnone v le_rfl (by omega))]
    exact ih fun w hw hw' => hnone w (by omega) (by omega)

/-- The boosted level is the highest that holds the total (R147). -/
theorem boostEcl_spec {v t : Nat} {e : Ecl} (h : t ≤ capBits v e) :
    t ≤ capBits v (boostEcl v t e) ∧
      ∀ e', t ≤ capBits v e' → (eclCode e').toNat ≤ (eclCode (boostEcl v t e)).toNat := by
  simp only [boostEcl, Ecl.ordered, List.foldl]
  split_ifs with hhigh hquartile hmedium hlow
  · exact ⟨hhigh, fun e' _ => by cases e' <;> decide⟩
  · refine ⟨hquartile, fun e' h' => ?_⟩
    cases e' with
    | high => exact absurd h' hhigh
    | _ => decide
  · refine ⟨hmedium, fun e' h' => ?_⟩
    cases e' with
    | high => exact absurd h' hhigh
    | quartile => exact absurd h' hquartile
    | _ => decide
  · refine ⟨hlow, fun e' h' => ?_⟩
    cases e' with
    | high => exact absurd h' hhigh
    | quartile => exact absurd h' hquartile
    | medium => exact absurd h' hmedium
    | low => decide
  · cases e with
    | high => exact absurd h hhigh
    | quartile => exact absurd h hquartile
    | medium => exact absurd h hmedium
    | low => exact absurd h hlow

/-! #### Reading the segment table -/

theorem mapM_seg_eq_some {l : List Segment} {gs : List Seg} (hlen : l.length = gs.length)
    (h : ∀ i (hi : i < gs.length), l[i].seg = some gs[i]) : l.mapM Segment.seg = some gs := by
  induction l generalizing gs with
  | nil =>
    obtain rfl := List.eq_nil_of_length_eq_zero hlen.symm
    rfl
  | cons a l ih =>
    cases gs with
    | nil => cases hlen
    | cons g gs =>
      have ha : a.seg = some g := h 0 (Nat.succ_pos _)
      have hl : l.mapM Segment.seg = some gs :=
        ih (Nat.succ.inj hlen) fun i hi => h (i + 1) (Nat.succ_lt_succ hi)
      rw [List.mapM_cons, ha, hl]
      rfl

/-- SEGTAB's entries with R57's indicators are read as the segments they describe. -/
theorem segments_of_describes {s : State} {gs : List Seg} (hnseg : s.cfg.nseg.toNat ≤ Config.segMax)
    (h : describes s gs) : s.segments = some gs := by
  obtain ⟨hlen, hentry⟩ := h
  have hlen' : (s.segtab.toList.take s.cfg.nseg.toNat).length = gs.length := by
    simpa [hlen] using hnseg
  refine mapM_seg_eq_some hlen' fun i hi => ?_
  obtain ⟨hmode, hcount, hplen⟩ := hentry i hi (by omega)
  rw [List.getElem_take, Vector.getElem_toList, Segment.seg, hmode, ofCode_indicator, hcount, hplen]
  rfl

/-! #### The command -/

/-- VSEL on legal arguments: the result of the search decides (R147). -/
theorem execVsel_eq {s : State} {minver maxver : Nat} {boost : Bool} {gs : List Seg} (h : s.err = none)
    (hmin : validVer minver) (hmax : validVer maxver) (hle : minver ≤ maxver)
    (hnseg : s.cfg.nseg.toNat ≤ Config.segMax) (hgs : describes s gs) :
    execVsel minver maxver boost s =
      match searchVersion gs s.cfg.ecl minver (maxver - minver) with
      | none => .next (raise
          (.dataTooLong ((totalBits gs maxver).getD 0xFFFFFFFF) (capBits maxver s.cfg.ecl)) 0x31 s)
      | some (v, t) =>
        let ecc := if boost then boostEcl v t s.cfg.ecl else s.cfg.ecl
        .next (complete { s with
          cfg := { s.cfg with version := BitVec.ofNat 6 v, ecl := ecc }
          result0 := word t, result1 := word (capBits v ecc) }) := by
  have hargs : ¬ ¬ (validVer minver ∧ validVer maxver ∧ minver ≤ maxver) :=
    not_not_intro ⟨hmin, hmax, hle⟩
  have hbody := segments_of_describes hnseg hgs
  cases hsearch : searchVersion gs s.cfg.ecl minver (maxver - minver) with
  | none =>
    refine command_of_error h ?_
    simp only [if_neg hargs, if_neg (Nat.not_lt.mpr hnseg), hbody, hsearch]
  | some vt =>
    refine command_of_ok h ?_
    simp only [if_neg hargs, if_neg (Nat.not_lt.mpr hnseg), hbody, hsearch]

/-- Settles O42: the search finds the first version that holds the segments, and the boost the highest level. -/
theorem vselChoosesTheFirstVersionThatFits : Obligations.VselChoosesTheFirstVersionThatFits := by
  intro s minver maxver v boost gs h hmin hmax hnseg hgs hlo hhi hfit hcap hfirst
  have hsearch : searchVersion gs s.cfg.ecl minver (maxver - minver) = some (v, needBits gs v) :=
    searchVersion_eq_some ⟨hfit, hcap⟩ hlo (by omega) hfirst
  refine ⟨if boost then boostEcl v (needBits gs v) s.cfg.ecl else s.cfg.ecl, ?_, ?_, ?_⟩
  · refine (execVsel_eq h hmin hmax (hlo.trans hhi) hnseg hgs).trans ?_
    rw [hsearch]
    rfl
  · rintro rfl
    rfl
  · rintro rfl
    exact boostEcl_spec hcap

/-- Settles O43: the search finds no version, and the total at `maxver` is reported, or the sentinel. -/
theorem vselReportsDataTooLong : Obligations.VselReportsDataTooLong := by
  intro s minver maxver boost gs h hmin hmax hle hnseg hgs hnone
  have hsearch : searchVersion gs s.cfg.ecl minver (maxver - minver) = none :=
    searchVersion_eq_none fun w hw hw' => hnone w hw (by omega)
  refine (execVsel_eq h hmin hmax hle hnseg hgs).trans ?_
  rw [hsearch, totalBits_eq]
  by_cases hfit : countsFit gs maxver
  · simp only [if_pos hfit]
    rfl
  · simp only [if_neg hfit]
    rfl

end Sys2Proof.Machine

/-! ## The host's accesses and what stops a step -/

namespace Sys2Proof.Machine

/-! ### A command leaves the host's side alone -/

/-- `t` has the registers only the host writes, and the host's own record, as `s` has them. -/
def State.SameHostSide (s t : State) : Prop :=
  t.ie = s.ie ∧ t.ovr = s.ovr ∧ t.arg0 = s.arg0 ∧ t.arg1 = s.arg1 ∧ t.host = s.host ∧ t.reads = s.reads ∧
    t.draws = s.draws

/-- The checks and writes of a command in `s`, if they succeed, leave the host's side as it was. -/
def KeepsHostSide (s : State) (r : Except Raised State) : Prop := ∀ t, r = .ok t → s.SameHostSide t

namespace KeepsHostSide

variable {s t : State}

@[simp] theorem error (e : Raised) : KeepsHostSide s (.error e) := fun _ h => by cases h

@[simp] theorem ok_iff : KeepsHostSide s (.ok t) ↔ s.SameHostSide t :=
  ⟨fun h => h t rfl, fun h u hu => by cases hu; exact h⟩

@[simp] theorem ite_iff {c : Prop} [Decidable c] {a b : Except Raised State} :
    KeepsHostSide s (if c then a else b) ↔ (c → KeepsHostSide s a) ∧ (¬ c → KeepsHostSide s b) := by
  split <;> simp [*]

@[simp] theorem appendBits (bs : List Bool) : KeepsHostSide s (appendBits bs s) := by
  rw [Machine.appendBits]
  simp [State.SameHostSide]

/-- Dropped, completed or in error, a command changes the host's side only if its body does. -/
theorem command {opc : BitVec 8} {body : State → Except Raised State} (hbody : ∀ s, KeepsHostSide s (body s))
    (h : command opc body s = .next t) : s.SameHostSide t := by
  obtain ⟨t', ht', hcases⟩ := command_cases (opc := opc) (body := body) (s := s)
  obtain rfl : t' = t := by simpa using ht'.symm.trans h
  rcases hcases with ⟨-, rfl⟩ | ⟨-, u, hu, rfl⟩ | ⟨-, e, -, rfl⟩
  · simp [State.SameHostSide]
  · simpa [State.SameHostSide] using hbody s u hu
  · simp [State.SameHostSide]

end KeepsHostSide

theorem spaceWrite_sameHostSide (s : State) (space a : Nat) (v : Byte) :
    s.SameHostSide (spaceWrite s space a v) := by
  unfold spaceWrite
  split <;> simp [State.SameHostSide]

/-- Every command is a chain of checks that ends in an error, an append or a write to the engine's own stores
and registers; a command that matches on a value it looks up is split there, the chain itself is `ite_iff`. -/
theorem exec_sameHostSide (i : Instr) {s t : State} (h : exec i s = .next t) : s.SameHostSide t := by
  unfold exec at h
  cases i with
  | nop => exact KeepsHostSide.command (fun s => by simp [State.SameHostSide]) h
  | memwr space =>
    refine KeepsHostSide.command (fun s => ?_) h
    split <;> simp [spaceWrite_sameHostSide]
  | memrd space | bbGet | segHdr _ =>
    refine KeepsHostSide.command (fun s => ?_) h
    split <;> simp [State.SameHostSide]
  | bbApaln n =>
    refine KeepsHostSide.command (fun s => ?_) h
    simp only [KeepsHostSide.ite_iff, KeepsHostSide.error, implies_true, true_and]
    refine fun _ _ => ⟨fun _ => ?_, fun _ => ?_⟩ <;> split <;> simp
  | vsel minver maxver boost =>
    refine KeepsHostSide.command (fun s => ?_) h
    simp only [KeepsHostSide.ite_iff, KeepsHostSide.error, implies_true, true_and]
    intro _ _
    split
    · simp
    · split <;> simp [State.SameHostSide]
  | _ => exact KeepsHostSide.command (fun s => by simp [State.SameHostSide]) h

/-! ### What is left of the host's operations -/

@[simp] theorem writeCtrl_host (v : Word) (s : State) : (writeCtrl v s).host = s.host := by
  unfold writeCtrl
  split <;> rfl

@[simp] theorem writeStatus_host (v : Word) (s : State) : (writeStatus v s).host = s.host := by
  rw [writeStatus_eq]

@[simp] theorem hostWrite_host (o : BitVec 8) (v : Word) (s : State) : (hostWrite o v s).host = s.host := by
  unfold hostWrite
  split
  · rfl
  · next r _ =>
    split
    · cases r <;> simp [writeIdle]
    · cases r <;> simp [writeRunning]
    · rfl

/-- A read changes only the record of reads and the count of draws (R63). -/
theorem hostRead_eq (o : BitVec 8) (s : State) :
    hostRead o s = { s with reads := (hostRead o s).reads, draws := (hostRead o s).draws } := by
  unfold hostRead
  split
  · rfl
  · split <;> rfl

@[simp] theorem hostRead_host (o : BitVec 8) (s : State) : (hostRead o s).host = s.host := by
  rw [hostRead_eq]

/-- The host's next operation is one R62 does not admit. -/
def State.BadAccess (s : State) : Prop := ∃ op rest, s.host = op :: rest ∧ op.ok = false

theorem State.HostOk.not_badAccess {s : State} (hs : s.HostOk) : ¬ s.BadAccess := by
  rintro ⟨op, rest, hhost, hbad⟩
  have hok : op.ok = true := hs op (by simp [hhost])
  simp [hok] at hbad

/-- A bad access is refused at the host's turn (R62). -/
theorem hostTurn_of_badAccess {s : State} (hs : s.BadAccess) : hostTurn s = .refused .hostAccess := by
  obtain ⟨op, rest, hhost, hbad⟩ := hs
  cases op with
  | wr o size v | rd o size =>
    have : admitted o size = false := hbad
    simp [hostTurn, hhost, this]
  | poll | resetInput => cases hbad

/-- A host turn answers a next state with no operation added, or refuses a bad access. -/
theorem hostTurn_next_or_refused (s : State) :
    (∃ t, hostTurn s = .next t ∧ t.host ⊆ s.host) ∨ (hostTurn s = .refused .hostAccess ∧ s.BadAccess) := by
  rcases hostTurn_cases s with ⟨-, e⟩ | ⟨o, v, rest, hh, -, e⟩ | ⟨o, rest, hh, -, e⟩ | ⟨rest, -, -, e⟩ |
    ⟨rest, hh, -, e⟩ | ⟨rest, hh, e⟩ | ⟨op, rest, hh, hbad, e⟩
  · exact .inl ⟨_, e, List.Subset.refl _⟩
  · exact .inl ⟨_, e, by simp [hh]⟩
  · exact .inl ⟨_, e, by simp [hh]⟩
  · exact .inl ⟨_, e, List.Subset.refl _⟩
  · exact .inl ⟨_, e, by simp [hh]⟩
  · exact .inl ⟨_, e, by simp [hh]⟩
  · exact .inr ⟨e, op, rest, hh, hbad⟩

/-! ### What stops a step -/

/-- A word that ends its run answers a next state and performs no host operation. -/
theorem runWord_next (w : Word) (s : State) : ∃ t, runWord w s = .next t ∧ t.host = s.host := by
  unfold runWord
  split
  · next i _ =>
    obtain ⟨body, hbody⟩ := exec_is_command i
    obtain ⟨t, ht, -⟩ := command_cases (opc := BitVec.ofNat 8 i.opc) (body := body) (s := s)
    have hexec : exec i s = .next t := (hbody s).trans ht
    obtain ⟨-, -, -, -, hhost, -⟩ := exec_sameHostSide i hexec
    exact ⟨t, hexec, hhost⟩
  · obtain ⟨t, ht, -⟩ := command_cases (opc := w.extractLsb' 0 8)
      (body := fun _ => .error .illegalCommand) (s := s)
    obtain ⟨-, -, -, -, hhost, -⟩ := KeepsHostSide.command (fun _ => KeepsHostSide.error _) ht
    exact ⟨t, ht, hhost⟩

/-- The host has its turn in every step that ends neither a command nor a reset. -/
theorem step_eq_hostTurn {s : State} (hrun : ∀ w, s.engine ≠ .running w 0) (hreset : s.engine ≠ .resetting 0) :
    ∃ e, step s = hostTurn { s with engine := e } := by
  rcases step_cases s with ⟨-, h⟩ | ⟨w, _, he, -⟩ | ⟨w, _, he, -⟩ | ⟨w, left, -, h⟩ | ⟨he, -⟩ | ⟨left, -, h⟩
  · exact ⟨s.engine, h⟩
  · exact absurd he (hrun w)
  · exact absurd he (hrun w)
  · exact ⟨_, h⟩
  · exact absurd he hreset
  · exact ⟨_, h⟩

/-- A step answers a next state with no operation added, or refuses a bad access. -/
theorem step_next_or_refused (s : State) :
    (∃ t, step s = .next t ∧ t.host ⊆ s.host) ∨ (step s = .refused .hostAccess ∧ s.BadAccess) := by
  by_cases hrun : ∃ w, s.engine = .running w 0
  · obtain ⟨w, he⟩ := hrun
    obtain ⟨t, ht, hhost⟩ := runWord_next w s
    exact .inl ⟨t, by simpa [step, he] using ht, hhost ▸ List.Subset.refl _⟩
  by_cases hreset : s.engine = .resetting 0
  · exact .inl ⟨{ s with engine := .idle }, by simp [step, hreset], List.Subset.refl _⟩
  · obtain ⟨e, he⟩ := step_eq_hostTurn (not_exists.mp hrun) hreset
    rw [he]
    exact hostTurn_next_or_refused { s with engine := e }

/-- Settles O18: no step adds an operation to the host's list, a command or a reset that ends answers a next state,
and the host's turn refuses exactly the bad accesses. -/
theorem onlyBadAccessesStopAStep : Obligations.OnlyBadAccessesStopAStep := by
  refine fun s => ⟨fun hok => ?_, fun hstop => ?_, fun o size v rest hbad hhost hrun hreset => ?_⟩
  · rcases step_next_or_refused s with ⟨t, ht, hsub⟩ | ⟨-, hbad⟩
    · exact ⟨t, ht, fun op hop => hok op (hsub hop)⟩
    · exact absurd hbad hok.not_badAccess
  · exact (step_next_or_refused s).resolve_left fun ⟨t, ht, _⟩ => hstop ⟨t, ht⟩
  · have hnot : admitted o size = false := by simpa [admitted, imp_iff_not_or] using hbad
    have hbadAccess : s.BadAccess := by
      rcases hhost with h | h <;> exact ⟨_, rest, h, hnot⟩
    obtain ⟨e, he⟩ := step_eq_hostTurn hrun hreset
    rw [he]
    exact hostTurn_of_badAccess hbadAccess

/-! ### Reads, and the registers during a reset -/

theorem hostWrite_of_resetting (o : BitVec 8) (v : Word) {s : State} {n : Nat} (hs : s.engine = .resetting n) :
    hostWrite o v s = s := by
  unfold hostWrite
  split
  · rfl
  · rw [hs]

theorem hostRead_reads_of_resetting {o : BitVec 8} {r : Reg} (ho : Reg.ofOffset o = some r) {s : State}
    {n : Nat} (hs : s.engine = .resetting n) : (hostRead o s).reads = s.reads ++ [s.regWord r] := by
  simp only [hostRead, ho, hs]

/-- While a reset runs ID holds its constant, STATUS is BUSY alone and every other register is 0 (R48, R240). -/
theorem regWord_startReset (s : State) (n : Nat) (r : Reg) :
    ({ startReset s with engine := .resetting n } : State).regWord r =
      if r = .id then 0x51524301#32 else if r = .status then 1 else 0 := by
  by_cases hr : r = .status
  · subst hr
    show word (true.toNat + false.toNat * 2 ^ 1 + false.toNat * 2 ^ 3 + 0 * 2 ^ 4 + 0 * 2 ^ 8 +
      (0#8).toNat * 2 ^ 16) = 1
    rfl
  · have hkeep : ({ startReset s with engine := .resetting n } : State).regWord r = State.reset.regWord r := by
      cases r with
      | status => exact absurd rfl hr
      | _ => rfl
    obtain ⟨hreset, -⟩ := resetValues
    rw [hkeep, hreset, if_neg hr]

theorem Reg.ofOffset_eq_id : ∀ o : BitVec 8, Reg.ofOffset o = some .id ↔ o = 0x00 := by decide

theorem Reg.ofOffset_eq_status : ∀ o : BitVec 8, Reg.ofOffset o = some .status ↔ o = 0x08 := by decide

/-- Settles O26: a read writes only `reads` and `draws`, and a reset answers with its register values. -/
theorem readsChangeNothingAndResetIgnoresWrites : Obligations.ReadsChangeNothingAndResetIgnoresWrites := by
  refine fun s o => ⟨?_, fun n v hs => hostWrite_of_resetting o v hs, fun n o' => ?_⟩
  · rw [hostRead_eq]
  · simp only [← Reg.ofOffset_eq_id, ← Reg.ofOffset_eq_status]
    cases ho : Reg.ofOffset o' with
    | none => exact hostRead_reads_of_none ho _
    | some r =>
      rw [hostRead_reads_of_resetting ho rfl, regWord_startReset]
      simp

end Sys2Proof.Machine

/-! ## Decoding and encoding the command word -/

namespace Sys2Proof.Machine

/-! ### The row an OPC chooses (R85, R88) -/

/-- The format of a command (R85). -/
@[simp] def formatOf : Instr → Format
  | .nop | .bbClr | .bbApeci | .bbGet | .rsRem | .capq | .termpad | .pack | .intlv | .mxInit
  | .mxPlace | .mxPen | .msel => .z
  | .memwr _ | .memrd _ => .sp
  | .bbApb _ => .w
  | .bbApby _ | .bbApnum _ | .bbApaln _ => .n
  | .gfMul _ _ | .mxRead _ _ | .mxWr _ _ => .xy
  | .rsDiv _ => .d
  | .rsRd _ _ => .s
  | .segDef _ _ => .sd
  | .vsel _ _ _ => .v
  | .segHdr _ => .m
  | .mxMask _ | .mxFmt _ => .k

/-- The command with its immediate fields read from `w` (R82). -/
@[simp] def readFields (w : Word) : Instr → Instr
  | .memwr _ => .memwr (bits w 9 8)
  | .memrd _ => .memrd (bits w 9 8)
  | .bbApb _ => .bbApb (bits w 12 8)
  | .bbApby _ => .bbApby (bits w 10 8)
  | .bbApnum _ => .bbApnum (bits w 10 8)
  | .bbApaln _ => .bbApaln (bits w 10 8)
  | .gfMul _ _ => .gfMul (bits w 15 8) (bits w 23 16)
  | .rsDiv _ => .rsDiv (bits w 16 8)
  | .rsRd _ _ => .rsRd (.ofSel (bits w 16 16)) (bits w 15 8)
  | .segDef _ _ => .segDef (bits w 14 8) (bits w 19 16)
  | .vsel _ _ _ => .vsel (bits w 13 8) (bits w 19 14) (bits w 20 20 == 1)
  | .segHdr _ => .segHdr (bits w 11 8)
  | .mxMask _ => .mxMask (bits w 10 8)
  | .mxFmt _ => .mxFmt (bits w 10 8)
  | .mxRead _ _ => .mxRead (bits w 15 8) (bits w 23 16)
  | .mxWr _ _ => .mxWr (bits w 15 8) (bits w 23 16)
  | i => i

theorem opc_readFields (w : Word) (i : Instr) : (readFields w i).opc = i.opc := by
  cases i <;> rfl

theorem checked_eq_ok_iff {f : Format} {w : Word} {i j : Instr} :
    checked f w i = .ok j ↔ f.clear w = true ∧ i = j := by
  unfold checked
  split <;> simp [*]

/-- The OPC field chooses the command's row: its format and its fields. -/
theorem decode_of_opc {w : Word} {i : Instr} (h : bits w 7 0 = i.opc) :
    decode w = checked (formatOf i) w (readFields w i) := by
  unfold decode
  rw [h]
  cases i <;> rfl

/-- Each row decodes to a command of the row's own OPC. -/
theorem bits_opc_of_decode {w : Word} {i : Instr} (h : decode w = .ok i) : bits w 7 0 = i.opc := by
  unfold decode at h
  split at h
  case h_30 => cases h
  all_goals
    obtain ⟨-, rfl⟩ := checked_eq_ok_iff.mp h
    assumption

theorem decode_eq_ok_iff {w : Word} {i : Instr} :
    decode w = .ok i ↔ bits w 7 0 = i.opc ∧ (formatOf i).clear w = true ∧ readFields w i = i := by
  constructor
  · intro h
    have hopc := bits_opc_of_decode h
    rw [decode_of_opc hopc, checked_eq_ok_iff] at h
    exact ⟨hopc, h⟩
  · rintro ⟨hopc, h⟩
    rwa [decode_of_opc hopc, checked_eq_ok_iff]

/-! ### A word decodes exactly to the command it encodes -/

/-- A field of one bit read as a flag. -/
theorem flag_eq_iff {n : Nat} {b : Bool} : (n % 2 == 1) = b ↔ n % 2 = b.toNat := by
  cases b <;> simp

theorem ofSel_eq_iff {n : Nat} {r : RsFile} : RsFile.ofSel (n % 2) = r ↔ n % 2 = r.sel := by
  cases r <;> simp [RsFile.ofSel, RsFile.sel]

theorem sel_lt (r : RsFile) : r.sel < 2 := by
  cases r <;> decide

/-- OPC, the reserved bits and the fields of a format cover the word, each bit once (R82): to read them is to
write the word as a sum. -/
theorem fields_iff (w : Word) (i : Instr) :
    (bits w 7 0 = i.opc ∧ (formatOf i).clear w = true ∧ readFields w i = i) ↔
      i.WellFormed ∧ w.toNat = i.opc + i.immediate := by
  have hw := w.isLt
  cases i with
  | rsRd sel index =>
    have hsel := sel_lt sel
    simp [Instr.WellFormed, Instr.wf, Instr.opc, Instr.immediate, Format.clear, Format.reserved, bits, ofSel_eq_iff]
    omega
  | vsel minver maxver boost =>
    have hboost := boost.toNat_lt
    simp [Instr.WellFormed, Instr.wf, Instr.opc, Instr.immediate, Format.clear, Format.reserved, bits, flag_eq_iff,
      -beq_eq_beq]
    omega
  | _ =>
    simp [Instr.WellFormed, Instr.wf, Instr.opc, Instr.immediate, Format.clear, Format.reserved, bits]
    omega

/-- Every well-formed command's OPC and immediate fields fit the word (R80, R82). -/
theorem encoding_statement (i : Instr) : Laws.Encoding.Statement i := by
  cases i with
  | nop => exact Laws.Encoding.nop
  | memwr space => exact Laws.Encoding.memwr space
  | memrd space => exact Laws.Encoding.memrd space
  | bbClr => exact Laws.Encoding.bbClr
  | bbApb width => exact Laws.Encoding.bbApb width
  | bbApby n => exact Laws.Encoding.bbApby n
  | bbApnum n => exact Laws.Encoding.bbApnum n
  | bbApaln n => exact Laws.Encoding.bbApaln n
  | bbApeci => exact Laws.Encoding.bbApeci
  | bbGet => exact Laws.Encoding.bbGet
  | gfMul x y => exact Laws.Encoding.gfMul x y
  | rsDiv degree => exact Laws.Encoding.rsDiv degree
  | rsRem => exact Laws.Encoding.rsRem
  | rsRd sel index => exact Laws.Encoding.rsRd sel index
  | segDef index mode => exact Laws.Encoding.segDef index mode
  | vsel minver maxver boost => exact Laws.Encoding.vsel minver maxver boost
  | capq => exact Laws.Encoding.capq
  | segHdr mode => exact Laws.Encoding.segHdr mode
  | termpad => exact Laws.Encoding.termpad
  | pack => exact Laws.Encoding.pack
  | intlv => exact Laws.Encoding.intlv
  | mxInit => exact Laws.Encoding.mxInit
  | mxPlace => exact Laws.Encoding.mxPlace
  | mxMask mask => exact Laws.Encoding.mxMask mask
  | mxFmt mask => exact Laws.Encoding.mxFmt mask
  | mxRead x y => exact Laws.Encoding.mxRead x y
  | mxWr x y => exact Laws.Encoding.mxWr x y
  | mxPen => exact Laws.Encoding.mxPen
  | msel => exact Laws.Encoding.msel

theorem encode_eq_iff {i : Instr} (h : i.WellFormed) (w : Word) :
    encode i = w ↔ w.toNat = i.opc + i.immediate := by
  obtain ⟨hlt, -⟩ := encoding_statement i h
  rw [← BitVec.toNat_inj, encode, BitVec.toNat_ofNat, Nat.mod_eq_of_lt hlt, eq_comm]

theorem decode_eq_ok_iff_encode {w : Word} {i : Instr} : decode w = .ok i ↔ i.WellFormed ∧ encode i = w := by
  rw [decode_eq_ok_iff, fields_iff]
  exact and_congr_right fun h => (encode_eq_iff h w).symm

/-- Settles O1: the word of a well-formed command decodes to the command. -/
theorem decodeOfEncodeIsTheCommand : Obligations.DecodeOfEncodeIsTheCommand :=
  fun _ h => decode_eq_ok_iff_encode.mpr ⟨h, rfl⟩

/-! ### The rows of the opcode table (R88) -/

/-- The bits a row compares: OPC and the reserved bits of the format. -/
def rowMask (f : Format) : Word :=
  f.reserved.foldr (fun r mask => fieldMask r.2 (r.1 + 1 - r.2) ||| mask) (fieldMask 0 8)

/-- One command of each row. -/
def rowCommands : List Instr :=
  [.nop, .memwr 0, .memrd 0, .bbClr, .bbApb 0, .bbApby 0, .bbApnum 0, .bbApaln 0, .bbApeci, .bbGet,
   .gfMul 0 0, .rsDiv 0, .rsRem, .rsRd .rem 0, .segDef 0 0, .vsel 0 0 false, .capq, .segHdr 0, .termpad, .pack,
   .intlv, .mxInit, .mxPlace, .mxMask 0, .mxFmt 0, .mxRead 0 0, .mxWr 0 0, .mxPen, .msel]

theorem opcodeRows_eq : opcodeRows = rowCommands.map fun i => (i.opc, rowMask (formatOf i)) := by decide

theorem opc_mem_opcodeRows (i : Instr) : i.opc ∈ opcodeRows.map Prod.fst := by
  cases i <;> simp [opcodeRows, Instr.opc]

theorem toNat_and_fieldMask (w : Word) {lo n : Nat} (h : lo + n ≤ 32) :
    (w &&& fieldMask lo n).toNat = w.toNat / 2 ^ lo % 2 ^ n * 2 ^ lo := by
  have hlt : w.toNat / 2 ^ lo % 2 ^ n * 2 ^ lo < 2 ^ 32 :=
    calc
      w.toNat / 2 ^ lo % 2 ^ n * 2 ^ lo < 2 ^ n * 2 ^ lo := by
        gcongr
        exact Nat.mod_lt _ (by positivity)
      _ = 2 ^ (lo + n) := by rw [← pow_add, Nat.add_comm]
      _ ≤ 2 ^ 32 := Nat.pow_le_pow_right (by decide) h
  rw [and_fieldMask, BitVec.toNat_shiftLeft, BitVec.toNat_setWidth_of_le (by omega), BitVec.extractLsb'_toNat,
    Nat.shiftRight_eq_div_pow, Nat.shiftLeft_eq, Nat.mod_eq_of_lt hlt]

theorem and_fieldMask_eq_zero_iff {w : Word} {hi lo : Nat} (hlo : lo ≤ hi) (hhi : hi < 32) :
    w &&& fieldMask lo (hi + 1 - lo) = 0 ↔ bits w hi lo = 0 := by
  rw [← BitVec.toNat_inj, toNat_and_fieldMask w (by omega)]
  simp [bits]

/-- A comparison under two masks, where `c` has no bit under the first. -/
theorem and_or_eq_iff {w a b c : Word} (h : c &&& a = 0) :
    w &&& (a ||| b) = c ↔ w &&& a = 0 ∧ w &&& b = c := by
  have habsorb : w &&& (a ||| b) &&& a = w &&& a := by
    ext i
    grind
  constructor
  · intro hc
    have ha : w &&& a = 0 := by rw [← habsorb, hc, h]
    rw [BitVec.and_or_distrib_left, ha] at hc
    exact ⟨ha, by simpa using hc⟩
  · rintro ⟨ha, hb⟩
    rw [BitVec.and_or_distrib_left, ha, hb]
    exact BitVec.zero_or

/-- The comparison under a row's mask is the OPC and the reserved-bit test of the format. -/
theorem and_rowMask_iff {w : Word} {f : Format} {n : Nat} (h : n < 256) :
    w &&& rowMask f = BitVec.ofNat 32 n ↔ bits w 7 0 = n ∧ f.clear w = true := by
  have hranges : ∀ r ∈ f.reserved, 8 ≤ r.2 ∧ r.2 ≤ r.1 ∧ r.1 < 32 := by cases f <;> decide
  rw [rowMask, Format.clear]
  generalize f.reserved = ranges at hranges ⊢
  induction ranges with
  | nil =>
    rw [List.foldr_nil, ← BitVec.toNat_inj, toNat_and_fieldMask w (by decide), BitVec.toNat_ofNat,
      Nat.mod_eq_of_lt (h.trans (by decide))]
    simp [bits]
  | cons r rs ih =>
    obtain ⟨⟨h8, hle, hlt⟩, hrs⟩ := List.forall_mem_cons.mp hranges
    have hn : BitVec.ofNat 32 n &&& fieldMask r.2 (r.1 + 1 - r.2) = 0 := by
      apply word_and_fieldMask_eq_zero (by omega)
      rw [Nat.div_eq_of_lt (h.trans_le (Nat.pow_le_pow_right (n := 2) (by decide) h8)), Nat.zero_mod]
    rw [List.foldr_cons, and_or_eq_iff hn, and_fieldMask_eq_zero_iff hle hlt, List.all_cons,
      Bool.and_eq_true, beq_iff_eq, and_left_comm]
    exact and_congr_right fun _ => ih hrs

/-- A word selects a row of the table exactly if it decodes to a command of the row's OPC. -/
theorem and_row_eq_iff (w : Word) {r : Nat × Word} (hr : r ∈ opcodeRows) :
    w &&& r.2 = BitVec.ofNat 32 r.1 ↔ ∃ i, decode w = .ok i ∧ i.opc = r.1 := by
  rw [opcodeRows_eq] at hr
  obtain ⟨i, -, rfl⟩ := List.mem_map.mp hr
  rw [and_rowMask_iff (Laws.opc_lt i)]
  constructor
  · rintro ⟨hopc, hclear⟩
    exact ⟨readFields w i, by rw [decode_of_opc hopc, checked, if_pos hclear], opc_readFields w i⟩
  · rintro ⟨j, hj, hji⟩
    have hopc : bits w 7 0 = i.opc := (bits_opc_of_decode hj).trans hji
    rw [decode_of_opc hopc, checked_eq_ok_iff] at hj
    exact ⟨hopc, hj.1⟩

/-- Settles O2: the word is its command's encoding, and a row's mask covers OPC and the reserved bits. -/
theorem eachWordHasOneMeaning : Obligations.EachWordHasOneMeaning :=
  fun w => ⟨fun _ => decode_eq_ok_iff_encode.mp, fun _ => and_row_eq_iff w⟩

/-- Settles O5: a word no row selects does not decode, so the step that ends its run rejects it. -/
theorem illegalWordRaisesIllegalCommand : Obligations.IllegalWordRaisesIllegalCommand := by
  intro s w hengine herr hrow
  cases hw : decode w with
  | ok i =>
    obtain ⟨r, hr, hri⟩ := List.mem_map.mp (opc_mem_opcodeRows i)
    exact absurd ((and_row_eq_iff w hr).mpr ⟨i, hw, hri.symm⟩) (hrow r hr)
  | error e =>
    have hstep : step s = rejectWord w s := by simp [step, hengine, runWord, hw]
    rw [hstep, rejectWord, command_of_error herr rfl, raise_of_ne _ s ErrCode.noConfusion]
    rfl

/-- Settles O3: the words are decoded one by one; that the OPC is the low byte holds of every decoded word. -/
theorem specWordsDecode : Obligations.SpecWordsDecode := by
  have hdecode : ∀ p ∈ specWords, decode p.1 = .ok p.2 := by decide
  have hreject : illegalWords.all (fun w => !(decode w).isOk) = true := by decide
  refine ⟨fun p hp => ⟨hdecode p hp, ?_⟩, fun w hw i hi => ?_⟩
  · simpa [bits] using (bits_opc_of_decode (hdecode p hp)).symm
  · have hnot : (!(decode w).isOk) = true := List.all_eq_true.mp hreject w hw
    rw [hi] at hnot
    cases hnot

end Sys2Proof.Machine

/-! ## What a command writes and what it reads -/

namespace Sys2Proof.Machine

/-! ### What each command writes -/

/-- `u` is `s` but for what the command may write on success (R85 and the command rules). -/
def Writes (i : Instr) (s u : State) : Prop :=
  match i with
  | .nop => u = s
  | .memwr _ => u = { s with data := u.data, raw := u.raw }
  | .memrd _ | .bbGet | .gfMul _ _ | .rsRd _ _ | .mxRead _ _ => u = { s with result0 := u.result0 }
  | .bbClr | .bbApb _ | .bbApby _ | .bbApnum _ | .bbApaln _ | .bbApeci | .segHdr _ => u = { s with bb := u.bb }
  | .rsDiv _ => u = { s with div := u.div, rem := u.rem, deg := u.deg }
  | .rsRem => u = { s with rem := u.rem }
  | .segDef _ _ => u = { s with segtab := u.segtab }
  | .vsel _ _ _ =>
    u = { s with
      cfg := { s.cfg with version := u.cfg.version, ecl := u.cfg.ecl }
      result0 := u.result0, result1 := u.result1 }
  | .capq | .mxPen => u = { s with result0 := u.result0, result1 := u.result1 }
  | .termpad => u = { s with bb := u.bb, result0 := u.result0 }
  | .pack => u = { s with data := u.data, result0 := u.result0 }
  | .intlv =>
    u = { s with raw := u.raw, div := u.div, rem := u.rem, deg := u.deg, result0 := u.result0 }
  | .mxInit =>
    u = { s with
      mxVer := u.mxVer, mxEcl := u.mxEcl, mxMaskV := u.mxMaskV, mxState := u.mxState, planes := u.planes }
  | .mxPlace => u = { s with planes := u.planes, mxState := u.mxState, result0 := u.result0 }
  | .mxMask _ | .mxFmt _ | .mxWr _ _ => u = { s with planes := u.planes }
  | .msel =>
    u = { s with
      planes := u.planes, mxMask := u.mxMask, mxMaskV := u.mxMaskV, mxState := u.mxState
      result0 := u.result0, result1 := u.result1 }

/-- The state a command's checks and writes hand over, if they succeed, has the property. -/
def Yields (p : State → Prop) (r : Except Raised State) : Prop := ∀ u, r = .ok u → p u

namespace Yields

variable {p : State → Prop}

@[simp] theorem error (e : Raised) : Yields p (.error e) := fun _ h => by cases h

@[simp] theorem ok_iff {u : State} : Yields p (.ok u) ↔ p u :=
  ⟨fun h => h u rfl, fun h v hv => by cases hv; exact h⟩

@[simp] theorem ite_iff {c : Prop} [Decidable c] {a b : Except Raised State} :
    Yields p (if c then a else b) ↔ (c → Yields p a) ∧ (¬ c → Yields p b) := by
  split <;> simp [*]

@[simp] theorem appendBits_iff {bs : List Bool} {s : State} :
    Yields p (appendBits bs s) ↔ (s.bb.length + bs.length ≤ Config.bbCap → p { s with bb := s.bb ++ bs }) := by
  rcases appendBits_cases bs s with ⟨hle, e⟩ | ⟨hlt, e⟩
  · simp [e, hle]
  · simp [e, Nat.not_le.mpr hlt]

/-- Dropped, completed with what the body hands over, or ended by an error. -/
theorem command {opc : BitVec 8} {body : State → Except Raised State} {s t : State} (hbody : Yields p (body s))
    (h : command opc body s = .next t) :
    (s.err ≠ none ∧ t = drop s) ∨ (s.err = none ∧ ∃ u, p u ∧ t = complete u) ∨
      (s.err = none ∧ ∃ e opc, t = raise e opc s) := by
  obtain ⟨t', ht', hcases⟩ := command_cases (opc := opc) (body := body) (s := s)
  obtain rfl : t' = t := by simpa using ht'.symm.trans h
  rcases hcases with hdrop | ⟨herr, u, hu, ht⟩ | ⟨herr, e, -, ht⟩
  · exact .inl hdrop
  · exact .inr (.inl ⟨herr, u, hbody u hu, ht⟩)
  · exact .inr (.inr ⟨herr, e, opc, ht⟩)

end Yields

theorem writes_spaceWrite (s : State) (space space' a : Nat) (v : Byte) :
    Writes (.memwr space') s (spaceWrite s space a v) := by
  unfold spaceWrite
  split <;> rfl

/-- A command is dropped, completes with its writes or ends in an error. -/
theorem exec_cases (i : Instr) {s t : State} (h : exec i s = .next t) :
    (s.err ≠ none ∧ t = drop s) ∨ (s.err = none ∧ ∃ u, Writes i s u ∧ t = complete u) ∨
      (s.err = none ∧ ∃ e opc, t = raise e opc s) := by
  unfold exec at h
  cases i with
  | memwr space =>
    refine Yields.command ?_ h
    split <;> simp [writes_spaceWrite]
  | memrd space | bbGet | segHdr _ =>
    refine Yields.command ?_ h
    split <;> simp [Writes]
  | bbApaln n =>
    refine Yields.command ?_ h
    simp only [Yields.ite_iff, Yields.error, implies_true, true_and]
    refine fun _ _ => ⟨fun _ => ?_, fun _ => ?_⟩ <;> split <;> simp [Writes]
  | vsel minver maxver boost =>
    refine Yields.command ?_ h
    simp only [Yields.ite_iff, Yields.error, implies_true, true_and]
    intro _ _
    split
    · simp
    · split <;> simp [Writes]
  | _ => exact Yields.command (by simp [Writes]) h

/-- Settles O10: dropped, a command writes no store or result; completed, it writes what `Writes` lists, which keeps
every field a clause does not exclude it from; in error, it writes a result for DataTooLong only. -/
theorem storesChangeOnlyUnderTheirCommands : Obligations.StoresChangeOnlyUnderTheirCommands := by
  intro i s t h
  refine ⟨exec_sameHostSide i h, ?_⟩
  rcases exec_cases i h with ⟨herr, rfl⟩ | ⟨herr, u, hu, rfl⟩ | ⟨herr, e, opc, rfl⟩
  · simp [herr]
  · cases i with
    | _ =>
      rw [Writes] at hu
      rw [hu]
      simp [herr, writesResult0, writesResult1]
  · by_cases he : e.code = .dataTooLong
    · simp [he]
    · rw [raise_of_ne opc s he]
      simp

/-! ### What each command reads of the operand registers -/

/-- The operand registers mapped by `f` and `g`. -/
def State.mapArgs (f g : Word → Word) (s : State) : State := { s with arg0 := f s.arg0, arg1 := g s.arg1 }

/-- `r'` is the result `r` with the operand registers of its state mapped. -/
def MapsArgs (f g : Word → Word) (r' r : Except Raised State) : Prop := r' = r.map (State.mapArgs f g)

namespace MapsArgs

variable {f g : Word → Word}

theorem error {e : Raised} : MapsArgs f g (.error e) (.error e) := rfl

theorem ok {u u' : State} (h : u' = u.mapArgs f g) : MapsArgs f g (.ok u') (.ok u) := congrArg _ h

theorem ite {c : Prop} [Decidable c] {a a' b b' : Except Raised State} (ha : MapsArgs f g a' a)
    (hb : MapsArgs f g b' b) : MapsArgs f g (if c then a' else b') (if c then a else b) := by
  split
  · exact ha
  · exact hb

theorem appendBits {bs : List Bool} {s : State} :
    MapsArgs f g (appendBits bs (s.mapArgs f g)) (appendBits bs s) := ite error (ok rfl)

/-- Dropped, completed or in error, a command does the same to the mapped state if its body does. -/
theorem command {opc : BitVec 8} {body : State → Except Raised State} {s t : State}
    (hbody : MapsArgs f g (body (s.mapArgs f g)) (body s)) (h : command opc body s = .next t) :
    command opc body (s.mapArgs f g) = .next (t.mapArgs f g) := by
  obtain ⟨t', ht', hcases⟩ := command_cases (opc := opc) (body := body) (s := s)
  obtain rfl : t' = t := by simpa using ht'.symm.trans h
  have hmap : body (s.mapArgs f g) = (body s).map (State.mapArgs f g) := hbody
  rcases hcases with ⟨herr, rfl⟩ | ⟨herr, u, hu, rfl⟩ | ⟨herr, e, he, rfl⟩
  · exact command_of_err herr
  · rw [hu] at hmap
    exact command_of_ok (s := s.mapArgs f g) herr hmap
  · rw [he] at hmap
    refine (command_of_error (s := s.mapArgs f g) herr hmap).trans ?_
    cases e <;> rfl

end MapsArgs

/-- Every body is a chain of checks that ends in an error, an append or a write of other fields. It reads of the
operand registers at most those R85 lists, and `f` and `g` keep these. -/
theorem exec_mapArgs (i : Instr) {s t : State} {f g : Word → Word} (hf : readsArg0 i = true → f = id)
    (hg : readsArg1 i = true → g = id) (h : exec i s = .next t) :
    exec i (s.mapArgs f g) = .next (t.mapArgs f g) := by
  unfold exec at h ⊢
  cases i with
  | memwr _ | rsRem | segDef _ _ =>
    obtain rfl := hf rfl
    obtain rfl := hg rfl
    exact h
  | memrd space =>
    obtain rfl := hf rfl
    refine MapsArgs.command ?_ h
    cases spaceSize space
    · exact .error
    · exact .ite .error (.ok rfl)
  | nop | bbClr | gfMul _ _ => exact MapsArgs.command (.ok rfl) h
  | rsRd _ _ | rsDiv _ | capq | pack | mxInit | mxMask _ | mxFmt _ | mxPen =>
    exact MapsArgs.command (.ite .error (.ok rfl)) h
  | termpad | msel => exact MapsArgs.command (.ite .error (.ite .error (.ok rfl))) h
  | mxRead _ _ => exact MapsArgs.command (.ite .error (.ite (.ok rfl) (.ok rfl))) h
  | intlv | mxPlace =>
    obtain rfl := hf rfl
    exact MapsArgs.command (.ite .error (.ite .error (.ok rfl))) h
  | mxWr _ _ =>
    obtain rfl := hf rfl
    exact MapsArgs.command (.ite .error (.ite .error (.ite .error (.ite .error (.ok rfl))))) h
  | bbApb _ | bbApeci =>
    obtain rfl := hf rfl
    exact MapsArgs.command (.ite .error .appendBits) h
  | bbApby _ =>
    obtain rfl := hf rfl
    exact MapsArgs.command (.ite .error (.ite .error .appendBits)) h
  | bbApnum _ =>
    obtain rfl := hf rfl
    exact MapsArgs.command (.ite .error (.ite .error (.ite .error .appendBits))) h
  | bbApaln _ =>
    obtain rfl := hf rfl
    refine MapsArgs.command (.ite .error (.ite .error (.ite ?_ ?_))) h
    · dsimp only [State.mapArgs, id]
      split
      · exact .appendBits
      · exact .error
      · exact .error
    · dsimp only [State.mapArgs, id]
      split
      · exact .appendBits
      · exact .error
  | vsel _ _ _ =>
    refine MapsArgs.command (.ite .error (.ite .error ?_)) h
    dsimp only [State.mapArgs, State.segments]
    split
    · exact .error
    · split
      · exact .error
      · exact .ok rfl
  | bbGet =>
    obtain rfl := hf rfl
    refine MapsArgs.command ?_ h
    dsimp only [State.mapArgs, id]
    split
    · exact .error
    · exact .ok rfl
  | segHdr mode =>
    obtain rfl := hf rfl
    refine MapsArgs.command ?_ h
    cases Mode.ofCode mode with
    | none => exact .error
    | some m => exact .ite .error (.ite .error .appendBits)

/-- Settles O12: setting one operand register is a map that keeps the other. -/
theorem unusedOperandsAreIgnored : Obligations.UnusedOperandsAreIgnored := by
  refine fun i s t a h => ⟨fun h0 => ?_, fun h1 => ?_⟩
  · exact exec_mapArgs (f := fun _ => a) (g := id) i (by simp [h0]) (fun _ => rfl) h
  · exact exec_mapArgs (f := id) (g := fun _ => a) i (fun _ => rfl) (by simp [h1]) h

end Sys2Proof.Machine

/-! ## Control, memory access and the read-back commands -/

namespace Sys2Proof.Machine

/-! ### The memory spaces (R101, R102) -/

theorem spaceSize_of_lt_two {space : Nat} (h : space < 2) : spaceSize space = some (sizeOfSpace space) := by
  interval_cases space <;> rfl

theorem spaceSize_of_two_le {space : Nat} (h : 2 ≤ space) : spaceSize space = none := by
  rw [spaceSize, if_neg (by omega), if_neg (by omega)]

/-- Only spaces 0 and 1 have elements. -/
theorem lt_two_of_lt_sizeOfSpace {space a : Nat} (h : a < sizeOfSpace space) : space < 2 := by
  by_contra h2
  rw [sizeOfSpace, if_neg (by omega), if_neg (by omega)] at h
  omega

/-- A write goes to the store of its space. -/
theorem spaceWrite_eq {space : Nat} (h : space < 2) (s : State) (a : Nat) (v : Byte) :
    spaceWrite s space a v = { s with
      data := if space = 0 then s.data.write a v else s.data
      raw := if space = 1 then s.raw.write a v else s.raw } := by
  interval_cases space <;> rfl

/-- What a store reads after a write that is made only under a condition. -/
theorem Memory.read_ite_write {size : Nat} {m : Memory} (hm : m.wf size = true) (c : Prop) [Decidable c]
    (a b : Nat) (v : Byte) :
    (if c then m.write a v else m).read b = if c ∧ b = a then v else m.read b := by
  by_cases hc : c
  · simp only [hc, if_true, true_and, Memory.read_write hm]
  · simp only [hc, if_false, false_and]

/-! ### MEMWR and MEMRD -/

section

variable {s : State} {space : Nat} (h : s.err = none)
include h

theorem execMemwr_eq (haddr : s.arg0.toNat < sizeOfSpace space) (hbyte : s.arg1.toNat ≤ 255) :
    execMemwr space s =
      .next (complete (spaceWrite s space s.arg0.toNat (BitVec.ofNat 8 s.arg1.toNat))) := by
  refine command_of_ok h ?_
  simp only [spaceSize_of_lt_two (lt_two_of_lt_sizeOfSpace haddr), if_neg (Nat.not_le.mpr haddr),
    if_neg (Nat.not_lt.mpr hbyte), BitVec.ofNat_toNat]

theorem execMemrd_eq (haddr : s.arg0.toNat < sizeOfSpace space) :
    execMemrd space s =
      .next (complete { s with result0 := word (spaceRead s space s.arg0.toNat).toNat }) := by
  refine command_of_ok h ?_
  simp only [spaceSize_of_lt_two (lt_two_of_lt_sizeOfSpace haddr), if_neg (Nat.not_le.mpr haddr), word,
    BitVec.ofNat_toNat]

theorem memwr_raises_invalidArgument (hspace : 2 ≤ space) : Raises (.memwr space) s .invalidArgument := by
  refine raises_of_error (e := .invalidArgument) (o := execMemwr space s) rfl rfl h ?_ ErrCode.noConfusion
  simp only [spaceSize_of_two_le hspace]

theorem memwr_raises_indexError (hspace : space < 2) (haddr : sizeOfSpace space ≤ s.arg0.toNat) :
    Raises (.memwr space) s .indexError := by
  refine raises_of_error (e := .indexError) (o := execMemwr space s) rfl rfl h ?_ ErrCode.noConfusion
  simp only [spaceSize_of_lt_two hspace]
  exact if_pos haddr

theorem memwr_raises_rangeError (haddr : s.arg0.toNat < sizeOfSpace space) (hbyte : 255 < s.arg1.toNat) :
    Raises (.memwr space) s .rangeError := by
  refine raises_of_error (e := .rangeError) (o := execMemwr space s) rfl rfl h ?_ ErrCode.noConfusion
  simp only [spaceSize_of_lt_two (lt_two_of_lt_sizeOfSpace haddr), if_neg (Nat.not_le.mpr haddr)]
  exact if_pos hbyte

theorem memrd_raises_invalidArgument (hspace : 2 ≤ space) : Raises (.memrd space) s .invalidArgument := by
  refine raises_of_error (e := .invalidArgument) (o := execMemrd space s) rfl rfl h ?_ ErrCode.noConfusion
  simp only [spaceSize_of_two_le hspace]

theorem memrd_raises_indexError (hspace : space < 2) (haddr : sizeOfSpace space ≤ s.arg0.toNat) :
    Raises (.memrd space) s .indexError := by
  refine raises_of_error (e := .indexError) (o := execMemrd space s) rfl rfl h ?_ ErrCode.noConfusion
  simp only [spaceSize_of_lt_two hspace]
  exact if_pos haddr

end

/-- Settles O28: MEMWR is a write to the store of its space; what the stores read after it is the read rule of a
canonical store. -/
theorem memwrWritesOneByte : Obligations.MemwrWritesOneByte := by
  rintro s space h ⟨⟨-, hdata, hraw, -⟩, -⟩
  refine ⟨fun haddr hbyte => ⟨_, execMemwr_eq h haddr hbyte, ?_⟩, memwr_raises_invalidArgument h,
    memwr_raises_indexError h, memwr_raises_rangeError h⟩
  rw [spaceWrite_eq (lt_two_of_lt_sizeOfSpace haddr)]
  exact ⟨rfl, fun a => Memory.read_ite_write hdata _ _ a _, fun a => Memory.read_ite_write hraw _ _ a _⟩

/-! ### BB_GET, RS_RD and MX_READ -/

section

variable {s : State} (h : s.err = none)
include h

theorem execBbGet_eq (hindex : s.arg0.toNat < s.bb.length) :
    execBbGet s = .next (complete { s with result0 := word s.bb[s.arg0.toNat].toNat }) := by
  refine command_of_ok h ?_
  simp only [List.getElem?_eq_getElem hindex]

theorem bbGet_raises_indexError (hindex : s.bb.length ≤ s.arg0.toNat) : Raises .bbGet s .indexError := by
  refine raises_of_error (e := .indexError) (o := execBbGet s) rfl rfl h ?_ ErrCode.noConfusion
  simp only [List.getElem?_eq_none hindex]

theorem execRsRd_eq {index : Nat} (sel : RsFile) (hindex : index < s.deg.val) :
    execRsRd sel index s = .next (complete { s with
      result0 := word (if sel = .rem then s.rem.read index else s.div.read index).toNat }) := by
  refine command_of_ok h ?_
  cases sel <;> simp [Nat.not_le.mpr hindex, word]

theorem rsRd_raises_indexError {index : Nat} (sel : RsFile) (hindex : s.deg.val ≤ index) :
    Raises (.rsRd sel index) s .indexError := by
  refine raises_of_error (e := .indexError) (o := execRsRd sel index s) rfl rfl h ?_ ErrCode.noConfusion
  exact if_pos hindex

theorem execMxRead_eq (x y : Nat) (hbuilt : s.mxState ≠ .unbuilt) :
    execMxRead x y s = .next (complete { s with
      result0 := if symbolSize s ≤ x ∨ symbolSize s ≤ y then 0
        else word ((s.planes.dark.get x y).toNat + (s.planes.func.get x y).toNat * 2) }) := by
  refine command_of_ok h ((if_neg hbuilt).trans ?_)
  change (if symbolSize s ≤ x ∨ symbolSize s ≤ y then _ else _) = _
  split <;> rfl

theorem mxRead_raises_sequenceError (x y : Nat) (hunbuilt : s.mxState = .unbuilt) :
    Raises (.mxRead x y) s .sequenceError := by
  refine raises_of_error (e := .sequenceError) (o := execMxRead x y s) rfl rfl h ?_ ErrCode.noConfusion
  exact if_pos hunbuilt

end

theorem word_toNat (b : Bool) : word b.toNat = if b then 1 else 0 := by cases b <;> rfl

/-- The two facets of a module side by side (R183). -/
theorem word_module (dark func : Bool) :
    word (dark.toNat + func.toNat * 2) = (if dark then 1 else 0) + (if func then 2 else 0) := by
  cases dark <;> cases func <;> rfl

/-- Settles O29: the result each command writes, and the check that fails for each error. -/
theorem readBackCommands : Obligations.ReadBackCommands := by
  refine fun s h => ⟨fun space haddr => (execMemrd_eq h haddr).trans ?_,
    fun hindex => (execBbGet_eq h hindex).trans ?_, fun sel _ => execRsRd_eq h sel,
    fun x y hbuilt => (execMxRead_eq h x y hbuilt).trans ?_, fun _ => memrd_raises_invalidArgument h,
    fun _ => memrd_raises_indexError h, bbGet_raises_indexError h, fun sel _ => rsRd_raises_indexError h sel,
    mxRead_raises_sequenceError h⟩
  · rw [spaceRead, ← apply_ite fun m : Memory => m.read s.arg0.toNat]
    rfl
  · rw [word_toNat]
    rfl
  · rw [word_module]
    rfl

/-! ### NOP and BB_CLR -/

theorem execNop_eq {s : State} (h : s.err = none) : execNop s = .next (complete s) := command_of_ok h rfl

theorem execBbClr_eq {s : State} (h : s.err = none) : execBbClr s = .next (complete { s with bb := [] }) :=
  command_of_ok h rfl

/-- Settles O27: neither command has a check, so each completes with its write. -/
theorem nopAndClearComplete : Obligations.NopAndClearComplete := fun _ h => ⟨execNop_eq h, execBbClr_eq h⟩

end Sys2Proof.Machine

/-! ## The bit-buffer appends -/

namespace Sys2Proof.Machine

/-! ### An append that fits and one that does not (R111) -/

/-- Issued in `s`, the command appends `bs` to BB and does nothing else if they fit, and raises BufferFull if not. -/
structure Appends (i : Instr) (s : State) (bs : List Bool) : Prop where
  fits (hfit : s.bb.length + bs.length ≤ Config.bbCap) :
    exec i s = .next (complete { s with bb := s.bb ++ bs })
  full (hfull : Config.bbCap < s.bb.length + bs.length) : Raises i s .bufferFull

/-- A command whose checks pass and lead to an append does what the append does. -/
theorem appends_of_body {i : Instr} {body : State → Except Raised State} {s : State} {bs : List Bool}
    {o : Host.Outcome State Fault Refusal} (hi : exec i s = o) (ho : o = command (BitVec.ofNat 8 i.opc) body s)
    (h : s.err = none) (hb : body s = appendBits bs s) : Appends i s bs := by
  rcases appendBits_cases bs s with ⟨hle, hok⟩ | ⟨hlt, herr⟩
  · exact ⟨fun _ => by rw [hi, ho, command_of_ok h (hb.trans hok)], fun hfull => absurd hfull (Nat.not_lt.mpr hle)⟩
  · exact ⟨fun hfit => absurd hlt (Nat.not_lt.mpr hfit),
      fun _ => raises_of_error hi ho h (hb.trans herr) ErrCode.noConfusion⟩

theorem msbBits_eq_bitsOf (w v : Nat) : msbBits w v = bitsOf w v := msbBits_eq_map w v

@[simp] theorem length_bitsOf (w v : Nat) : (bitsOf w v).length = w := by simp [bitsOf]

/-! ### BB_APB -/

section

variable {s : State} {width : Nat} (h : s.err = none)
include h

theorem bbApb_appends (hv : s.arg0.toNat < 2 ^ width) : Appends (.bbApb width) s (bitsOf width s.arg0.toNat) := by
  refine appends_of_body (o := execBbApb width s) rfl rfl h ?_
  rw [← msbBits_eq_bitsOf]
  exact if_neg (not_not.mpr (Nat.div_eq_of_lt hv))

theorem bbApb_raises_rangeError (hv : 2 ^ width ≤ s.arg0.toNat) : Raises (.bbApb width) s .rangeError := by
  refine raises_of_error (e := .rangeError) (o := execBbApb width s) rfl rfl h ?_ ErrCode.noConfusion
  exact if_pos (Nat.div_pos hv (by positivity)).ne'

end

/-- Settles O30: past its one check BB_APB is an append of the bits of ARG0. -/
theorem bbApbAppendsTheValue : Obligations.BbApbAppendsTheValue :=
  fun _ _ h => ⟨fun hv hfit => (bbApb_appends h hv).fits (by simpa using hfit), bbApb_raises_rangeError h,
    fun hv hfull => (bbApb_appends h hv).full (by simpa using hfull)⟩

/-! ### The lanes of ARG0 (R65, R113) -/

theorem lanes_succ (a : Word) (n : Nat) : lanes a (n + 1) = lanes a n ++ [lane a n] := by
  simp [lanes, List.range_succ]

theorem lanesClear_iff (a : Word) (n : Nat) : lanesClear a n ↔ a.toNat < 2 ^ (8 * n) := by
  have hdiv : a.toNat / 2 ^ (8 * n) = 0 ↔ a.toNat < 2 ^ (8 * n) := Nat.div_eq_zero_iff_lt (by positivity)
  rw [lanesClear, hdiv, or_iff_right_of_imp]
  rintro rfl
  exact a.isLt

theorem testBit_lane (a : Word) (k : Nat) {j : Nat} (hj : j < 8) : (lane a k).testBit j = a.getLsbD (8 * k + j) := by
  rw [lane, Nat.testBit_mod_two_pow, Nat.testBit_div_two_pow, BitVec.testBit_toNat, Nat.add_comm]
  simp [hj]

/-- The bits of the lanes one after the other, each lane's most significant bit first. -/
theorem flatMap_msbBits_lanes (a : Word) (n : Nat) :
    (lanes a n).flatMap (msbBits 8) = (List.range (8 * n)).map fun j => a.getLsbD (8 * (j / 8) + (7 - j % 8)) := by
  induction n with
  | zero => rfl
  | succ n ih =>
    rw [lanes_succ, List.flatMap_append, ih, Nat.mul_succ, List.range_add, List.map_append, List.flatMap_singleton,
      msbBits_eq_map, List.map_map]
    congr 1
    refine List.map_congr_left fun j hj => ?_
    have hj8 : j < 8 := List.mem_range.mp hj
    rw [testBit_lane a n (by omega), Function.comp_apply]
    congr 1
    omega

/-- An operand that holds the characters `cs`, the first in lane 0, has them as its lanes. -/
theorem lanes_of_ofDigits {a : Word} {cs : List Nat} (hcs : ∀ c ∈ cs, c < 2 ^ 8)
    (ha : a.toNat = Nat.ofDigits (2 ^ 8) cs) : lanes a cs.length = cs := by
  refine List.ext_getElem (length_lanes a _) fun k _ hk => ?_
  have hlane : lane a k = cs[k] := by
    rw [lane, ha, pow_mul, Nat.ofDigits_div_pow_eq_ofDigits_drop k (by decide) cs hcs, List.drop_eq_getElem_cons hk,
      Nat.ofDigits_cons, Nat.add_mul_mod_self_left, Nat.mod_eq_of_lt (hcs _ (List.getElem_mem hk))]
  simpa [lanes] using hlane

theorem lt_of_ofDigits {a : Word} {cs : List Nat} (hcs : ∀ c ∈ cs, c < 2 ^ 8)
    (ha : a.toNat = Nat.ofDigits (2 ^ 8) cs) : a.toNat < 2 ^ (8 * cs.length) := by
  rw [ha, pow_mul]
  exact Nat.ofDigits_lt_base_pow_length (by decide) hcs

/-! ### The checks of the lanes (R113) -/

/-- BB_APBY, BB_APNUM and BB_APALN begin with two checks, of `n` and of the lanes from `n` on; `r` is what follows. -/
def laneChecks (top n : Nat) (a : Word) (r : Except Raised State) : Except Raised State :=
  if n = 0 ∨ n > top then .error .invalidArgument else if ¬ lanesClear a n then .error .rangeError else r

theorem laneChecks_pass {top n : Nat} {a : Word} {r : Except Raised State} (h1 : 1 ≤ n) (htop : n ≤ top)
    (ha : a.toNat < 2 ^ (8 * n)) : laneChecks top n a r = r := by
  rw [laneChecks, if_neg (by omega), if_neg (by rwa [lanesClear_iff, not_not])]

/-- What the two checks raise. -/
structure LaneErrors (i : Instr) (s : State) (top n : Nat) : Prop where
  invalidArgument (hn : n = 0 ∨ top < n) : Raises i s .invalidArgument
  rangeError (h1 : 1 ≤ n) (htop : n ≤ top) (ha : 2 ^ (8 * n) ≤ s.arg0.toNat) : Raises i s .rangeError

theorem laneErrors_of_body {i : Instr} {body : State → Except Raised State} {s : State} {top n : Nat}
    {r : Except Raised State} {o : Host.Outcome State Fault Refusal} (hi : exec i s = o)
    (ho : o = command (BitVec.ofNat 8 i.opc) body s) (h : s.err = none) (hb : body s = laneChecks top n s.arg0 r) :
    LaneErrors i s top n where
  invalidArgument hn :=
    raises_of_error (e := .invalidArgument) hi ho h (hb.trans (if_pos hn)) ErrCode.noConfusion
  rangeError h1 htop ha := by
    refine raises_of_error (e := .rangeError) hi ho h (hb.trans ?_) ErrCode.noConfusion
    rw [laneChecks, if_neg (by omega), if_pos (by rwa [lanesClear_iff, Nat.not_lt])]

/-! ### BB_APBY -/

section

variable {s : State} {n : Nat} (h : s.err = none)
include h

theorem bbApby_laneErrors : LaneErrors (.bbApby n) s 4 n :=
  laneErrors_of_body (o := execBbApby n s) rfl rfl h rfl

theorem bbApby_appends (h1 : 1 ≤ n) (h4 : n ≤ 4) (ha : s.arg0.toNat < 2 ^ (8 * n)) :
    Appends (.bbApby n) s ((List.range (8 * n)).map fun j => s.arg0.getLsbD (8 * (j / 8) + (7 - j % 8))) := by
  rw [← flatMap_msbBits_lanes]
  exact appends_of_body (o := execBbApby n s) rfl rfl h (laneChecks_pass h1 h4 ha)

end

/-- Settles O31: past the checks of the lanes BB_APBY is an append of the lanes' bits. -/
theorem bbApbyAppendsTheLanes : Obligations.BbApbyAppendsTheLanes :=
  fun _ _ h => ⟨fun h1 h4 ha hfit => (bbApby_appends h h1 h4 ha).fits (by simpa using hfit),
    (bbApby_laneErrors h).invalidArgument, (bbApby_laneErrors h).rangeError,
    fun h1 h4 ha hfull => (bbApby_appends h h1 h4 ha).full (by simpa using hfull)⟩

/-! ### BB_APNUM -/

@[simp] theorem isDigit_iff (c : Nat) : isDigit c = true ↔ 0x30 ≤ c ∧ c ≤ 0x39 := by simp [isDigit]

theorem all_isDigit_lanes_iff (a : Word) (n : Nat) :
    (lanes a n).all isDigit = true ↔ ∀ k < n, 0x30 ≤ byteAt a k ∧ byteAt a k ≤ 0x39 := by
  simp only [lanes, List.all_map, List.all_eq_true, List.mem_range, Function.comp_apply, isDigit_iff]
  rfl

theorem all_isDigit_ascii {ds : List Nat} (hds : ∀ d ∈ ds, d ≤ 9) : (ds.map (0x30 + ·)).all isDigit = true := by
  simp only [List.all_map, List.all_eq_true, Function.comp_apply, isDigit_iff]
  exact fun d hd => ⟨Nat.le_add_right _ d, Nat.add_le_add_left (hds d hd) 0x30⟩

theorem digitsValue_ascii (ds : List Nat) : digitsValue (ds.map (0x30 + ·)) = ds.foldl (fun v d => v * 10 + d) 0 := by
  simp [digitsValue, List.foldl_map]

section

variable {s : State} {n : Nat} (h : s.err = none)
include h

theorem bbApnum_laneErrors : LaneErrors (.bbApnum n) s 3 n :=
  laneErrors_of_body (o := execBbApnum n s) rfl rfl h rfl

theorem bbApnum_raises_formatError (h1 : 1 ≤ n) (h3 : n ≤ 3) (ha : s.arg0.toNat < 2 ^ (8 * n))
    (hdigits : (lanes s.arg0 n).all isDigit = false) : Raises (.bbApnum n) s .formatError :=
  raises_of_error (e := .formatError) (o := execBbApnum n s) rfl rfl h
    ((laneChecks_pass h1 h3 ha).trans (if_pos hdigits)) ErrCode.noConfusion

theorem bbApnum_appends (h1 : 1 ≤ n) (h3 : n ≤ 3) (ha : s.arg0.toNat < 2 ^ (8 * n))
    (hdigits : (lanes s.arg0 n).all isDigit = true) :
    Appends (.bbApnum n) s (bitsOf (3 * n + 1) (digitsValue (lanes s.arg0 n))) := by
  rw [← msbBits_eq_bitsOf]
  exact appends_of_body (o := execBbApnum n s) rfl rfl h
    ((laneChecks_pass h1 h3 ha).trans (if_neg (by simp [hdigits])))

/-- `v` is the number the digits `ds` spell. -/
theorem bbApnum_appends_digits {ds : List Nat} {v : Nat} (h1 : 1 ≤ ds.length) (h3 : ds.length ≤ 3)
    (hds : ∀ d ∈ ds, d ≤ 9) (ha : s.arg0.toNat = Nat.ofDigits (2 ^ 8) (ds.map (0x30 + ·)))
    (hv : ds.foldl (fun v d => v * 10 + d) 0 = v) :
    Appends (.bbApnum ds.length) s (bitsOf (3 * ds.length + 1) v) := by
  have hcs : ∀ c ∈ ds.map (0x30 + ·), c < 2 ^ 8 := by
    rw [List.forall_mem_map]
    exact fun d hd => (Nat.add_le_add_left (hds d hd) 0x30).trans_lt (by decide)
  have hlanes : lanes s.arg0 ds.length = ds.map (0x30 + ·) := by simpa using lanes_of_ofDigits hcs ha
  have hlt : s.arg0.toNat < 2 ^ (8 * ds.length) := by simpa using lt_of_ofDigits hcs ha
  rw [← hv, ← digitsValue_ascii, ← hlanes]
  exact bbApnum_appends h h1 h3 hlt (hlanes ▸ all_isDigit_ascii hds)

end

/-- Settles O32: past its checks BB_APNUM is an append of the digits' value, which is written out for one, two and three
digits. -/
theorem bbApnumAppendsTheNumber : Obligations.BbApnumAppendsTheNumber := by
  refine fun s h => ⟨fun ds h1 h3 hds ha hfit => ?_, fun n => ⟨(bbApnum_laneErrors h).invalidArgument,
    (bbApnum_laneErrors h).rangeError, fun h1 h3 hlt => ⟨?_, fun hdigits hfull => ?_⟩⟩⟩
  · refine (bbApnum_appends_digits h h1 h3 hds (ha.trans ?_) ?_).fits (by simpa using hfit)
    · match ds, h1, h3 with
      | [a], _, _ => simp
      | [a, b], _, _ => simp [Nat.ofDigits_cons]
      | [a, b, c], _, _ => simp +arith [Nat.ofDigits_cons]
    · match ds, h1, h3 with
      | [a], _, _ => simp
      | [a, b], _, _ => simp +arith
      | [a, b, c], _, _ => simp +arith
  · rintro ⟨k, hk, hbad⟩
    refine bbApnum_raises_formatError h h1 h3 hlt (Bool.eq_false_iff.mpr fun hall => ?_)
    have := (all_isDigit_lanes_iff _ _).mp hall k hk
    omega
  · exact (bbApnum_appends h h1 h3 hlt ((all_isDigit_lanes_iff _ _).mpr hdigits)).full (by simpa using hfull)

/-! ### BB_APALN -/

/-- The table lists the characters in the order of R58. -/
theorem charset_eq : charset = (List.range 45).map asciiOf := by decide

theorem charsetIndex_asciiOf {i : Nat} (hi : i < 45) : charsetIndex (asciiOf i) = some i := by
  revert i
  decide

theorem asciiOf_lt {i : Nat} (hi : i < 45) : asciiOf i < 2 ^ 8 := by
  revert i
  decide

theorem charsetIndex_eq_none {c : Nat} (hc : ∀ i < 45, c ≠ asciiOf i) : charsetIndex c = none := by
  rw [charsetIndex, charset_eq, List.findIdx?_eq_none_iff]
  intro c' hc'
  obtain ⟨i, hi, rfl⟩ := List.mem_map.mp hc'
  exact beq_false_of_ne (hc i (List.mem_range.mp hi)).symm

section

variable {s : State} {n : Nat} (h : s.err = none)
include h

theorem bbApaln_laneErrors : LaneErrors (.bbApaln n) s 2 n :=
  laneErrors_of_body (o := execBbApaln n s) rfl rfl h rfl

theorem bbApaln_raises_formatError (h1 : 1 ≤ n) (h2 : n ≤ 2) (ha : s.arg0.toNat < 2 ^ (8 * n)) {k : Nat} (hk : k < n)
    (hnone : charsetIndex (lane s.arg0 k) = none) : Raises (.bbApaln n) s .formatError := by
  refine raises_of_error (e := .formatError) (o := execBbApaln n s) rfl rfl h ((laneChecks_pass h1 h2 ha).trans ?_)
    ErrCode.noConfusion
  obtain ⟨rfl, rfl⟩ | ⟨rfl, rfl⟩ | ⟨rfl, rfl⟩ : n = 1 ∧ k = 0 ∨ n = 2 ∧ k = 0 ∨ n = 2 ∧ k = 1 := by omega
  · simp [hnone]
  · simp [hnone]
  · cases hfirst : charsetIndex (lane s.arg0 0) <;> simp [hnone]

theorem bbApaln_appends_pair {i j : Nat} (ha : s.arg0.toNat < 2 ^ (8 * 2)) (hi : i < 45) (hj : j < 45)
    (h0 : lane s.arg0 0 = asciiOf i) (h1 : lane s.arg0 1 = asciiOf j) :
    Appends (.bbApaln 2) s (bitsOf 11 (i * 45 + j)) := by
  rw [← msbBits_eq_bitsOf]
  refine appends_of_body (o := execBbApaln 2 s) rfl rfl h ((laneChecks_pass (by decide) (by decide) ha).trans ?_)
  simp [h0, h1, charsetIndex_asciiOf, hi, hj]

theorem bbApaln_appends_single {i : Nat} (ha : s.arg0.toNat < 2 ^ (8 * 1)) (hi : i < 45)
    (h0 : lane s.arg0 0 = asciiOf i) : Appends (.bbApaln 1) s (bitsOf 6 i) := by
  rw [← msbBits_eq_bitsOf]
  refine appends_of_body (o := execBbApaln 1 s) rfl rfl h ((laneChecks_pass (by decide) (by decide) ha).trans ?_)
  simp [h0, charsetIndex_asciiOf, hi]

end

/-- Settles O33: past its checks BB_APALN is an append of the index of the one character or of the pair. -/
theorem bbApalnAppendsTheIndexes : Obligations.BbApalnAppendsTheIndexes := by
  refine fun s h => ⟨fun i j hi hj => ⟨fun ha hfit => ?_, fun ha hfit => ?_⟩,
    fun n => ⟨(bbApaln_laneErrors h).invalidArgument, (bbApaln_laneErrors h).rangeError,
      fun h1 h2 hlt => ⟨?_, fun hall hfull => ?_⟩⟩⟩
  · have := asciiOf_lt hi
    have := asciiOf_lt hj
    have h0 : lane s.arg0 0 = asciiOf i := by rw [lane]; omega
    have h1 : lane s.arg0 1 = asciiOf j := by rw [lane]; omega
    exact (bbApaln_appends_pair h (by omega) hi hj h0 h1).fits (by simpa using hfit)
  · have := asciiOf_lt hi
    have h0 : lane s.arg0 0 = asciiOf i := by rw [lane]; omega
    exact (bbApaln_appends_single h (by omega) hi h0).fits (by simpa using hfit)
  · rintro ⟨k, hk, hout⟩
    exact bbApaln_raises_formatError h h1 h2 hlt hk (charsetIndex_eq_none hout)
  · obtain ⟨i, hi, hlane0⟩ := hall 0 h1
    obtain rfl | rfl : n = 1 ∨ n = 2 := by omega
    · exact (bbApaln_appends_single h hlt hi hlane0).full (by simpa using hfull)
    · obtain ⟨j, hj, hlane1⟩ := hall 1 (by decide)
      exact (bbApaln_appends_pair h hlt hi hj hlane0 hlane1).full (by simpa using hfull)

/-! ### BB_APECI -/

theorem eciBits_eq (v : Nat) :
    eciBits v = if v < 128 then bitsOf 8 v else if v < 16384 then true :: false :: bitsOf 14 v
      else true :: true :: false :: bitsOf 21 v := by
  simp only [eciBits, msbBits_eq_bitsOf]
  rfl

theorem length_eciBits (v : Nat) : (eciBits v).length = if v < 128 then 8 else if v < 16384 then 16 else 24 := by
  simp [eciBits, apply_ite List.length]

section

variable {s : State} (h : s.err = none)
include h

theorem bbApeci_appends (hv : s.arg0.toNat < 1000000) : Appends .bbApeci s (eciBits s.arg0.toNat) :=
  appends_of_body (o := execBbApeci s) rfl rfl h (if_neg (Nat.not_le.mpr hv))

theorem bbApeci_raises_rangeError (hv : 1000000 ≤ s.arg0.toNat) : Raises .bbApeci s .rangeError :=
  raises_of_error (e := .rangeError) (o := execBbApeci s) rfl rfl h (if_pos hv) ErrCode.noConfusion

end

/-- Settles O34: past its one check BB_APECI is an append of the designator. -/
theorem bbApeciAppendsTheDesignator : Obligations.BbApeciAppendsTheDesignator := by
  intro s h
  dsimp only
  rw [← eciBits_eq, ← length_eciBits]
  exact ⟨fun hv => (bbApeci_appends h hv).fits, bbApeci_raises_rangeError h, fun hv => (bbApeci_appends h hv).full⟩

end Sys2Proof.Machine

/-! ## GF(256) and Reed-Solomon -/

namespace Sys2Proof.Machine

/-! ### `gfmul` as a loop on bytes (R130) -/

/-- A map that commutes with every iteration commutes with the loop. -/
theorem map_loop {α β : Type} (f : α → β) {n : Nat} {body : Nat → α → α} {body' : Nat → β → β}
    (h : ∀ k a, f (body k a) = body' k (f a)) (a : α) : f (loop n body a) = loop n body' (f a) := by
  induction n with
  | zero => rfl
  | succ n ih => rw [loop, loop, h, ih]

/-- Multiplication by α: a shift, reduced by 0x11D, whose bit 8 cancels the bit shifted out. -/
def mulAlpha (z : Byte) : Byte := z <<< 1 ^^^ if z.msb then 0x1D else 0

/-- One iteration of `gfmul`'s loop on bytes: bit `7 - k` of `b` enters in iteration `k`. -/
def mulStep (a b : Byte) (k : Nat) (z : Byte) : Byte := mulAlpha z ^^^ if b.getLsbD (7 - k) then a else 0

theorem toNat_mulAlpha : ∀ z : Byte, (mulAlpha z).toNat = 2 * z.toNat ^^^ z.msb.toNat * 0x11D := by decide

theorem toNat_ite_byte (c : Bool) (a : Byte) : (if c then a else 0).toNat = c.toNat * a.toNat := by
  cases c <;> simp

theorem toNat_getLsbD (b : Byte) (i : Nat) : (b.getLsbD i).toNat = b.toNat >>> i % 2 := by
  rw [BitVec.getLsbD, Nat.toNat_testBit, Nat.shiftRight_eq_div_pow]

theorem toNat_msb (z : Byte) : z.msb.toNat = z.toNat >>> 7 := by
  rw [BitVec.msb_eq_getLsbD_last, toNat_getLsbD, Nat.shiftRight_eq_div_pow]
  omega

theorem toNat_mulStep (a b : Byte) (k : Nat) (z : Byte) :
    (mulStep a b k z).toNat = gfStep a.toNat b.toNat (7 - k) z.toNat := by
  rw [mulStep, BitVec.toNat_xor, toNat_mulAlpha, toNat_ite_byte, toNat_msb, toNat_getLsbD, gfStep,
    Nat.and_one_is_mod, Nat.shiftLeft_eq, pow_one, Nat.mul_comm 2]

theorem toNat_mulLoop (a b : Byte) : (loop 8 (mulStep a b) 0).toNat = gfmulNat a.toNat b.toNat :=
  map_loop BitVec.toNat (toNat_mulStep a b) 0

theorem gfmul_eq_loop (a b : Byte) : gfmul a b = loop 8 (mulStep a b) 0 := by
  rw [gfmul, ← toNat_mulLoop, BitVec.ofNat_toNat, BitVec.setWidth_eq]

theorem toNat_gfmul (a b : Byte) : (gfmul a b).toNat = gfmulNat a.toNat b.toNat := by
  rw [gfmul_eq_loop, toNat_mulLoop]

/-! ### The product is the reduced carry-less product -/

/-- The carry-less product of `a` and the low `n` bits of `b`. -/
def carrylessTo (n a b : Nat) : Nat :=
  (List.range n).foldl (fun acc i => acc ^^^ (if b.testBit i then a <<< i else 0)) 0

theorem carrylessProduct_eq (a b : Nat) : carrylessProduct a b = carrylessTo 16 a b := rfl

theorem carrylessTo_succ (n a b : Nat) :
    carrylessTo (n + 1) a b = carrylessTo n a b ^^^ (if b.testBit n then a <<< n else 0) := by
  simp only [carrylessTo, List.range_succ, List.foldl_append, List.foldl_cons, List.foldl_nil]

theorem two_mul_xor (m n : Nat) : 2 * (m ^^^ n) = 2 * m ^^^ 2 * n := by
  simpa [Nat.shiftLeft_eq, Nat.mul_comm] using Nat.shiftLeft_xor_distrib (a := m) (b := n) (i := 1)

/-- Horner's rule over GF(2): the bit below those of `c` adds its multiple of `a`. -/
theorem carrylessTo_bit (n a c : Nat) (bit : Bool) :
    carrylessTo (n + 1) a (2 * c + bit.toNat) = 2 * carrylessTo n a c ^^^ bit.toNat * a := by
  induction n with
  | zero => cases bit <;> simp [carrylessTo]
  | succ n ih =>
    have hbit : (2 * c + bit.toNat).testBit (n + 1) = c.testBit n := by
      have := bit.toNat_le
      rw [Nat.testBit_succ]
      congr 1
      omega
    rw [carrylessTo_succ, ih, hbit, carrylessTo_succ n, two_mul_xor, Nat.xor_right_comm, mul_ite, mul_zero,
      Nat.shiftLeft_succ]

theorem carrylessProduct_bit (a : Nat) {c : Nat} (hc : c < 2 ^ 15) (bit : Bool) :
    carrylessProduct a (2 * c + bit.toNat) = 2 * carrylessProduct a c ^^^ bit.toNat * a := by
  rw [carrylessProduct_eq, carrylessProduct_eq, carrylessTo_bit, carrylessTo_succ 15, Nat.testBit_lt_two_pow hc]
  simp

theorem shiftRight_eq_bit (b : Byte) (i : Nat) :
    b.toNat >>> i = 2 * (b.toNat >>> (i + 1)) + (b.getLsbD i).toNat := by
  rw [toNat_getLsbD, Nat.shiftRight_succ]
  omega

/-- What is subtracted from the register is added to the multiple. -/
theorem xor_eq_xor_reduced (x y u v : Nat) : x ^^^ y ^^^ v = x ^^^ u ^^^ v ^^^ (y ^^^ u) := by
  rw [show x ^^^ u ^^^ v ^^^ (y ^^^ u) = x ^^^ y ^^^ v ^^^ (u ^^^ u) by ac_rfl, Nat.xor_self, Nat.xor_zero]

/-- After `k` iterations the register and the product of `a` with the bits read so far differ by a multiple of
0x11D, whose factor collects the bits shifted out. -/
theorem exists_carryless_mulLoop (a b : Byte) {k : Nat} (hk : k ≤ 8) :
    ∃ q < 2 ^ k, carrylessProduct a.toNat (b.toNat >>> (8 - k)) =
      (loop k (mulStep a b) 0).toNat ^^^ carrylessProduct 0x11D q := by
  induction k with
  | zero =>
    refine ⟨0, Nat.one_pos, ?_⟩
    rw [Nat.shiftRight_eq_zero b.toNat 8 b.isLt]
    simp [carrylessProduct, loop]
  | succ k ih =>
    obtain ⟨q, hq, h⟩ := ih (by omega)
    set z := loop k (mulStep a b) 0
    have hpow : 2 ^ k ≤ 2 ^ 7 := Nat.pow_le_pow_right (by decide) (by omega)
    have hb : b.toNat >>> (7 - k + 1) < 2 ^ 15 :=
      (Nat.shiftRight_le _ _).trans_lt (b.isLt.trans (by decide))
    have hmsb := z.msb.toNat_le
    rw [show 8 - k = 7 - k + 1 by omega] at h
    refine ⟨2 * q + z.msb.toNat, by omega, ?_⟩
    calc carrylessProduct a.toNat (b.toNat >>> (8 - (k + 1)))
        = 2 * carrylessProduct a.toNat (b.toNat >>> (7 - k + 1)) ^^^ (b.getLsbD (7 - k)).toNat * a.toNat := by
          rw [show 8 - (k + 1) = 7 - k by omega, shiftRight_eq_bit b (7 - k), carrylessProduct_bit _ hb]
      _ = (mulStep a b k z).toNat ^^^ (2 * carrylessProduct 0x11D q ^^^ z.msb.toNat * 0x11D) := by
          rw [h, two_mul_xor, mulStep, BitVec.toNat_xor, toNat_mulAlpha, toNat_ite_byte, xor_eq_xor_reduced]
      _ = (loop (k + 1) (mulStep a b) 0).toNat ^^^ carrylessProduct 0x11D (2 * q + z.msb.toNat) := by
          rw [carrylessProduct_bit _ (by omega)]
          rfl

/-- Settles O36: the loop is Horner's rule, each reduction a multiple of 0x11D. -/
theorem gfProductIsReducedModulo0x11D : Obligations.GfProductIsReducedModulo0x11D := by
  refine ⟨fun a b ha hb => ?_, toNat_gfmul⟩
  obtain ⟨a, rfl⟩ : ∃ x : Byte, x.toNat = a := ⟨BitVec.ofNat 8 a, Nat.mod_eq_of_lt ha⟩
  obtain ⟨b, rfl⟩ : ∃ x : Byte, x.toNat = b := ⟨BitVec.ofNat 8 b, Nat.mod_eq_of_lt hb⟩
  rw [← toNat_mulLoop]
  exact ⟨BitVec.isLt _, exists_carryless_mulLoop a b le_rfl⟩

/-! ### The laws of the field's product -/

theorem ite_xor_bit (c c' : Bool) (a : Byte) :
    (if c ^^ c' then a else 0) = (if c then a else 0) ^^^ if c' then a else 0 := by
  cases c <;> cases c' <;> simp

theorem ite_bit_xor (c : Bool) (a a' : Byte) :
    (if c then a ^^^ a' else 0) = (if c then a else 0) ^^^ if c then a' else 0 := by
  cases c <;> simp

theorem xor_xor_xor_comm (a b c d : Byte) : a ^^^ b ^^^ (c ^^^ d) = a ^^^ c ^^^ (b ^^^ d) := by ac_rfl

theorem mulAlpha_xor (z w : Byte) : mulAlpha (z ^^^ w) = mulAlpha z ^^^ mulAlpha w := by
  rw [mulAlpha, BitVec.shiftLeft_xor_distrib, BitVec.msb_xor, ite_xor_bit, xor_xor_xor_comm, mulAlpha, mulAlpha]

theorem mulStep_xor_left (a a' b : Byte) (k : Nat) (z w : Byte) :
    mulStep (a ^^^ a') b k (z ^^^ w) = mulStep a b k z ^^^ mulStep a' b k w := by
  rw [mulStep, mulAlpha_xor, ite_bit_xor, xor_xor_xor_comm, mulStep, mulStep]

theorem mulStep_xor_right (a b b' : Byte) (k : Nat) (z w : Byte) :
    mulStep a (b ^^^ b') k (z ^^^ w) = mulStep a b k z ^^^ mulStep a b' k w := by
  rw [mulStep, mulAlpha_xor, BitVec.getLsbD_xor, ite_xor_bit, xor_xor_xor_comm, mulStep, mulStep]

/-- Loops add where their iterations do. -/
theorem loop_xor {n : Nat} {body body' body'' : Nat → Byte → Byte}
    (h : ∀ k z w, body k (z ^^^ w) = body' k z ^^^ body'' k w) :
    loop n body 0 = loop n body' 0 ^^^ loop n body'' 0 := by
  induction n with
  | zero => simp [loop]
  | succ n ih => rw [loop, ih, h, loop, loop]

theorem xor_gfmul (a a' b : Byte) : gfmul (a ^^^ a') b = gfmul a b ^^^ gfmul a' b := by
  simpa only [gfmul_eq_loop] using loop_xor (mulStep_xor_left a a' b)

theorem gfmul_xor (a b b' : Byte) : gfmul a (b ^^^ b') = gfmul a b ^^^ gfmul a b' := by
  simpa only [gfmul_eq_loop] using loop_xor (mulStep_xor_right a b b')

/-! The library's rules for XOR write the zero byte `0#8`, the model writes it `0`. -/

theorem zero_xor_byte (a : Byte) : 0 ^^^ a = a := BitVec.zero_xor

theorem xor_zero_byte (a : Byte) : a ^^^ 0 = a := BitVec.xor_zero

theorem xor_self_byte (a : Byte) : a ^^^ a = 0 := BitVec.xor_self

theorem zero_gfmul (b : Byte) : gfmul 0 b = 0 := by simpa using xor_gfmul 0 0 b

theorem gfmul_zero (a : Byte) : gfmul a 0 = 0 := by simpa using gfmul_xor a 0 0

theorem mulAlpha_mulStep (a b : Byte) (k : Nat) (z : Byte) :
    mulAlpha (mulStep a b k z) = mulStep (mulAlpha a) b k (mulAlpha z) := by
  rw [mulStep, mulAlpha_xor, apply_ite mulAlpha, mulStep]
  rfl

theorem gfmul_mulAlpha (a b : Byte) : gfmul (mulAlpha a) b = mulAlpha (gfmul a b) := by
  rw [gfmul_eq_loop, gfmul_eq_loop]
  exact (map_loop mulAlpha (mulAlpha_mulStep a b) 0).symm

theorem gfmul_mulStep (a b c : Byte) (k : Nat) (z : Byte) :
    gfmul (mulStep a b k z) c = mulStep (gfmul a c) b k (gfmul z c) := by
  rw [mulStep, xor_gfmul, gfmul_mulAlpha, apply_ite (gfmul · c), zero_gfmul, mulStep]

/-- Multiplications commute: each is a sum of powers of the multiplication by α. -/
theorem gfmul_right_comm (a b c : Byte) : gfmul (gfmul a b) c = gfmul (gfmul a c) b := by
  rw [gfmul_eq_loop a b, gfmul_eq_loop (gfmul a c), map_loop (gfmul · c) (gfmul_mulStep a b c), zero_gfmul]

/-- The last iteration alone adds `a`, to a register that is still 0. -/
theorem gfmul_one (a : Byte) : gfmul a 1 = a := by
  rw [gfmul_eq_loop]
  simp [loop, mulStep, mulAlpha]

/-- A byte shifted right by one place is below 128, and multiplication by α shifts it back. -/
theorem mulAlpha_ushiftRight_succ (b : Byte) (i : Nat) :
    (mulAlpha (b >>> (i + 1)) ^^^ if b.getLsbD i then 1 else 0) = b >>> i := by
  have hmsb : (b >>> (i + 1)).msb = false := by simp [BitVec.msb_ushiftRight]
  refine BitVec.eq_of_getLsbD_eq fun j hj => ?_
  rw [mulAlpha, hmsb]
  cases j with
  | zero => cases h : b.getLsbD i <;> simp [h]
  | succ j => cases h : b.getLsbD i <;> simp [hj, Nat.add_comm, Nat.add_left_comm]

/-- Multiplied by 1 the bits enter one after the other, and none is shifted out. -/
theorem mulLoop_one (b : Byte) {k : Nat} (hk : k ≤ 8) : loop k (mulStep 1 b) 0 = b >>> (8 - k) := by
  induction k with
  | zero => simp [loop, BitVec.ushiftRight_eq_zero]
  | succ k ih =>
    rw [loop, ih (by omega), mulStep, show 8 - k = 7 - k + 1 by omega, mulAlpha_ushiftRight_succ]
    congr 1
    omega

theorem one_gfmul (b : Byte) : gfmul 1 b = b := by
  rw [gfmul_eq_loop, mulLoop_one b le_rfl, BitVec.ushiftRight_zero]

/-! ### Polynomials over the field -/

/-- Horner's rule from the value `acc` of the coefficients before `l`. -/
def evalFrom (z acc : Byte) (l : List Byte) : Byte := l.foldl (fun acc c => gfmul acc z ^^^ c) acc

theorem evalAt_eq (z : Byte) (l : List Byte) : evalAt z l = evalFrom z 0 l := rfl

@[simp] theorem evalFrom_nil (z acc : Byte) : evalFrom z acc [] = acc := rfl

@[simp] theorem evalFrom_cons (z acc c : Byte) (l : List Byte) :
    evalFrom z acc (c :: l) = evalFrom z (gfmul acc z ^^^ c) l := rfl

theorem evalFrom_append (z acc : Byte) (l l' : List Byte) :
    evalFrom z acc (l ++ l') = evalFrom z (evalFrom z acc l) l' := List.foldl_append

theorem evalAt_cons (z c : Byte) (l : List Byte) : evalAt z (c :: l) = evalFrom z c l := by
  rw [evalAt_eq, evalFrom_cons, zero_gfmul, zero_xor_byte]

/-- A polynomial plus a multiple of another of the same degree. -/
theorem evalFrom_zipWith (z f : Byte) {l l' : List Byte} (h : l.length = l'.length) (acc acc' : Byte) :
    evalFrom z (acc ^^^ gfmul acc' f) (List.zipWith (fun a d => a ^^^ gfmul d f) l l') =
      evalFrom z acc l ^^^ gfmul (evalFrom z acc' l') f := by
  induction l generalizing l' acc acc' with
  | nil =>
    obtain rfl := List.eq_nil_of_length_eq_zero h.symm
    rfl
  | cons c l ih =>
    cases l' with
    | nil => cases h
    | cons c' l' =>
      rw [List.zipWith_cons_cons, evalFrom_cons, evalFrom_cons, evalFrom_cons, ← ih (Nat.succ.inj h), xor_gfmul,
        xor_gfmul, gfmul_right_comm acc', xor_xor_xor_comm]

/-- The product of `r :: rs` and `x - root` is `r` followed by what `mulRoot` makes. -/
theorem evalFrom_mulRoot (z root acc r : Byte) (rs : List Byte) :
    evalFrom z (gfmul acc (z ^^^ root) ^^^ r) (mulRoot root (r :: rs)) =
      gfmul (evalFrom z acc (r :: rs)) (z ^^^ root) := by
  induction rs generalizing acc r with
  | nil =>
    simp only [mulRoot, evalFrom_cons, evalFrom_nil, gfmul_xor, xor_gfmul]
    rw [gfmul_right_comm acc root z]
    ac_rfl
  | cons r' rs ih =>
    rw [mulRoot, evalFrom_cons, evalFrom_cons, ← ih, xor_gfmul, xor_gfmul, gfmul_right_comm acc, gfmul_xor r]
    congr 1
    ac_rfl

/-! ### The divisor (R132) -/

/-- The coefficients of `(x - α^0) ⋯ (x - α^(d-1))` below its leading 1. -/
def rootProduct : Nat → List Byte
  | 0 => []
  | d + 1 => mulRoot (alphaPow d) (1 :: rootProduct d)

theorem alphaPow_succ (i : Nat) : alphaPow (i + 1) = gfmul (alphaPow i) 0x02 := by
  simp only [alphaPow, List.range_succ, List.foldl_append, List.foldl_cons, List.foldl_nil]

theorem evalAt_rootProduct_succ (z : Byte) (d : Nat) :
    evalAt z (1 :: rootProduct (d + 1)) = gfmul (evalAt z (1 :: rootProduct d)) (z ^^^ alphaPow d) := by
  rw [evalAt_eq _ (1 :: rootProduct d), ← evalFrom_mulRoot, zero_gfmul, evalAt_cons]
  rfl

theorem evalAt_rootProduct {d i : Nat} (h : i < d) : evalAt (alphaPow i) (1 :: rootProduct d) = 0 := by
  induction d with
  | zero => cases h
  | succ d ih =>
    rw [evalAt_rootProduct_succ]
    obtain h | rfl := Nat.lt_succ_iff_lt_or_eq.mp h
    · rw [ih h, zero_gfmul]
    · rw [xor_self_byte, gfmul_zero]

theorem mulRoot_zero_cons (root r : Byte) (rs : List Byte) :
    mulRoot root (0 :: r :: rs) = r :: mulRoot root (r :: rs) := by
  rw [mulRoot, zero_gfmul, zero_xor_byte]

/-- A register whose leading byte is 0 moves one place. -/
theorem mulRoot_zeros (root r : Byte) (rs : List Byte) (n : Nat) :
    mulRoot root (List.replicate (n + 1) 0 ++ r :: rs) = List.replicate n 0 ++ r :: mulRoot root (r :: rs) := by
  induction n with
  | zero => exact mulRoot_zero_cons root r rs
  | succ n ih => exact (mulRoot_zero_cons root 0 _).trans (congrArg (0 :: ·) ih)

theorem divisorLoop_eq {d k : Nat} (h : k < d) :
    loop k (fun _ (p : List Byte × Byte) => (mulRoot p.2 p.1, gfmul p.2 0x02))
        (List.replicate (d - 1) 0 ++ [1], 1) =
      (List.replicate (d - 1 - k) 0 ++ 1 :: rootProduct k, alphaPow k) := by
  induction k with
  | zero => rfl
  | succ k ih =>
    rw [loop, ih (by omega), show d - 1 - k = d - 1 - (k + 1) + 1 by omega, mulRoot_zeros, alphaPow_succ]
    rfl

theorem divisor_eq {d : Nat} (h : 1 ≤ d) : divisor d = rootProduct d := by
  obtain ⟨d, rfl⟩ := Nat.exists_eq_add_of_le' h
  rw [divisor, loop, divisorLoop_eq (Nat.lt_succ_self d)]
  simp [rootProduct]

theorem evalAt_divisor {d i : Nat} (h : i < d) : evalAt (alphaPow i) (1 :: divisor d) = 0 := by
  rw [divisor_eq (by omega), evalAt_rootProduct h]

theorem divisor_ne_nil {d : Nat} (h : 1 ≤ d) : divisor d ≠ [] :=
  List.ne_nil_of_length_pos (by rwa [length_divisor h])

/-- Settles O38: each factor adds its root and keeps the others. -/
theorem divisorRootsAreThePowersOfAlpha : Obligations.DivisorRootsAreThePowersOfAlpha :=
  fun _ h1 _ => ⟨length_divisor h1, fun _ => evalAt_divisor⟩

/-! ### The remainder (R134) -/

/-- The register with its leading byte shifted out, plus the divisor times what that byte and `m` add up to. -/
theorem remStep_cons (div r : List Byte) (a m : Byte) :
    remStep div (a :: r) m = List.zipWith (fun c d => c ^^^ gfmul d (m ^^^ a)) (r ++ [0]) div := rfl

/-- A message byte equal to the register's leading byte cancels it. -/
theorem remStep_self {div r : List Byte} (a : Byte) (h : r.length + 1 = div.length) :
    remStep div (a :: r) a = r ++ [0] := by
  have hlen : (r ++ [0]).length ≤ div.length := by simpa using h.le
  simpa only [remStep_cons, xor_self_byte, gfmul_zero, xor_zero_byte, List.zip_eq_zipWith, List.map_zipWith]
    using List.map_fst_zip hlen

/-- A message equal to the register's leading bytes cancels them. -/
theorem foldl_remStep_self {div l : List Byte} {n : Nat} (h : l.length + n = div.length) :
    l.foldl (remStep div) (l ++ List.replicate n 0) = List.replicate div.length 0 := by
  induction l generalizing n with
  | nil => simpa using h
  | cons a l ih =>
    rw [List.length_cons] at h
    rw [List.foldl_cons, List.cons_append, remStep_self a (by simp; omega), List.append_assoc,
      ← List.replicate_succ', ih (by omega)]

theorem remainder_append (msg msg' div : List Byte) :
    remainder (msg ++ msg') div = msg'.foldl (remStep div) (remainder msg div) := List.foldl_append

theorem remainder_append_remainder (msg div : List Byte) :
    remainder (msg ++ remainder msg div) div = List.replicate div.length 0 := by
  rw [remainder_append]
  simpa using foldl_remStep_self (l := remainder msg div) (n := 0) (length_remainder msg div)

theorem remainder_zeros {div : List Byte} (hdiv : div ≠ []) (n : Nat) :
    remainder (List.replicate n 0) div = List.replicate div.length 0 := by
  induction n with
  | zero => rfl
  | succ n ih =>
    obtain ⟨d, hd⟩ := Nat.exists_eq_succ_of_ne_zero (List.length_eq_zero_iff.not.mpr hdiv)
    rw [List.replicate_succ', remainder_append, ih, hd, List.foldl_cons, List.foldl_nil, List.replicate_succ,
      remStep_self 0 (by simp [hd]), ← List.replicate_succ']
    rfl

theorem zipWith_zeros (f : Byte) (l : List Byte) :
    List.zipWith (fun c d => c ^^^ gfmul d f) (List.replicate l.length 0) l = l.map (gfmul · f) := by
  induction l with
  | nil => rfl
  | cons c l ih =>
    rw [List.length_cons, List.replicate_succ, List.zipWith_cons_cons, ih, zero_xor_byte, List.map_cons]

/-- The remainder of one byte is that multiple of the divisor. -/
theorem remainder_singleton {div : List Byte} (hdiv : div ≠ []) (m : Byte) :
    remainder [m] div = div.map (gfmul · m) := by
  obtain ⟨d, hd⟩ := Nat.exists_eq_succ_of_ne_zero (List.length_eq_zero_iff.not.mpr hdiv)
  rw [← zipWith_zeros, remainder, List.foldl_cons, List.foldl_nil, hd, List.replicate_succ, remStep_cons,
    xor_zero_byte, ← List.replicate_succ', ← List.replicate_succ]

/-! #### The remainder at the divisor's roots -/

section

variable {z : Byte} {div : List Byte} (hroot : evalAt z (1 :: div) = 0)
include hroot

/-- A message byte adds `x^d` times itself and its register a multiple of the divisor: at a root, nothing. -/
theorem evalFrom_remStep {r : List Byte} (hr : r.length = div.length) (hdiv : div ≠ []) {acc : Byte}
    (h : evalFrom z acc r = 0) (m : Byte) : evalFrom z (gfmul acc z ^^^ m) (remStep div r m) = 0 := by
  cases r with
  | nil => exact absurd (List.eq_nil_of_length_eq_zero hr.symm) hdiv
  | cons a r =>
    have hacc : gfmul acc z ^^^ m = (gfmul acc z ^^^ a) ^^^ gfmul 1 (m ^^^ a) := by
      rw [one_gfmul, BitVec.xor_comm m a, BitVec.xor_assoc, ← BitVec.xor_assoc a a m, xor_self_byte,
        zero_xor_byte]
    have hshift : evalFrom z (gfmul acc z ^^^ a) (r ++ [0]) = 0 := by
      rw [evalFrom_cons] at h
      rw [evalFrom_append, h, evalFrom_cons, evalFrom_nil, zero_gfmul, xor_zero_byte]
    rw [evalAt_cons] at hroot
    rw [remStep_cons, hacc, evalFrom_zipWith z (m ^^^ a) (by simpa using hr), hshift, hroot, zero_gfmul,
      xor_zero_byte]

theorem evalFrom_foldl_remStep (hdiv : div ≠ []) (msg : List Byte) {r : List Byte} (hr : r.length = div.length)
    {acc : Byte} (h : evalFrom z acc r = 0) :
    evalFrom z (evalFrom z acc msg) (msg.foldl (remStep div) r) = 0 := by
  induction msg generalizing r acc with
  | nil => exact h
  | cons m msg ih => exact ih (length_remStep div r m hr) (evalFrom_remStep hroot hr hdiv h m)

theorem evalAt_append_remainder (hdiv : div ≠ []) (msg : List Byte) :
    evalAt z (msg ++ remainder msg div) = 0 := by
  have hzeros : ∀ n, evalFrom z 0 (List.replicate n 0) = 0 := by
    intro n
    induction n with
    | zero => rfl
    | succ n ih => rw [List.replicate_succ, evalFrom_cons, zero_gfmul, xor_zero_byte, ih]
  rw [evalAt_eq, evalFrom_append]
  exact evalFrom_foldl_remStep hroot hdiv msg (by simp) (hzeros _)

end

/-- Settles O40: at a root of the divisor the register stands for what the message has come to; a message that is the
register clears it. -/
theorem remainderIsSystematic : Obligations.RemainderIsSystematic := by
  refine ⟨fun d msg h1 _ => ⟨?_, fun i hi => evalAt_append_remainder (evalAt_divisor hi) (divisor_ne_nil h1) msg⟩,
    fun msg div hdiv => ⟨remainder_append_remainder msg div, ?_, remainder_zeros hdiv⟩⟩
  · rw [length_remainder, length_divisor h1]
  · rw [remainder_singleton hdiv]
    simp only [gfmul_one, List.map_id']

/-! ### RS_DIV and RS_REM -/

section

variable {s : State} (h : s.err = none)
include h

theorem execRsDiv_eq {d : Nat} (h1 : 1 ≤ d) (h255 : d ≤ 255) :
    execRsDiv d s =
      .next (complete { s with div := Memory.ofList (divisor d), rem := [], deg := Fin.ofNat 256 d }) :=
  command_of_ok h (if_neg (by omega))

theorem rsDiv_raises_invalidArgument {d : Nat} (hd : d = 0 ∨ 255 < d) : Raises (.rsDiv d) s .invalidArgument :=
  raises_of_error (e := .invalidArgument) (o := execRsDiv d s) rfl rfl h (if_pos (by omega)) ErrCode.noConfusion

theorem execRsRem_eq (hdeg : s.deg.val ≠ 0) (hrange : s.arg0.toNat + s.arg1.toNat ≤ Config.dataSize) :
    execRsRem s = .next (complete { s with
      rem := s.rem.writeList 0 (remainder (s.data.readList s.arg0.toNat s.arg1.toNat)
        (s.div.readList 0 s.deg.val)) }) :=
  command_of_ok h ((if_neg hdeg).trans (if_neg (Nat.not_lt.mpr hrange)))

theorem rsRem_raises_sequenceError (hdeg : s.deg.val = 0) : Raises .rsRem s .sequenceError :=
  raises_of_error (e := .sequenceError) (o := execRsRem s) rfl rfl h (if_pos hdeg) ErrCode.noConfusion

theorem rsRem_raises_invalidArgument (hdeg : s.deg.val ≠ 0)
    (hrange : Config.dataSize < s.arg0.toNat + s.arg1.toNat) : Raises .rsRem s .invalidArgument :=
  raises_of_error (e := .invalidArgument) (o := execRsRem s) rfl rfl h
    ((if_neg hdeg).trans (if_pos hrange)) ErrCode.noConfusion

end

/-- A list read beyond its length gives the default, so a bound on the index may be written or left out. -/
theorem getD_eq_ite_of_length_le {l : List Byte} {n : Nat} (h : l.length ≤ n) (j : Nat) :
    l.getD j 0 = if j < n then l.getD j 0 else 0 := by
  split
  · rfl
  · exact List.getD_eq_default _ _ (by omega)

/-- Settles O37: past its check RS_DIV writes the divisor as a list. -/
theorem rsDivHoldsTheDivisor : Obligations.RsDivHoldsTheDivisor := by
  refine fun s d h => ⟨fun h1 h255 => ⟨_, execRsDiv_eq h h1 h255, rfl, Nat.mod_eq_of_lt (by omega),
    fun j => ⟨rfl, ?_⟩⟩, rsDiv_raises_invalidArgument h⟩
  exact (Memory.read_ofList (divisor d) j).trans (getD_eq_ite_of_length_le (length_divisor h1).le j)

/-- Settles O39: past its checks RS_REM writes the remainder over the whole of REM. -/
theorem rsRemLeavesTheRemainder : Obligations.RsRemLeavesTheRemainder := by
  rintro s h ⟨⟨-, -, -, hrem⟩, -⟩
  refine ⟨fun hdeg hrange => ⟨_, execRsRem_eq h hdeg hrange, rfl, fun j => ?_⟩, rsRem_raises_sequenceError h,
    rsRem_raises_invalidArgument h⟩
  refine (Memory.read_writeList j hrem (by simp)).trans ?_
  simp only [length_remainder, Memory.length_readList, Nat.zero_le, true_and, Nat.zero_add, Nat.sub_zero]
  split
  · simp only [Memory.readList, Nat.zero_add]
  · exact Memory.read_beyond hrem (by omega)

end Sys2Proof.Machine

/-! ## The encoder pipeline -/

namespace Sys2Proof.Machine

/-! ### The mode codes (R57) -/

theorem ofCode_eq_some_iff (n : Nat) (m : Mode) : Mode.ofCode n = some m ↔ n = indicator m := by
  refine ⟨fun h => ?_, fun h => h ▸ ofCode_indicator m⟩
  unfold Mode.ofCode at h
  split_ifs at h with hn hn hn hn hn <;> cases h <;> exact hn

theorem indicator_mem (m : Mode) : indicator m ∈ [1, 2, 4, 7, 8] := by cases m <;> decide

theorem exists_indicator_of_mem {n : Nat} (h : n ∈ [1, 2, 4, 7, 8]) : ∃ m, n = indicator m := by
  simp only [List.mem_cons, List.not_mem_nil, or_false] at h
  rcases h with rfl | rfl | rfl | rfl | rfl
  · exact ⟨.numeric, rfl⟩
  · exact ⟨.alphanumeric, rfl⟩
  · exact ⟨.byte, rfl⟩
  · exact ⟨.eci, rfl⟩
  · exact ⟨.kanji, rfl⟩

/-- A code that is none of R57's indicators is no mode. -/
theorem ofCode_eq_none {n : Nat} (h : n ∉ [1, 2, 4, 7, 8]) : Mode.ofCode n = none :=
  Option.eq_none_iff_forall_ne_some.mpr fun m hm => h ((ofCode_eq_some_iff n m).mp hm ▸ indicator_mem m)

theorem ofCode_ne_none {n : Nat} (h : n ∈ [1, 2, 4, 7, 8]) : Mode.ofCode n ≠ none := by
  obtain ⟨m, rfl⟩ := exists_indicator_of_mem h
  rw [ofCode_indicator]
  exact Option.some_ne_none m

/-! ### SEG_DEF -/

section

variable {s : State} {index mode : Nat} (h : s.err = none)
include h

theorem execSegDef_eq (hindex : index < Config.segMax) (hmode : mode ∈ [1, 2, 4, 7, 8]) :
    execSegDef index mode s = .next (complete { s with
      segtab := s.segtab.setIfInBounds index
        { mode := BitVec.ofNat 4 mode, count := s.arg0, plen := s.arg1 } }) :=
  command_of_ok h ((if_neg (Nat.not_le.mpr hindex)).trans (if_neg (ofCode_ne_none hmode)))

theorem segDef_raises_indexError (hindex : Config.segMax ≤ index) : Raises (.segDef index mode) s .indexError :=
  raises_of_error (e := .indexError) (o := execSegDef index mode s) rfl rfl h (if_pos hindex) ErrCode.noConfusion

theorem segDef_raises_invalidArgument (hindex : index < Config.segMax) (hmode : mode ∉ [1, 2, 4, 7, 8]) :
    Raises (.segDef index mode) s .invalidArgument :=
  raises_of_error (e := .invalidArgument) (o := execSegDef index mode s) rfl rfl h
    ((if_neg (Nat.not_le.mpr hindex)).trans (if_pos (ofCode_eq_none hmode))) ErrCode.noConfusion

end

/-- Settles O41: past its checks SEG_DEF is one write to SEGTAB. -/
theorem segDefWritesOneEntry : Obligations.SegDefWritesOneEntry := by
  refine fun s index mode h => ⟨fun hindex hmode => ⟨_, execSegDef_eq h hindex hmode, rfl, fun j hj => ?_⟩,
    segDef_raises_indexError h, segDef_raises_invalidArgument h⟩
  rw [complete_segtab, Vector.getElem_setIfInBounds]
  simp only [eq_comm]

/-! ### VSEL's arguments -/

/-- One entry of an illegal mode makes the whole list unreadable. -/
theorem mapM_seg_eq_none {l : List Segment} {a : Segment} (ha : a ∈ l) (hseg : a.seg = none) :
    l.mapM Segment.seg = none := by
  induction l with
  | nil => cases ha
  | cons b l ih =>
    rw [List.mapM_cons]
    rcases List.mem_cons.mp ha with rfl | hmem
    · rw [hseg]
      rfl
    · rw [ih hmem]
      cases b.seg <;> rfl

/-- SEGTAB with an illegal mode among its first NSEG entries is no list of segments. -/
theorem segments_eq_none {s : State} {i : Nat} (hi : i < Config.segMax) (hnseg : i < s.cfg.nseg.toNat)
    (hmode : s.segtab[i].mode.toNat ∉ [1, 2, 4, 7, 8]) : s.segments = none := by
  have hmem : s.segtab[i] ∈ s.segtab.toList.take s.cfg.nseg.toNat :=
    List.mem_take_iff_getElem.mpr ⟨i, by simpa using ⟨hnseg, hi⟩, by simp⟩
  refine mapM_seg_eq_none hmem ?_
  rw [Segment.seg, ofCode_eq_none hmode, Option.map_none]

/-- Settles O44: each of the three checks fails before the search begins. -/
theorem vselRejectsBadArguments : Obligations.VselRejectsBadArguments := by
  intro s minver maxver boost h hbad
  refine raises_of_error (e := .invalidArgument) (o := execVsel minver maxver boost s) rfl rfl h ?_
    ErrCode.noConfusion
  by_cases hrange : validVer minver ∧ validVer maxver ∧ minver ≤ maxver
  · refine (if_neg (not_not_intro hrange)).trans ?_
    by_cases hnseg : s.cfg.nseg.toNat > Config.segMax
    · exact if_pos hnseg
    · rcases hbad with hbad | hbad | ⟨i, hi, hlt, hmode⟩
      · exact absurd hrange hbad
      · exact absurd hbad hnseg
      · refine (if_neg hnseg).trans ?_
        rw [segments_eq_none hi hlt hmode]
  · exact if_pos hrange

/-! ### SEG_HDR -/

section

variable {s : State} {mode : Nat} {m : Mode} (h : s.err = none)
include h

theorem segHdr_raises_invalidArgument (hbad : mode ∉ [1, 2, 4, 7, 8] ∨ ¬ validVer s.cfg.version.toNat) :
    Raises (.segHdr mode) s .invalidArgument := by
  refine raises_of_error (e := .invalidArgument) (o := execSegHdr mode s) rfl rfl h ?_ ErrCode.noConfusion
  cases hmode : Mode.ofCode mode with
  | none => rfl
  | some m =>
    refine if_pos (hbad.resolve_left (not_not_intro ?_))
    exact (ofCode_eq_some_iff mode m).mp hmode ▸ indicator_mem m

theorem segHdr_raises_rangeError (hv : validVer s.cfg.version.toNat)
    (hcount : 2 ^ fieldWidth m s.cfg.version.toNat ≤ s.arg0.toNat) :
    Raises (.segHdr (indicator m)) s .rangeError := by
  refine raises_of_error (e := .rangeError) (o := execSegHdr (indicator m) s) rfl rfl h ?_ ErrCode.noConfusion
  simp only [ofCode_indicator, ccbits_eq_fieldWidth]
  exact (if_neg (not_not_intro hv)).trans (if_pos hcount)

theorem segHdr_appends (hv : validVer s.cfg.version.toNat)
    (hcount : s.arg0.toNat < 2 ^ fieldWidth m s.cfg.version.toNat) :
    Appends (.segHdr (indicator m)) s
      (bitsOf 4 (indicator m) ++ bitsOf (fieldWidth m s.cfg.version.toNat) s.arg0.toNat) := by
  refine appends_of_body (o := execSegHdr (indicator m) s) rfl rfl h ?_
  simp only [ofCode_indicator, ccbits_eq_fieldWidth, msbBits_eq_bitsOf]
  exact (if_neg (not_not_intro hv)).trans (if_neg (Nat.not_le.mpr hcount))

end

/-- Settles O45: past its checks SEG_HDR is an append of the indicator and the count; the widths and the
indicators are read off the tables. -/
theorem segHdrAppendsTheHeader : Obligations.SegHdrAppendsTheHeader := by
  refine fun s mode h => ⟨segHdr_raises_invalidArgument h, fun m => by cases m <;> rfl, ofCode_eq_some_iff, ?_⟩
  rintro m rfl hv
  refine ⟨fun hcount hfit => (segHdr_appends h hv hcount).fits ?_, segHdr_raises_rangeError h hv,
    fun hcount hfull => (segHdr_appends h hv hcount).full ?_⟩
  · simpa using hfit
  · simpa using hfull

/-! ### TERMPAD (R150) -/

/-- Where the pad bytes begin: after the terminator, at a byte boundary. -/
def padStart (cap len : Nat) : Nat := (len + min 4 (cap - len) + 7) / 8 * 8

theorem capBits_mod_eight (v : Nat) (e : Ecl) : capBits v e % 8 = 0 := Nat.mul_mod_left _ _

theorem msbBits_zero (w : Nat) : msbBits w 0 = List.replicate w false := by
  induction w with
  | zero => rfl
  | succ w ih => rw [msbBits, ih, Nat.zero_testBit, List.replicate_succ]

/-- The terminator and the zeros up to the byte boundary are one run of zeros. -/
theorem padded_eq {cap : Nat} {bb : List Bool} (h8 : cap % 8 = 0) (hle : bb.length ≤ cap) :
    padded cap bb = bb ++ (List.replicate (padStart cap bb.length - bb.length) false ++
      padBytes ((cap - padStart cap bb.length) / 8) 0xEC) := by
  have hzeros : min 4 (cap - bb.length) + (8 - (bb.length + min 4 (cap - bb.length)) % 8) % 8 =
      padStart cap bb.length - bb.length := by
    unfold padStart
    omega
  have hstart : bb.length ≤ padStart cap bb.length := by
    unfold padStart
    omega
  simp only [padded, msbBits_zero, List.append_assoc, List.length_append, List.length_replicate]
  rw [← List.append_assoc (List.replicate _ _), List.replicate_append_replicate, hzeros,
    Nat.add_sub_cancel' hstart]

theorem length_padded {cap : Nat} {bb : List Bool} (h8 : cap % 8 = 0) (hle : bb.length ≤ cap) :
    (padded cap bb).length = cap := by
  rw [padded_eq h8 hle]
  simp only [padStart, List.length_append, List.length_replicate, length_padBytes]
  omega

/-- Pad byte `i / 8` is `pad` or its alternate, and its bits go most significant first. -/
theorem getElem_padBytes (n pad i : Nat) (h : i < (padBytes n pad).length) :
    (padBytes n pad)[i] = (if i / 8 % 2 = 0 then pad else pad ^^^ 0xEC ^^^ 0x11).testBit (7 - i % 8) := by
  induction n generalizing pad i with
  | zero => simp at h
  | succ n ih =>
    simp only [padBytes]
    by_cases hi : i < 8
    · rw [List.getElem_append_left (by simpa using hi), getElem_msbBits, Nat.div_eq_of_lt hi, Nat.mod_eq_of_lt hi]
      rfl
    · obtain ⟨j, rfl⟩ := Nat.exists_eq_add_of_le' (Nat.le_of_not_lt hi)
      have halternate : pad ^^^ 0xEC ^^^ 0x11 ^^^ 0xEC ^^^ 0x11 = pad := by
        rw [Nat.xor_assoc pad, Nat.xor_assoc (pad ^^^ _), Nat.xor_assoc pad]
        exact Nat.xor_zero pad
      have hj : j < (padBytes n (pad ^^^ 0xEC ^^^ 0x11)).length := by
        simp only [length_padBytes] at h ⊢
        omega
      rw [List.getElem_append_right (by simp)]
      simp only [length_msbBits, Nat.add_sub_cancel, Nat.add_mod_right]
      rw [ih _ _ hj, halternate]
      congr 1
      rcases Nat.mod_two_eq_zero_or_one (j / 8) with hpar | hpar
      · rw [if_pos hpar, if_neg (by omega)]
      · rw [if_neg (by omega), if_pos (by omega)]

/-- The bits TERMPAD adds: zeros up to the pad bytes, then the pad bytes. -/
theorem getElem_padded {cap : Nat} {bb : List Bool} (h8 : cap % 8 = 0) (hle : bb.length ≤ cap) {p : Nat}
    (hp : p < (padded cap bb).length) (hbb : bb.length ≤ p) :
    (padded cap bb)[p] =
      if p < padStart cap bb.length then false
      else (if (p - padStart cap bb.length) / 8 % 2 = 0 then 0xEC else 0x11 : Nat).testBit (7 - p % 8) := by
  have hmod : padStart cap bb.length % 8 = 0 := Nat.mul_mod_left _ _
  have hstart : bb.length ≤ padStart cap bb.length := by
    unfold padStart
    omega
  simp only [padded_eq h8 hle]
  rw [List.getElem_append_right hbb]
  by_cases hlow : p < padStart cap bb.length
  · rw [if_pos hlow, List.getElem_append_left (by simp; omega), List.getElem_replicate]
  · rw [if_neg hlow, List.getElem_append_right (by simp; omega), getElem_padBytes]
    have hindex : p - bb.length - (padStart cap bb.length - bb.length) = p - padStart cap bb.length := by omega
    have hbit : (p - padStart cap bb.length) % 8 = p % 8 := by omega
    simp only [List.length_replicate, hindex, hbit]
    rfl

section

variable {s : State} (h : s.err = none)
include h

theorem execTermpad_eq (hv : validVer s.cfg.version.toNat)
    (hle : s.bb.length ≤ capBits s.cfg.version.toNat s.cfg.ecl) :
    execTermpad s = .next (complete { s with
      bb := padded (capBits s.cfg.version.toNat s.cfg.ecl) s.bb
      result0 := word (capBits s.cfg.version.toNat s.cfg.ecl) }) := by
  refine command_of_ok h ((if_neg (not_not_intro hv)).trans ((if_neg (Nat.not_lt.mpr hle)).trans ?_))
  simp only [length_padded (capBits_mod_eight _ _) hle]

theorem execTermpad_dataTooLong (hv : validVer s.cfg.version.toNat)
    (hlt : capBits s.cfg.version.toNat s.cfg.ecl < s.bb.length) :
    execTermpad s =
      .next (raise (.dataTooLong s.bb.length (capBits s.cfg.version.toNat s.cfg.ecl)) 0x34 s) :=
  command_of_error h ((if_neg (not_not_intro hv)).trans (if_pos hlt))

theorem termpad_raises_invalidArgument (hv : ¬ validVer s.cfg.version.toNat) :
    Raises .termpad s .invalidArgument :=
  raises_of_error (e := .invalidArgument) (o := execTermpad s) rfl rfl h (if_pos hv) ErrCode.noConfusion

end

/-- Settles O46: within the capacity TERMPAD leaves `padded`, whose length and bits are known. -/
theorem termpadFillsTheCapacity : Obligations.TermpadFillsTheCapacity := by
  refine fun s h => ⟨termpad_raises_invalidArgument h, execTermpad_dataTooLong h, fun hv hle => ?_⟩
  have h8 := capBits_mod_eight s.cfg.version.toNat s.cfg.ecl
  refine ⟨_, execTermpad_eq h hv hle, rfl, length_padded h8 hle, ?_, fun p hp hbb => getElem_padded h8 hle hp hbb⟩
  rw [complete_bb, padded_eq h8 hle, List.take_left]

/-! ### PACK (R64, R151) -/

theorem ofMsbBits_concat (bs : List Bool) (b : Bool) : ofMsbBits (bs ++ [b]) = Nat.bit b (ofMsbBits bs) := by
  rw [Nat.bit_val, ofMsbBits, List.foldl_append]
  rfl

/-- Bit `j` of the sequence, counted from its start, is the bit `j` places below the top. -/
theorem testBit_ofMsbBits {bs : List Bool} {j : Nat} (h : j < bs.length) :
    (ofMsbBits bs).testBit (bs.length - 1 - j) = bs[j] := by
  induction bs using List.reverseRecOn with
  | nil => cases h
  | append_singleton bs b ih =>
    rw [ofMsbBits_concat, List.length_append, List.length_singleton, Nat.add_sub_cancel]
    by_cases hj : j < bs.length
    · obtain ⟨i, hi⟩ : ∃ i, bs.length - j = i + 1 := ⟨bs.length - 1 - j, by omega⟩
      rw [hi, Nat.testBit_bit_succ, List.getElem_append_left hj, ← ih hj]
      congr 1
      omega
    · obtain rfl : j = bs.length := by
        rw [List.length_append, List.length_singleton] at h
        omega
      rw [Nat.sub_self, Nat.testBit_bit_zero, List.getElem_concat_length rfl]

theorem packBits_append {g : List Bool} (hg : g.length = 8) (rest : List Bool) :
    packBits (g ++ rest) = BitVec.ofNat 8 (ofMsbBits g) :: packBits rest := by
  match g, hg with
  | [_, _, _, _, _, _, _, _], _ => rfl

/-- Byte `k` is made of the `k`-th group of 8 bits. -/
theorem getD_packBits {k : Nat} {bs : List Bool} (h : 8 * k + 8 ≤ bs.length) :
    (packBits bs).getD k 0 = BitVec.ofNat 8 (ofMsbBits ((bs.drop (8 * k)).take 8)) := by
  induction k generalizing bs with
  | zero =>
    rw [← List.take_append_drop 8 bs, packBits_append (by simpa using h)]
    simp
  | succ k ih =>
    rw [← List.take_append_drop 8 bs, packBits_append (by simp; omega), List.getD_cons_succ,
      ih (by simp; omega), List.take_append_drop, List.drop_drop]
    congr 4
    omega

theorem getLsbD_packBits {k j : Nat} {bs : List Bool} (h : 8 * k + 8 ≤ bs.length) (hj : j < 8) :
    ((packBits bs).getD k 0).getLsbD (7 - j) = bs.getD (8 * k + j) false := by
  have hlen : ((bs.drop (8 * k)).take 8).length = 8 := by
    simp
    omega
  have hbit := testBit_ofMsbBits (bs := (bs.drop (8 * k)).take 8) (j := j) (by omega)
  simp only [hlen, List.getElem_take, List.getElem_drop] at hbit
  rw [getD_packBits h, BitVec.getLsbD_ofNat, decide_eq_true (by omega), Bool.true_and, hbit,
    List.getD_eq_getElem _ _ (by omega)]

section

variable {s : State} (h : s.err = none)
include h

theorem execPack_eq (h8 : s.bb.length % 8 = 0) :
    execPack s = .next (complete { s with
      data := s.data.writeList 0 (packBits s.bb), result0 := word (s.bb.length / 8) }) :=
  command_of_ok h (if_neg (not_not_intro h8))

theorem pack_raises_invalidArgument (h8 : s.bb.length % 8 ≠ 0) : Raises .pack s .invalidArgument :=
  raises_of_error (e := .invalidArgument) (o := execPack s) rfl rfl h (if_pos h8) ErrCode.noConfusion

end

/-- What DATA reads after PACK: the packed bytes, and above them what it read before. -/
theorem State.Inv.read_pack {s : State} (hs : s.Inv) (a : Nat) :
    (s.data.writeList 0 (packBits s.bb)).read a =
      if a < s.bb.length / 8 then (packBits s.bb).getD a 0 else s.data.read a := by
  obtain ⟨⟨hbb, hdata, -⟩, -⟩ := hs
  have hlen : 0 + (packBits s.bb).length ≤ Config.dataSize := by
    rw [Nat.zero_add, length_packBits]
    exact Nat.div_le_of_le_mul hbb
  rw [Memory.read_writeList a hdata hlen, length_packBits]
  simp only [Nat.zero_le, true_and, Nat.zero_add, Nat.sub_zero]

/-- Settles O47: PACK writes the packed groups from address 0 on. -/
theorem packWritesTheBytes : Obligations.PackWritesTheBytes := by
  refine fun s h hs => ⟨fun h8 => ⟨_, execPack_eq h h8, rfl, fun k j hk hj => ?_, fun a ha => ?_⟩,
    pack_raises_invalidArgument h⟩
  · rw [complete_data, hs.read_pack, if_pos (by omega), getLsbD_packBits (by omega) hj]
  · rw [complete_data, hs.read_pack, if_neg (Nat.not_lt.mpr ha)]

/-! ### The block split (R152) -/

/-- Every version and level has a block, and its blocks hold their ECC codewords. -/
theorem split_bounds : ∀ v ∈ versions, ∀ e ∈ Ecl.ordered,
    0 < numBlocks e v ∧ eccPerBlock e v ≤ rawCw v / numBlocks e v := by
  decide

section

variable {v : Nat} (hv : validVer v) (e : Ecl)
include hv

theorem numBlocks_pos : 0 < numBlocks e v := (split_bounds v (mem_versions.mpr hv) e e.mem_ordered).1

theorem eccPerBlock_le : eccPerBlock e v ≤ rawCw v / numBlocks e v :=
  (split_bounds v (mem_versions.mpr hv) e e.mem_ordered).2

/-- Short blocks and long ones: the long ones are `raw_cw % nb`. -/
theorem numBlocks_sub_shortBlocks : numBlocks e v - shortBlocks v e = rawCw v % numBlocks e v :=
  Nat.sub_sub_self (Nat.mod_lt _ (numBlocks_pos hv e)).le

theorem rawCw_eq : rawCw v = ndata v e + numBlocks e v * eccPerBlock e v := by
  have hle := (Nat.mul_le_mul_left (numBlocks e v) (eccPerBlock_le hv e)).trans (Nat.mul_div_le _ _)
  rw [ndata, Nat.mul_comm (eccPerBlock e v)]
  omega

/-- The data codewords: `shortLen` of each block, and one more of each long block. -/
theorem ndata_eq : ndata v e = numBlocks e v * shortLen v e + (numBlocks e v - shortBlocks v e) := by
  have hle := Nat.mul_le_mul_left (numBlocks e v) (eccPerBlock_le hv e)
  have hdiv := Nat.div_add_mod (rawCw v) (numBlocks e v)
  rw [numBlocks_sub_shortBlocks hv, shortLen, Nat.mul_sub, ndata, Nat.mul_comm (eccPerBlock e v)]
  omega

end

/-- Where the data of block `i` begins. -/
def blockOffset (v : Nat) (e : Ecl) (i : Nat) : Nat := i * shortLen v e + (i - shortBlocks v e)

theorem blockOffset_succ (v : Nat) (e : Ecl) (i : Nat) :
    blockOffset v e (i + 1) = blockOffset v e i + (split v e).dataLen i := by
  have hlen : (split v e).dataLen i = shortLen v e + if i < shortBlocks v e then 0 else 1 := rfl
  rw [blockOffset, blockOffset, hlen, Nat.succ_mul]
  split <;> omega

/-- Taking the blocks one after another from the data is cutting them out at their offsets. -/
theorem blockData_drop (v : Nat) (e : Ecl) (data : List Byte) (left i : Nat) :
    blockData (split v e) left i (data.drop (blockOffset v e i)) =
      (List.range left).map fun j => blockOf v e data (i + j) := by
  induction left generalizing i with
  | zero => rfl
  | succ left ih =>
    rw [blockData, List.drop_drop, ← blockOffset_succ, ih, List.range_succ_eq_map, List.map_cons, List.map_map]
    congr 1
    refine List.map_congr_left fun j _ => ?_
    rw [Function.comp_apply, Nat.succ_eq_add_one, Nat.add_right_comm, Nat.add_assoc]

theorem blockData_eq (v : Nat) (e : Ecl) (data : List Byte) (left : Nat) :
    blockData (split v e) left 0 data = (List.range left).map (blockOf v e data) := by
  have hdrop := blockData_drop v e data left 0
  simpa [blockOffset] using hdrop

theorem getD_blocks {v i : Nat} {e : Ecl} (hi : i < numBlocks e v) (data : List Byte) :
    (blocks (split v e) data).getD i [] =
      block (split v e) (divisor (eccPerBlock e v)) i (blockOf v e data i) := by
  have hlen : i < (blocks (split v e) data).length := by
    rw [blocks, List.length_mapIdx, blockData_eq, List.length_map, List.length_range]
    exact hi
  rw [List.getD_eq_getElem _ _ hlen]
  simp only [blocks, blockData_eq, List.getElem_mapIdx, List.getElem_map, List.getElem_range]
  rfl

/-! #### One block -/

section

variable {v : Nat} {e : Ecl} {data : List Byte} (hv : validVer v) (hdata : data.length = ndata v e) {i : Nat}
  (hi : i < numBlocks e v)
include hv hdata hi

/-- The data suffices for every block. -/
theorem length_blockOf : (blockOf v e data i).length = (split v e).dataLen i := by
  have hend : blockOffset v e (i + 1) ≤ ndata v e := by
    rw [ndata_eq hv, blockOffset]
    exact Nat.add_le_add (Nat.mul_le_mul_right _ hi) (Nat.sub_le_sub_right hi _)
  rw [blockOffset_succ, ← hdata] at hend
  change ((data.drop (blockOffset v e i)).take ((split v e).dataLen i)).length = _
  rw [List.length_take, List.length_drop]
  omega

theorem shortLen_le_length_blockOf : shortLen v e ≤ (blockOf v e data i).length := by
  rw [length_blockOf hv hdata hi]
  exact Nat.le_add_right _ _

/-- A data column is read from the block's data, the last one from long blocks only. -/
theorem getD_block_data {c : Nat} (hc : c < shortLen v e ∨ c = shortLen v e ∧ shortBlocks v e ≤ i) :
    ((blocks (split v e) data).getD i []).getD c 0 = (blockOf v e data i).getD c 0 := by
  have hlen : c < (blockOf v e data i).length := by
    rcases hc with hc | ⟨rfl, hlong⟩
    · exact hc.trans_le (shortLen_le_length_blockOf hv hdata hi)
    · rw [length_blockOf hv hdata hi]
      exact Nat.lt_add_of_pos_right ((if_neg (Nat.not_lt.mpr hlong)).symm ▸ Nat.one_pos)
  rw [getD_blocks hi, block, List.append_assoc, List.getD_append _ _ _ _ hlen]

/-- Past the data and the placeholder of a short block come the block's ECC codewords. -/
theorem getD_block_ecc (c : Nat) :
    ((blocks (split v e) data).getD i []).getD (shortLen v e + 1 + c) 0 =
      (remainder (blockOf v e data i) (divisor (eccPerBlock e v))).getD c 0 := by
  have hlen : (blockOf v e data i ++ if i < (split v e).nshort then [0] else []).length = shortLen v e + 1 := by
    have hdat : (blockOf v e data i).length = shortLen v e + if i < (split v e).nshort then 0 else 1 :=
      length_blockOf hv hdata hi
    rw [List.length_append, hdat]
    split <;> rfl
  rw [getD_blocks hi, block, List.getD_append_right _ _ _ _ (by omega), hlen, Nat.add_sub_cancel_left]

end

/-! ### The round-robin read-out (R152) -/

/-- Rows of one length, one after another, as one sequence. -/
theorem flatMap_range_map {α : Type} (f : Nat → Nat → α) (n m : Nat) :
    ((List.range n).flatMap fun c => (List.range m).map (f c)) =
      (List.range (m * n)).map fun k => f (k / m) (k % m) := by
  induction n with
  | zero => rfl
  | succ n ih =>
    rw [List.range_succ, List.flatMap_append, ih, Nat.mul_succ, List.range_add, List.map_append, List.map_map,
      List.flatMap_singleton]
    congr 1
    refine List.map_congr_left fun j hj => ?_
    have hj := List.mem_range.mp hj
    rw [Function.comp_apply, Nat.mul_add_div (by omega), Nat.mul_add_mod, Nat.div_eq_of_lt hj, Nat.mod_eq_of_lt hj,
      Nat.add_zero]

/-- Column `c` of the blocks, without the placeholders. -/
def column (p : Split) (blks : List (List Byte)) (c : Nat) : List Byte :=
  (List.range p.nb).flatMap fun i =>
    if c ≠ p.sl - p.el ∨ i ≥ p.nshort then [(blks.getD i []).getD c 0] else []

theorem roundRobin_eq_columns (p : Split) (blks : List (List Byte)) :
    roundRobin p blks = (List.range (p.sl + 1)).flatMap (column p blks) := rfl

section

variable {p : Split} (blks : List (List Byte))

theorem column_of_ne {c : Nat} (hc : c ≠ p.sl - p.el) :
    column p blks c = (List.range p.nb).map fun i => (blks.getD i []).getD c 0 := by
  simp only [column, hc, ne_eq, not_false_eq_true, true_or, if_true]
  exact List.flatMap_pure_eq_map _ _

/-- The last data column holds the long blocks only. -/
theorem column_long (hshort : p.nshort ≤ p.nb) :
    column p blks (p.sl - p.el) =
      (List.range (p.nb - p.nshort)).map fun i => (blks.getD (p.nshort + i) []).getD (p.sl - p.el) 0 := by
  obtain ⟨k, hk⟩ := Nat.exists_eq_add_of_le hshort
  simp only [column, hk, ne_eq, not_true_eq_false, false_or, List.range_add, List.flatMap_append, List.flatMap_map,
    Nat.add_sub_cancel_left, ge_iff_le, Nat.le_add_right, if_true]
  rw [List.flatMap_eq_nil_iff.mpr fun i hi => if_neg (Nat.not_le.mpr (List.mem_range.mp hi)), List.nil_append]
  exact List.flatMap_pure_eq_map _ _

/-- The read-out by columns: the data columns of every block, the last data column of the long blocks, the ECC
columns. -/
theorem roundRobin_eq (hel : p.el ≤ p.sl) (hshort : p.nshort ≤ p.nb) :
    roundRobin p blks =
      ((List.range (p.nb * (p.sl - p.el))).map fun k => (blks.getD (k % p.nb) []).getD (k / p.nb) 0) ++
      (((List.range (p.nb - p.nshort)).map fun i => (blks.getD (p.nshort + i) []).getD (p.sl - p.el) 0) ++
      (List.range (p.nb * p.el)).map fun k => (blks.getD (k % p.nb) []).getD (p.sl - p.el + 1 + k / p.nb) 0) := by
  have hcolumns : p.sl + 1 = (p.sl - p.el) + (1 + p.el) := by omega
  have hdata : ∀ c ∈ List.range (p.sl - p.el), c ≠ p.sl - p.el := fun c hc => (List.mem_range.mp hc).ne
  have hecc : ∀ c, p.sl - p.el + (1 + c) ≠ p.sl - p.el := fun c => by omega
  rw [roundRobin_eq_columns, hcolumns, List.range_add, List.flatMap_append, List.flatMap_map, List.range_add,
    List.flatMap_append, List.flatMap_map, List.range_one, List.flatMap_singleton, Nat.add_zero,
    column_long blks hshort, List.flatMap_congr fun c hc => column_of_ne blks (hdata c hc),
    List.flatMap_congr fun c _ => column_of_ne blks (hecc c), flatMap_range_map, flatMap_range_map]
  simp only [Nat.add_assoc]

end

/-- The interleaved codewords in their three parts. -/
theorem interleave_eq {v : Nat} {e : Ecl} {data : List Byte} (hv : validVer v) (hdata : data.length = ndata v e) :
    interleave v e data =
      ((List.range (numBlocks e v * shortLen v e)).map fun k =>
        (blockOf v e data (k % numBlocks e v)).getD (k / numBlocks e v) 0) ++
      (((List.range (numBlocks e v - shortBlocks v e)).map fun i =>
        (blockOf v e data (shortBlocks v e + i)).getD (shortLen v e) 0) ++
      (List.range (numBlocks e v * eccPerBlock e v)).map fun k =>
        (remainder (blockOf v e data (k % numBlocks e v)) (divisor (eccPerBlock e v))).getD
          (k / numBlocks e v) 0) := by
  have hround := roundRobin_eq (p := split v e) (blocks (split v e) data) (eccPerBlock_le hv e) (Nat.sub_le _ _)
  refine hround.trans (congrArg₂ _ ?_ (congrArg₂ _ ?_ ?_))
  · refine List.map_congr_left fun k hk => getD_block_data hv hdata (Nat.mod_lt _ (numBlocks_pos hv e)) (.inl ?_)
    exact Nat.div_lt_of_lt_mul (List.mem_range.mp hk)
  · refine List.map_congr_left fun i hi => getD_block_data hv hdata ?_ (.inr ⟨rfl, Nat.le_add_right _ i⟩)
    exact Nat.add_lt_of_lt_sub' (List.mem_range.mp hi)
  · exact List.map_congr_left fun k _ => getD_block_ecc hv hdata (Nat.mod_lt _ (numBlocks_pos hv e)) _

theorem length_interleave {v : Nat} {e : Ecl} {data : List Byte} (hv : validVer v)
    (hdata : data.length = ndata v e) : (interleave v e data).length = rawCw v := by
  rw [interleave_eq hv hdata, rawCw_eq hv e, ndata_eq hv]
  simp only [List.length_append, List.length_map, List.length_range, Nat.add_assoc]

theorem getD_map_range (f : Nat → Byte) {n k : Nat} (h : k < n) : ((List.range n).map f).getD k 0 = f k := by
  simp [h]

/-- Settles O49: the index falls into one of the three parts of the read-out. -/
theorem interleaveReadsTheBlocksInRoundRobin : Obligations.InterleaveReadsTheBlocksInRoundRobin := by
  refine fun v e data hv hdata => ⟨length_interleave hv hdata, fun k hk => ?_⟩
  have hraw := rawCw_eq hv e
  have hn := ndata_eq hv e
  rw [interleave_eq hv hdata]
  split_ifs with hcolumn hlong
  · rw [List.getD_append _ _ _ _ (by simpa using hcolumn), getD_map_range _ hcolumn]
  · rw [List.getD_append_right _ _ _ _ (by simpa using hcolumn), List.getD_append _ _ _ _ (by simp; omega),
      List.length_map, List.length_range, getD_map_range _ (by omega)]
  · have hpast : k - numBlocks e v * shortLen v e - (numBlocks e v - shortBlocks v e) = k - ndata v e := by omega
    rw [List.getD_append_right _ _ _ _ (by simpa using hcolumn), List.getD_append_right _ _ _ _ (by simp; omega)]
    simp only [List.length_map, List.length_range, hpast]
    exact getD_map_range _ (by omega)

/-! ### INTLV (R153) -/

/-- The ECC codewords left in REM are those of the last block. -/
theorem lastEcc_eq {v : Nat} (hv : validVer v) (e : Ecl) (data : List Byte) :
    lastEcc v e data = remainder (blockOf v e data (numBlocks e v - 1)) (divisor (eccPerBlock e v)) := by
  have hlast : numBlocks e v - 1 < numBlocks e v := Nat.sub_lt (numBlocks_pos hv e) Nat.one_pos
  have hblock : ((List.range (numBlocks e v)).map (blockOf v e data)).getD (numBlocks e v - 1) [] =
      blockOf v e data (numBlocks e v - 1) := by simp [hlast]
  rw [← hblock, ← blockData_eq]
  rfl

section

variable {s : State} (h : s.err = none)
include h

theorem execIntlv_eq (hv : validVer s.cfg.version.toNat)
    (hn : s.arg0.toNat = ndata s.cfg.version.toNat s.cfg.ecl) :
    execIntlv s = .next (complete { s with
      raw := s.raw.writeList 0 (interleave s.cfg.version.toNat s.cfg.ecl (s.data.readList 0 s.arg0.toNat))
      div := Memory.ofList (divisor (eccPerBlock s.cfg.ecl s.cfg.version.toNat))
      rem := Memory.ofList (lastEcc s.cfg.version.toNat s.cfg.ecl (s.data.readList 0 s.arg0.toNat))
      deg := Fin.ofNat 256 (eccPerBlock s.cfg.ecl s.cfg.version.toNat)
      result0 := word (rawCw s.cfg.version.toNat) }) :=
  command_of_ok h ((if_neg (not_not_intro hv)).trans (if_neg (not_not_intro hn)))

theorem intlv_raises_invalidArgument
    (hbad : ¬ validVer s.cfg.version.toNat ∨ s.arg0.toNat ≠ ndata s.cfg.version.toNat s.cfg.ecl) :
    Raises .intlv s .invalidArgument := by
  refine raises_of_error (e := .invalidArgument) (o := execIntlv s) rfl rfl h ?_ ErrCode.noConfusion
  by_cases hv : validVer s.cfg.version.toNat
  · exact (if_neg (not_not_intro hv)).trans (if_pos (hbad.resolve_left (not_not_intro hv)))
  · exact if_pos hv

end

theorem Memory.readList_zero (m : Memory) (n : Nat) : m.readList 0 n = (List.range n).map fun k => m.read k := by
  simp only [Memory.readList, Nat.zero_add]

/-- What RAW reads after INTLV: the codewords, and above them what it read before. -/
theorem State.Inv.read_intlv {s : State} (hs : s.Inv) {v : Nat} (hv : validVer v) {e : Ecl} {data : List Byte}
    (hdata : data.length = ndata v e) (a : Nat) :
    (s.raw.writeList 0 (interleave v e data)).read a =
      if a < rawCw v then (interleave v e data).getD a 0 else s.raw.read a := by
  obtain ⟨⟨-, -, hraw, -⟩, -⟩ := hs
  have hlen : 0 + (interleave v e data).length ≤ Config.rawSize := by
    simpa using length_interleave_le hv e data
  rw [Memory.read_writeList a hraw hlen, length_interleave hv hdata]
  simp only [Nat.zero_le, true_and, Nat.zero_add, Nat.sub_zero]

/-- Settles O48: INTLV's four writes, RAW's read by the rule of consecutive writes. -/
theorem intlvWritesTheRawCodewords : Obligations.IntlvWritesTheRawCodewords := by
  refine fun s h hs => ⟨fun hv hn => ⟨_, execIntlv_eq h hv hn, rfl, ?_⟩, intlv_raises_invalidArgument h⟩
  obtain ⟨⟨-, hecc⟩, -⟩ := table_bounds _ (mem_versions.mpr hv) s.cfg.ecl s.cfg.ecl.mem_ordered
  simp only [complete_raw, complete_deg, complete_div, complete_rem, hn, Memory.readList_zero]
  refine ⟨hs.read_intlv hv (by simp), Nat.mod_eq_of_lt (by omega), Memory.read_ofList _, fun j => ?_⟩
  rw [Memory.read_ofList, lastEcc_eq hv]

/-! ### The whole chain (R154, R178) -/

theorem execMxInit_eq {s : State} (h : s.err = none) (hv : validVer s.cfg.version.toNat) :
    execMxInit s = .next (complete { s with
      mxVer := s.cfg.version, mxEcl := s.cfg.ecl, mxMaskV := false, mxState := .patterns
      planes := drawPatterns s.cfg.version.toNat s.cfg.ecl }) :=
  command_of_ok h (if_neg (not_not_intro hv))

theorem execMxPlace_eq {s : State} (h : s.err = none) (hstate : s.mxState = .patterns)
    (hn : s.arg0.toNat = rawCw s.mxVer.toNat) :
    execMxPlace s =
      let r := place s.mxSize (s.raw.readList 0 s.arg0.toNat) s.planes
      .next (complete { s with planes := r.1, mxState := .placed, result0 := word r.2 }) :=
  command_of_ok h ((if_neg (not_not_intro hstate)).trans (if_neg (not_not_intro hn)))

/-- A symbol's codeword counts go through RESULT0 and ARG0 unchanged. -/
theorem toNat_word_codewords {v : Nat} (hv : validVer v) (e : Ecl) :
    (word (ndata v e)).toNat = ndata v e ∧ (word (rawCw v)).toNat = rawCw v := by
  obtain ⟨hraw, -⟩ := capq_fields v (mem_versions.mpr hv) e e.mem_ordered
  have hn : ndata v e ≤ rawCw v := Nat.sub_le _ _
  rw [BitVec.toNat_ofNat, BitVec.toNat_ofNat]
  exact ⟨Nat.mod_eq_of_lt (by omega), Nat.mod_eq_of_lt (by omega)⟩

/-- Settles O50: each stage's check holds of what the stage before left: a full buffer packs into `ndata` bytes, and
the counts INTLV and MX_PLACE ask for are the RESULT0 of PACK and INTLV. -/
theorem pipelineAcceptsEachStage : Obligations.PipelineAcceptsEachStage := by
  intro s h _ hv hle n raw
  obtain ⟨hn, hraw⟩ := toNat_word_codewords hv s.cfg.ecl
  have hfull := length_padded (capBits_mod_eight _ _) hle
  have hbytes : capBits s.cfg.version.toNat s.cfg.ecl / 8 = n := Nat.mul_div_cancel _ (by decide)
  have hpacked : word ((padded (capBits s.cfg.version.toNat s.cfg.ecl) s.bb).length / 8) = word n := by
    rw [hfull, hbytes]
  refine ⟨_, _, _, _, _, execTermpad_eq h hv hle, execPack_eq h ?_, execIntlv_eq h hv ?_, execMxInit_eq h hv,
    execMxPlace_eq h rfl hraw, h, hfull, h, hpacked, h, rfl, h, rfl⟩
  · exact (congrArg (· % 8) hfull).trans (capBits_mod_eight _ _)
  · exact (congrArg BitVec.toNat hpacked).trans hn

end Sys2Proof.Machine

/-! ## The zig-zag and the free modules -/

namespace Sys2Proof.Machine

/-! ### The order of the zig-zag (R179) -/

/-- The pairs of a symbol of odd side go leftwards and skip column 6. -/
theorem pairColumns_eq {m fuel : Nat} (hm : 3 ≤ m) (hfuel : m ≤ fuel) :
    pairColumns fuel (2 * m) = (List.range m).map (pairRight (2 * m + 1)) := by
  induction m, hm using Nat.le_induction generalizing fuel with
  | base =>
    obtain ⟨n, rfl⟩ := Nat.exists_eq_add_of_le' hfuel
    cases n <;> rfl
  | succ m hm ih =>
    obtain ⟨n, rfl⟩ : ∃ n, fuel = n + 1 := ⟨fuel - 1, by omega⟩
    have hshift : ∀ c, pairRight (2 * (m + 1) + 1) (c + 1) = pairRight (2 * m + 1) c := fun c => by
      simp only [pairRight]
      split <;> split <;> omega
    have hfirst : pairRight (2 * (m + 1) + 1) 0 = 2 * (m + 1) := if_pos (by omega)
    rw [pairColumns, if_neg (by omega)]
    simp only [if_neg (show 2 * (m + 1) ≠ 6 by omega)]
    rw [show 2 * (m + 1) - 2 = 2 * m by omega, ih (by omega), List.range_succ_eq_map, List.map_cons, List.map_map,
      hfirst, List.map_congr_left fun c _ => (hshift c).symm]
    rfl

/-- The test of R179 for an upward pair reads bit 1. -/
theorem and_two_beq_zero (n : Nat) : ((n &&& 2) == 0) = decide (n / 2 % 2 = 0) := by
  rw [show n &&& 2 = (n.testBit 1).toNat * 2 from Nat.and_two_pow n 1, Nat.testBit_succ, Nat.testBit_zero]
  rcases Nat.mod_two_eq_zero_or_one (n / 2) with h | h <;> simp [h]

/-- Module `j` of row `vert` of pair `c` in scan order: `j = 0` the right column (R179). -/
def zigzagModule (size c vert j : Nat) : Nat × Nat := (pairRight size c - j, pairRow size c vert)

section

variable {v : Nat}

theorem pairModules_eq {c : Nat} (hc : c < 2 * v + 8) :
    pairModules (v * 4 + 17) (pairRight (v * 4 + 17) c) =
      (List.range (2 * (v * 4 + 17))).map fun k => zigzagModule (v * 4 + 17) c (k / 2) (k % 2) := by
  have hup : (((pairRight (v * 4 + 17) c + 1) &&& 2) == 0) = decide (c % 2 = 0) := by
    rw [and_two_beq_zero, pairRight, decide_eq_decide]
    split <;> omega
  rw [← flatMap_range_map (zigzagModule (v * 4 + 17) c), pairModules]
  simp only [hup, decide_eq_true_eq]
  rfl

/-- The zig-zag, module by module. -/
theorem zigzag_eq_map : zigzag (v * 4 + 17) =
    (List.range (2 * (v * 4 + 17) * (2 * v + 8))).map fun i =>
      zigzagModule (v * 4 + 17) (i / (2 * (v * 4 + 17))) (i % (2 * (v * 4 + 17)) / 2)
        (i % (2 * (v * 4 + 17)) % 2) := by
  have hcolumns : pairColumns (v * 4 + 17) (v * 4 + 17 - 1) =
      (List.range (2 * v + 8)).map (pairRight (v * 4 + 17)) := by
    have h := pairColumns_eq (m := 2 * v + 8) (fuel := v * 4 + 17) (by omega) (by omega)
    rwa [show 2 * (2 * v + 8) = v * 4 + 17 - 1 by omega, show v * 4 + 17 - 1 + 1 = v * 4 + 17 by omega] at h
  rw [zigzag, hcolumns, List.flatMap_map,
    List.flatMap_congr fun c hc => pairModules_eq (List.mem_range.mp hc),
    flatMap_range_map fun c k => zigzagModule (v * 4 + 17) c (k / 2) (k % 2)]

theorem length_zigzag : (zigzag (v * 4 + 17)).length = (v * 4 + 17) * (v * 4 + 17 - 1) := by
  rw [zigzag_eq_map, List.length_map, List.length_range, show v * 4 + 17 - 1 = 2 * (2 * v + 8) by omega]
  ring

theorem getElem?_zigzag {c vert j : Nat} (hc : c < 2 * v + 8) (hvert : vert < v * 4 + 17) (hj : j < 2) :
    (zigzag (v * 4 + 17))[2 * (v * 4 + 17) * c + 2 * vert + j]? = some (zigzagModule (v * 4 + 17) c vert j) := by
  have hk : 2 * vert + j < 2 * (v * 4 + 17) := by omega
  have hi : 2 * (v * 4 + 17) * c + (2 * vert + j) < 2 * (v * 4 + 17) * (2 * v + 8) :=
    calc 2 * (v * 4 + 17) * c + (2 * vert + j) < 2 * (v * 4 + 17) * (c + 1) := Nat.add_lt_add_left hk _
      _ ≤ _ := Nat.mul_le_mul_left _ hc
  rw [Nat.add_assoc, zigzag_eq_map, List.getElem?_map, List.getElem?_range hi, Option.map_some,
    Nat.mul_add_div (by omega), Nat.mul_add_mod, Nat.div_eq_of_lt hk, Nat.mod_eq_of_lt hk,
    Nat.mul_add_div (by omega), Nat.mul_add_mod, Nat.div_eq_of_lt hj, Nat.mod_eq_of_lt hj]
  rfl

theorem zigzagModule_fst_ne_six (c vert : Nat) {j : Nat} (hj : j < 2) :
    (zigzagModule (v * 4 + 17) c vert j).1 ≠ 6 := by
  simp only [zigzagModule, pairRight]
  split <;> omega

/-- The pair, the row and the place of a module are found from its coordinates. -/
theorem exists_zigzagModule_eq {x y : Nat} (hx : x < v * 4 + 17) (hy : y < v * 4 + 17) (h6 : x ≠ 6) :
    ∃ c < 2 * v + 8, ∃ vert < v * 4 + 17, ∃ j < 2, zigzagModule (v * 4 + 17) c vert j = (x, y) := by
  obtain ⟨c, hc, j, hj, hcolumn⟩ : ∃ c < 2 * v + 8, ∃ j < 2, pairRight (v * 4 + 17) c - j = x := by
    rcases Nat.lt_or_gt_of_ne h6 with h | h
    · refine ⟨(v * 4 + 15 - x) / 2, by omega, (v * 4 + 15 - x) % 2, by omega, ?_⟩
      rw [pairRight]
      split <;> omega
    · refine ⟨(v * 4 + 16 - x) / 2, by omega, (v * 4 + 16 - x) % 2, by omega, ?_⟩
      rw [pairRight]
      split <;> omega
  obtain ⟨vert, hvert, hrow⟩ : ∃ vert < v * 4 + 17, pairRow (v * 4 + 17) c vert = y := by
    refine ⟨pairRow (v * 4 + 17) c y, ?_, ?_⟩ <;> simp only [pairRow] <;> split <;> omega
  exact ⟨c, hc, vert, hvert, j, hj, Prod.ext hcolumn hrow⟩

theorem mem_zigzag {x y : Nat} : (x, y) ∈ zigzag (v * 4 + 17) ↔
    x < v * 4 + 17 ∧ y < v * 4 + 17 ∧ x ≠ 6 := by
  constructor
  · intro h
    obtain ⟨hx, hy⟩ := lt_of_mem_zigzag h
    refine ⟨hx, hy, ?_⟩
    rw [zigzag_eq_map] at h
    obtain ⟨i, -, hi⟩ := List.mem_map.mp h
    obtain rfl := congrArg Prod.fst hi
    exact zigzagModule_fst_ne_six _ _ (Nat.mod_lt _ Nat.two_pos)
  · rintro ⟨hx, hy, h6⟩
    obtain ⟨c, hc, vert, hvert, j, hj, h⟩ := exists_zigzagModule_eq hx hy h6
    exact List.mem_of_getElem? (h ▸ getElem?_zigzag hc hvert hj)

/-- The modules of the symbol region but those of column 6. -/
def offColumn6 (size : Nat) : Finset (Nat × Nat) := (Finset.range size).erase 6 ×ˢ Finset.range size

theorem toFinset_zigzag : (zigzag (v * 4 + 17)).toFinset = offColumn6 (v * 4 + 17) := by
  ext ⟨x, y⟩
  rw [List.mem_toFinset, mem_zigzag, offColumn6, Finset.mem_product, Finset.mem_erase, Finset.mem_range,
    Finset.mem_range]
  tauto

theorem card_offColumn6 : (offColumn6 (v * 4 + 17)).card = (v * 4 + 17) * (v * 4 + 17 - 1) := by
  rw [offColumn6, Finset.card_product, Finset.card_erase_of_mem (Finset.mem_range.mpr (by omega)),
    Finset.card_range, Nat.mul_comm]

/-- The zig-zag is as long as the modules it visits are many, so it visits none twice. -/
theorem nodup_zigzag : (zigzag (v * 4 + 17)).Nodup := by
  have hcard : (zigzag (v * 4 + 17)).toFinset.card = (zigzag (v * 4 + 17)).length := by
    rw [toFinset_zigzag, card_offColumn6, length_zigzag]
  exact Multiset.toFinset_card_eq_card_iff_nodup.mp hcard

end

/-! ### The number of free modules (R55) -/

/-- The format area and the dark module fill what the finders and the timing strips leave of column 8 and row 8
(R176). -/
theorem formatRegion_iff {size x y : Nat} (hs : 21 ≤ size) : formatRegion size x y ↔
    (x = 8 ∧ (y < 9 ∨ size ≤ y + 8 ∧ y < size) ∧ y ≠ 6) ∨
      (y = 8 ∧ (x < 9 ∨ size ≤ x + 8 ∧ x < size) ∧ x ≠ 6) := by
  refine ⟨fun h => h.place hs, fun h => ?_⟩
  simp only [formatRegion, formatModules, List.mem_append, List.mem_map, List.mem_range, List.mem_cons,
    List.not_mem_nil, or_false, or_and_right, exists_or, exists_exists_and_eq_and, exists_eq_left]
  by_contra hno
  simp only [not_or, not_exists, not_and] at hno
  obtain ⟨⟨⟨⟨⟨hcolumn, h7, h8, hcorner⟩, hrow⟩, hright⟩, hbottom⟩, hdark⟩ := hno
  rcases h with ⟨rfl, h⟩ | ⟨rfl, h⟩
  · have hupper : ¬ y < 6 := fun h => hcolumn y h rfl rfl
    have hlower := fun h => hbottom (y + 7 - size) h rfl
    omega
  · have hleft := fun h => hrow (5 - x) h
    have hlower := fun h => hright (size - 1 - x) h
    omega

theorem versionRegion_iff {v x y : Nat} : versionRegion v x y ↔
    7 ≤ v ∧ ((x < 6 ∧ v * 4 + 6 ≤ y ∧ y < v * 4 + 9) ∨ (y < 6 ∧ v * 4 + 6 ≤ x ∧ x < v * 4 + 9)) := by
  refine ⟨fun h => h.place, fun ⟨hv, h⟩ => ⟨hv, (x, y, versionBitAt v x y), mem_versionModules.mpr ?_, rfl, rfl⟩⟩
  simp only [versionBitAt, Prod.mk.injEq]
  rcases h with h | h
  · rw [if_pos h.1]
    exact ⟨3 * x + (y - (v * 4 + 17 - 11)), by omega, .inr (by omega)⟩
  · rw [if_neg (by omega)]
    exact ⟨3 * y + (x - (v * 4 + 17 - 11)), by omega, .inl (by omega)⟩

/-- The coordinates from `a` up to `b` but that of a timing strip, 6. -/
def without6 (a b : Nat) : Finset Nat := (Finset.Ico a b).erase 6

theorem mem_without6 {a b x : Nat} : x ∈ without6 a b ↔ x ≠ 6 ∧ a ≤ x ∧ x < b := by
  rw [without6, Finset.mem_erase, Finset.mem_Ico]

theorem card_without6 {a b : Nat} : (without6 a b).card = if a ≤ 6 ∧ 6 < b then b - a - 1 else b - a := by
  simp only [without6, Finset.card_erase_eq_ite, Finset.mem_Ico, Nat.card_Ico]

/-- The modules of columns `x0` up to `x1` and rows `y0` up to `y1`, but those of column 6. -/
def box (x0 x1 y0 y1 : Nat) : Finset (Nat × Nat) := without6 x0 x1 ×ˢ Finset.Ico y0 y1

theorem mem_box {x0 x1 y0 y1 x y : Nat} :
    (x, y) ∈ box x0 x1 y0 y1 ↔ x ≠ 6 ∧ (x0 ≤ x ∧ x < x1) ∧ y0 ≤ y ∧ y < y1 := by
  rw [box, Finset.mem_product, mem_without6, Finset.mem_Ico, and_assoc]

theorem card_box {x0 x1 y0 y1 : Nat} :
    (box x0 x1 y0 y1).card = (if x0 ≤ 6 ∧ 6 < x1 then x1 - x0 - 1 else x1 - x0) * (y1 - y0) := by
  rw [box, Finset.card_product, card_without6, Nat.card_Ico]

theorem disjoint_box {x0 x1 y0 y1 a0 a1 b0 b1 : Nat} (h : x1 ≤ a0 ∨ a1 ≤ x0 ∨ y1 ≤ b0 ∨ b1 ≤ y0) :
    Disjoint (box x0 x1 y0 y1) (box a0 a1 b0 b1) := by
  simp only [Finset.disjoint_left, Prod.forall, mem_box]
  omega

/-- The finders with the format area around them fill three corners, and a timing strip joins the upper two. -/
def cornersAndStrip (size : Nat) : Finset (Nat × Nat) :=
  box 0 9 0 9 ∪ (box (size - 8) size 0 9 ∪ (box 0 9 (size - 8) size ∪ box 9 (size - 8) 6 7))

theorem card_cornersAndStrip {size : Nat} (hs : 21 ≤ size) : (cornersAndStrip size).card = size + 191 := by
  rw [cornersAndStrip, Finset.card_union_of_disjoint, Finset.card_union_of_disjoint,
    Finset.card_union_of_disjoint, card_box, card_box, card_box, card_box, if_pos (by omega), if_neg (by omega),
    if_neg (by omega)]
  · omega
  · exact disjoint_box (by omega)
  · exact Finset.disjoint_union_right.mpr ⟨disjoint_box (by omega), disjoint_box (by omega)⟩
  · simp only [Finset.disjoint_union_right]
    exact ⟨disjoint_box (by omega), disjoint_box (by omega), disjoint_box (by omega)⟩

/-- The version information (R177). -/
def versionBoxes (v : Nat) : Finset (Nat × Nat) :=
  if 7 ≤ v then box 0 6 (v * 4 + 6) (v * 4 + 9) ∪ box (v * 4 + 6) (v * 4 + 9) 0 6 else ∅

theorem card_versionBoxes (v : Nat) : (versionBoxes v).card = if 7 ≤ v then 36 else 0 := by
  rw [versionBoxes]
  split
  · rw [Finset.card_union_of_disjoint (disjoint_box (by omega)), card_box, card_box, if_neg (by omega),
      if_neg (by omega)]
    omega
  · rfl

/-- An alignment pattern without its part on a timing strip. -/
def alignBox (c : Nat × Nat) : Finset (Nat × Nat) :=
  without6 (c.1 - 2) (c.1 + 3) ×ˢ without6 (c.2 - 2) (c.2 + 3)

def alignBoxes (v : Nat) : Finset (Nat × Nat) := (alignCentres v).toFinset.biUnion alignBox

/-- An alignment pattern on a timing strip shares one of its five lines with it. -/
theorem card_alignBox {v : Nat} (hv : validVer v) {c : Nat × Nat} (hc : c ∈ alignCentres v) :
    (alignBox c).card = if c.1 = 6 ∨ c.2 = 6 then 20 else 25 := by
  obtain ⟨-, hplace⟩ := alignCentres_place hv hc
  rw [alignBox, Finset.card_product, card_without6, card_without6]
  rcases hplace with h | h | h
  · rw [if_pos (by omega), if_neg (by omega), if_pos (.inl h.1), show c.1 + 3 - (c.1 - 2) = 5 by omega,
      show c.2 + 3 - (c.2 - 2) = 5 by omega]
  · rw [if_neg (by omega), if_pos (by omega), if_pos (.inr h.1), show c.1 + 3 - (c.1 - 2) = 5 by omega,
      show c.2 + 3 - (c.2 - 2) = 5 by omega]
  · rw [if_neg (by omega), if_neg (by omega), if_neg (by omega), show c.1 + 3 - (c.1 - 2) = 5 by omega,
      show c.2 + 3 - (c.2 - 2) = 5 by omega]

/-- The alignment patterns' modules outside the timing strips are those of their boxes. -/
theorem mem_alignBoxes {v x y : Nat} (hv : validVer v) :
    (x, y) ∈ alignBoxes v ↔ x ≠ 6 ∧ y ≠ 6 ∧ alignRegion v x y := by
  have hbox : ∀ c ∈ alignCentres v, ((x, y) ∈ alignBox c ↔ x ≠ 6 ∧ y ≠ 6 ∧ chebyshev x y c.1 c.2 ≤ 2) := by
    intro c hc
    obtain ⟨-, hplace⟩ := alignCentres_place hv hc
    rw [alignBox, Finset.mem_product, mem_without6, mem_without6, chebyshev_le_iff]
    omega
  rw [alignBoxes, Finset.mem_biUnion]
  constructor
  · rintro ⟨c, hc, h⟩
    rw [List.mem_toFinset] at hc
    obtain ⟨hx, hy, h⟩ := (hbox c hc).mp h
    exact ⟨hx, hy, c, hc, h⟩
  · rintro ⟨hx, hy, c, hc, h⟩
    exact ⟨c, List.mem_toFinset.mpr hc, (hbox c hc).mpr ⟨hx, hy, h⟩⟩

theorem nodup_alignCentres {v : Nat} (hv : validVer v) : (alignCentres v).Nodup := by
  have hcoords : ∀ v ∈ versions, (alignCoords v).Nodup := by decide
  have hnodup := hcoords v (mem_versions.mpr hv)
  exact (hnodup.product hnodup).filter _

/-- The alignment patterns lie apart, so their modules add up. -/
theorem card_alignBoxes {v : Nat} (hv : validVer v) :
    (alignBoxes v).card = ((alignCentres v).map fun c => if c.1 = 6 ∨ c.2 = 6 then 20 else 25).sum := by
  rw [alignBoxes, Finset.card_biUnion, ← List.sum_toFinset _ (nodup_alignCentres hv)]
  · exact Finset.sum_congr rfl fun c hc => card_alignBox hv (List.mem_toFinset.mp hc)
  · intro c hc c' hc' hne
    rw [Finset.mem_coe, List.mem_toFinset] at hc hc'
    obtain ⟨-, hplace⟩ := alignCentres_place hv hc
    obtain ⟨-, hplace'⟩ := alignCentres_place hv hc'
    have hfar := (alignCentres_separated hv c hc c' hc').resolve_left hne
    refine Finset.disjoint_left.mpr ?_
    rintro ⟨x, y⟩ h h'
    simp only [alignBox, Finset.mem_product, mem_without6] at h h'
    have hnear : chebyshev x y c.1 c.2 ≤ 2 := chebyshev_le_iff.mpr (by omega)
    have hnear' : chebyshev x y c'.1 c'.2 ≤ 2 := chebyshev_le_iff.mpr (by omega)
    have htriangle := chebyshev_triangle x y c.1 c.2 c'.1 c'.2
    omega

theorem finderRegion_iff {size x y : Nat} (hs : 21 ≤ size) : finderRegion size x y ↔
    x < size ∧ y < size ∧ ((x ≤ 7 ∧ y ≤ 7) ∨ (size ≤ x + 8 ∧ y ≤ 7) ∨ (x ≤ 7 ∧ size ≤ y + 8)) := by
  simp only [finderRegion, finderCentres, List.mem_cons, List.not_mem_nil, or_false, exists_eq_or_imp, exists_eq_left,
    chebyshev_le_iff]
  omega

theorem mem_cornersAndStrip {size x y : Nat} (hs : 21 ≤ size) : (x, y) ∈ cornersAndStrip size ↔
    x ≠ 6 ∧ (formatRegion size x y ∨ finderRegion size x y ∨ timingRegion size x y) := by
  simp only [cornersAndStrip, Finset.mem_union, mem_box]
  rw [formatRegion_iff hs, finderRegion_iff hs]
  omega

theorem mem_versionBoxes {v x y : Nat} : (x, y) ∈ versionBoxes v ↔ x ≠ 6 ∧ versionRegion v x y := by
  rw [versionRegion_iff, versionBoxes]
  split
  · simp only [Finset.mem_union, mem_box]
    omega
  · exact iff_of_false (Finset.notMem_empty _) (by omega)

/-- The function modules outside column 6. -/
def functionModules (v : Nat) : Finset (Nat × Nat) :=
  cornersAndStrip (v * 4 + 17) ∪ (versionBoxes v ∪ alignBoxes v)

theorem mem_functionModules {v : Nat} (hv : validVer v) (e : Ecl) {x y : Nat} :
    (x, y) ∈ functionModules v ↔ x ≠ 6 ∧ (drawPatterns v e).func.get x y = true := by
  have htiming : y = 6 → alignRegion v x y → timingRegion (v * 4 + 17) x y := fun hy h => by
    have := h.place hv
    omega
  rw [functionModules, Finset.mem_union, Finset.mem_union, mem_cornersAndStrip hv.size.1, mem_versionBoxes,
    mem_alignBoxes hv, drawPatterns_func_iff hv]
  generalize timingRegion _ x y = timing at htiming ⊢
  generalize alignRegion v x y = align at htiming ⊢
  generalize formatRegion _ x y = format, finderRegion _ x y = finder, versionRegion v x y = version
  tauto

/-- The number of function modules outside column 6: those of the corners and the strip, of the version information and
of the alignment patterns. -/
def functionCount (v : Nat) : Nat :=
  (v * 4 + 17 + 191) + ((if 7 ≤ v then 36 else 0) +
    ((alignCentres v).map fun c => if c.1 = 6 ∨ c.2 = 6 then 20 else 25).sum)

theorem card_functionModules {v : Nat} (hv : validVer v) : (functionModules v).card = functionCount v := by
  obtain ⟨hs, -⟩ := hv.size
  rw [functionModules, Finset.card_union_of_disjoint, Finset.card_union_of_disjoint, card_cornersAndStrip hs,
    card_versionBoxes, card_alignBoxes hv, functionCount]
  · simp only [Finset.disjoint_left, Prod.forall, mem_versionBoxes, mem_alignBoxes hv]
    rintro x y ⟨-, hversion⟩ ⟨-, -, halign⟩
    have := hversion.place
    have := halign.place hv
    omega
  · simp only [cornersAndStrip, Finset.disjoint_left, Prod.forall, Finset.mem_union, mem_box, mem_versionBoxes,
      mem_alignBoxes hv]
    rintro x y hcorner (⟨-, hversion⟩ | ⟨-, hy, halign⟩)
    · have := hversion.place
      omega
    · have := halign.place hv
      omega

/-- Function modules and `raw_modules` free ones make up the symbol outside column 6, summed up for each version. -/
theorem rawModules_add_functionCount :
    ∀ v ∈ versions, rawModules v + functionCount v = (v * 4 + 17) * (v * 4 + 17 - 1) := by
  decide

/-- The free modules are those the zig-zag visits but for the function modules. -/
theorem length_freeModules {v : Nat} (hv : validVer v) (e : Ecl) :
    (freeModules (v * 4 + 17) (drawPatterns v e).func).length = rawModules v := by
  have hsub : functionModules v ⊆ offColumn6 (v * 4 + 17) := by
    rintro ⟨x, y⟩ h
    obtain ⟨h6, h⟩ := (mem_functionModules hv e).mp h
    obtain ⟨hx, hy⟩ := drawPatterns_func_lt hv e h
    rw [← toFinset_zigzag, List.mem_toFinset, mem_zigzag]
    exact ⟨hx, hy, h6⟩
  have hfree : (freeModules (v * 4 + 17) (drawPatterns v e).func).toFinset =
      offColumn6 (v * 4 + 17) \ functionModules v := by
    ext ⟨x, y⟩
    rw [freeModules, List.mem_toFinset, List.mem_filter, Finset.mem_sdiff, ← toFinset_zigzag, List.mem_toFinset,
      mem_functionModules hv e, Bool.not_eq_true', ← Bool.not_eq_true, mem_zigzag]
    tauto
  have hnodup : (freeModules (v * 4 + 17) (drawPatterns v e).func).Nodup := nodup_zigzag.filter _
  rw [← List.toFinset_card_of_nodup hnodup, hfree, Finset.card_sdiff_of_subset hsub,
    card_offColumn6, card_functionModules hv, ← rawModules_add_functionCount v (mem_versions.mpr hv),
    Nat.add_sub_cancel]

/-- Settles O53: the order by reading the zig-zag as one sequence; the count by adding up the patterns outside
column 6. -/
theorem zigzagVisitsTheFreeModulesOnce : Obligations.ZigzagVisitsTheFreeModulesOnce :=
  fun _ hv => ⟨fun _ _ _ hc hvert hj => getElem?_zigzag (by omega) hvert hj, length_zigzag, nodup_zigzag,
    fun _ _ => mem_zigzag, length_freeModules hv⟩

end Sys2Proof.Machine

/-! ## The matrix commands -/

namespace Sys2Proof.Machine

/-! ### Inverting modules (R180) -/

/-- `f` keeps FUNC and inverts DARK of exactly the modules of a region, which may depend on FUNC. -/
structure Inverts (f : Planes → Planes) (region : Plane → Nat → Nat → Prop) : Prop where
  func_eq : ∀ p, (f p).func = p.func
  dark_ne_iff : ∀ p x y, (f p).dark.get x y ≠ p.dark.get x y ↔ region p.func x y

namespace Inverts

variable {f g : Planes → Planes} {A B : Plane → Nat → Nat → Prop}

theorem of_iff (hf : Inverts f A) (h : ∀ p x y, A p x y ↔ B p x y) : Inverts f B :=
  ⟨hf.func_eq, fun p x y => (hf.dark_ne_iff p x y).trans (h _ x y)⟩

/-- Two inversions of regions that do not meet invert both. -/
theorem comp (hg : Inverts g B) (hf : Inverts f A) (hdisjoint : ∀ p x y, A p x y → ¬ B p x y) :
    Inverts (fun p => g (f p)) (fun p x y => A p x y ∨ B p x y) where
  func_eq p := (hg.func_eq _).trans (hf.func_eq p)
  dark_ne_iff p x y := by
    have hA := hf.dark_ne_iff p x y
    have hB := hg.dark_ne_iff (f p) x y
    rw [hf.func_eq] at hB
    by_cases h : B p.func x y
    · have hkept : (f p).dark.get x y = p.dark.get x y := not_not.mp fun hne => hdisjoint _ x y (hA.mp hne) h
      rw [← hkept]
      exact iff_of_true (hB.mpr h) (.inr h)
    · have hkept : (g (f p)).dark.get x y = (f p).dark.get x y := not_not.mp (mt hB.mp h)
      rw [hkept, hA, or_iff_left h]

/-- A loop inverts the regions of its iterations, if no two meet. -/
theorem loop {n : Nat} {body : Nat → Planes → Planes} {R : Nat → Plane → Nat → Nat → Prop}
    (h : ∀ i < n, Inverts (body i) (R i)) (hdisjoint : ∀ i j p x y, R i p x y → R j p x y → i = j) :
    Inverts (Machine.loop n body) (fun p x y => ∃ i < n, R i p x y) := by
  induction n with
  | zero => exact ⟨fun _ => rfl, fun _ _ _ => by simp [Machine.loop]⟩
  | succ n ih =>
    refine ((h n (Nat.lt_succ_self n)).comp (ih fun i hi => h i (Nat.lt_succ_of_lt hi)) ?_).of_iff fun p x y => ?_
    · rintro p x y ⟨i, hi, hR⟩ hR'
      exact absurd (hdisjoint i n p x y hR hR') (Nat.ne_of_lt hi)
    · simp only [Nat.lt_succ_iff_lt_or_eq, or_and_right, exists_or, exists_eq_left]

/-- Inverted twice, every module is as before (R180). -/
theorem self_inverse (hf : Inverts f A) (p : Planes) : f (f p) = p := by
  have hdark : (f (f p)).dark = p.dark := Plane.ext_get fun x y => by
    have h := hf.dark_ne_iff p x y
    have h' := hf.dark_ne_iff (f p) x y
    rw [hf.func_eq, ← h] at h'
    revert h'
    cases (f (f p)).dark.get x y <;> cases (f p).dark.get x y <;> cases p.dark.get x y <;> simp
  have hfunc : (f (f p)).func = p.func := (hf.func_eq _).trans (hf.func_eq p)
  exact congrArg₂ Planes.mk hfunc hdark

/-- One module, inverted if it lies in the planes, is no function module and is selected. -/
theorem invertModule (x y : Nat) (c : Bool) :
    Inverts (fun p => if p.func.get x y = false ∧ c = true then p.setDark x y (!p.dark.get x y) else p)
      (fun func x' y' => (x' = x ∧ y' = y) ∧ (x < Config.maxSize ∧ y < Config.maxSize) ∧
        func.get x y = false ∧ c = true) where
  func_eq p := by split <;> rfl
  dark_ne_iff p x' y' := by
    split
    next h =>
      rw [Planes.setDark_dark, Plane.get_set]
      split
      next h' =>
        obtain ⟨rfl, rfl, hbounds⟩ := h'
        simp [h, hbounds]
      next h' => exact iff_of_false (fun hne => hne rfl) fun ⟨⟨hx, hy⟩, hbounds, _⟩ => h' ⟨hx, hy, hbounds⟩
    next h => exact iff_of_false (fun hne => hne rfl) fun hmodule => h hmodule.2.2

end Inverts

theorem inverts_applyMask (size k : Nat) : Inverts (applyMask size k) (fun func x y =>
    (x < size ∧ y < size) ∧ (x < Config.maxSize ∧ y < Config.maxSize) ∧
      func.get x y = false ∧ maskAt k x y = true) := by
  refine (Inverts.loop (fun y _ => Inverts.loop (fun x _ => Inverts.invertModule x y (maskAt k x y)) ?_) ?_).of_iff ?_
  · rintro i j p x y ⟨⟨rfl, -⟩, -⟩ ⟨⟨rfl, -⟩, -⟩
    rfl
  · rintro i j p x y ⟨_, -, ⟨-, rfl⟩, -⟩ ⟨_, -, ⟨-, rfl⟩, -⟩
    rfl
  · intro p x y
    constructor
    · rintro ⟨_, hy, _, hx, ⟨rfl, rfl⟩, h⟩
      exact ⟨⟨hx, hy⟩, h⟩
    · rintro ⟨⟨hx, hy⟩, h⟩
      exact ⟨y, hy, x, hx, ⟨rfl, rfl⟩, h⟩

/-- The predicates of the model are those of R180. -/
theorem maskAt_iff_inverted {k : Nat} (hk : k ≤ 7) (x y : Nat) : maskAt k x y = true ↔ inverted k x y := by
  interval_cases k <;> simp [maskAt, inverted]

section

variable {s : State} {k : Nat} (h : s.err = none)
include h

theorem execMxMask_eq (hstate : s.mxState = .placed) :
    execMxMask k s = .next (complete { s with planes := applyMask s.mxSize k s.planes }) :=
  command_of_ok h (if_neg (not_not_intro hstate))

theorem mxMask_raises_sequenceError (hstate : s.mxState ≠ .placed) : Raises (.mxMask k) s .sequenceError :=
  raises_of_error (e := .sequenceError) (o := execMxMask k s) rfl rfl h (if_pos hstate) ErrCode.noConfusion

end

/-- Settles O55: `applyMask` inverts a region that depends on FUNC only, which it keeps. -/
theorem mxMaskInvertsTheSelectedModules : Obligations.MxMaskInvertsTheSelectedModules := by
  refine ⟨fun size k p => (inverts_applyMask size k).self_inverse p, fun s k h hs => ⟨fun hstate hk => ?_,
    mxMask_raises_sequenceError h⟩⟩
  have hmask := inverts_applyMask s.mxSize k
  refine ⟨_, execMxMask_eq h hstate, ?_, fun x y => (hmask.dark_ne_iff s.planes x y).trans ?_⟩
  · simp only [complete_planes, ← hmask.func_eq s.planes]
    rfl
  · obtain ⟨⟨-, hmax⟩, -⟩ := hs.built (by simp [hstate])
    rw [maskAt_iff_inverted hk]
    change _ ↔ x < s.mxSize ∧ y < s.mxSize ∧ _
    constructor
    · rintro ⟨⟨hx, hy⟩, -, hfree⟩
      exact ⟨hx, hy, hfree⟩
    · rintro ⟨hx, hy, hfree⟩
      exact ⟨⟨hx, hy⟩, ⟨by omega, by omega⟩, hfree⟩

/-! ### Format information (R182) -/

/-- Redrawing the format information keeps FUNC where the format area is function modules. -/
theorem drawFormat_func {size : Nat} (hs : 21 ≤ size) (hmax : size ≤ Config.maxSize) {p : Planes}
    (hformat : ∀ m ∈ formatModules size, p.func.get m.1 m.2.1 = true) (e : Ecl) (mask : Nat) :
    (drawFormat size e mask p).func = p.func := by
  refine Plane.ext_get fun x y => Bool.eq_iff_iff.mpr ?_
  rw [(paints_drawFormat hs hmax e mask).func_iff]
  refine ⟨?_, .inr⟩
  rintro (⟨m, hm, rfl, rfl⟩ | hfunc)
  · exact hformat m hm
  · exact hfunc

section

variable {s : State} {k : Nat} (h : s.err = none)
include h

theorem execMxFmt_eq (hstate : s.mxState = .placed) :
    execMxFmt k s = .next (complete { s with planes := drawFormat s.mxSize s.mxEcl k s.planes }) :=
  command_of_ok h (if_neg (not_not_intro hstate))

theorem mxFmt_raises_sequenceError (hstate : s.mxState ≠ .placed) : Raises (.mxFmt k) s .sequenceError :=
  raises_of_error (e := .sequenceError) (o := execMxFmt k s) rfl rfl h (if_pos hstate) ErrCode.noConfusion

end

/-- Settles O56: MX_FMT paints the format area, which is function modules already. -/
theorem mxFmtDrawsTheFormatWord : Obligations.MxFmtDrawsTheFormatWord := by
  refine fun s k h hs => ⟨fun hstate hk => ?_, mxFmt_raises_sequenceError h⟩
  obtain ⟨⟨hlo, hmax⟩, -, hformat⟩ := hs.built (by simp [hstate])
  have hpaints := paints_drawFormat hlo hmax s.mxEcl k
  have hfunc := drawFormat_func hlo hmax hformat s.mxEcl k
  refine ⟨_, _, execMxFmt_eq h hstate, isFormatWord_formatBits s.mxEcl k (by omega), ?_, fun m hm => ?_,
    fun x y hout => hpaints.dark_not_mem _ x y ?_⟩
  · simp only [complete_planes, ← hfunc]
    rfl
  · rw [complete_planes, hpaints.dark_mem _ _ _ ⟨m, hm, rfl, rfl⟩, (formatModules_place hlo m hm).2]
  · rintro ⟨m, hm, rfl, rfl⟩
    exact hout m hm rfl

/-! ### Module access (R184) -/

section

variable {s : State} {x y : Nat} (h : s.err = none)
include h

theorem mxWr_raises_sequenceError (hpatterns : s.mxState ≠ .patterns) (hplaced : s.mxState ≠ .placed) :
    Raises (.mxWr x y) s .sequenceError :=
  raises_of_error (e := .sequenceError) (o := execMxWr x y s) rfl rfl h (if_pos ⟨hpatterns, hplaced⟩)
    ErrCode.noConfusion

variable (hstate : ¬ (s.mxState ≠ .patterns ∧ s.mxState ≠ .placed))
include hstate

theorem mxWr_raises_indexError (hout : symbolSize s ≤ x ∨ symbolSize s ≤ y) : Raises (.mxWr x y) s .indexError :=
  raises_of_error (e := .indexError) (o := execMxWr x y s) rfl rfl h ((if_neg hstate).trans (if_pos hout))
    ErrCode.noConfusion

variable (hin : ¬ (symbolSize s ≤ x ∨ symbolSize s ≤ y))
include hin

theorem mxWr_raises_invalidArgument (hfunc : s.planes.func.get x y = true) :
    Raises (.mxWr x y) s .invalidArgument :=
  raises_of_error (e := .invalidArgument) (o := execMxWr x y s) rfl rfl h
    ((if_neg hstate).trans ((if_neg hin).trans (if_pos hfunc))) ErrCode.noConfusion

variable (hfree : ¬ s.planes.func.get x y = true)
include hfree

theorem mxWr_raises_rangeError (harg : 1 < s.arg0.toNat) : Raises (.mxWr x y) s .rangeError :=
  raises_of_error (e := .rangeError) (o := execMxWr x y s) rfl rfl h
    ((if_neg hstate).trans ((if_neg hin).trans ((if_neg hfree).trans (if_pos harg)))) ErrCode.noConfusion

theorem execMxWr_eq (harg : ¬ 1 < s.arg0.toNat) :
    execMxWr x y s = .next (complete { s with planes := s.planes.setDark x y (s.arg0.getLsbD 0) }) :=
  command_of_ok h ((if_neg hstate).trans ((if_neg hin).trans ((if_neg hfree).trans (if_neg harg))))

end

/-- Settles O57: past its checks MX_WR is one write to DARK. -/
theorem mxWrWritesOneModule : Obligations.MxWrWritesOneModule := by
  refine fun s x y h hs => ⟨mxWr_raises_sequenceError h, fun hstate => ?_⟩
  have hlegal : ¬ (s.mxState ≠ .patterns ∧ s.mxState ≠ .placed) := by tauto
  refine ⟨fun hx hy hfree harg => ⟨_, execMxWr_eq h hlegal (by omega) (by simp [hfree]) (by omega), rfl,
      fun x' y' => ?_⟩, mxWr_raises_indexError h hlegal,
    fun hx hy => mxWr_raises_invalidArgument h hlegal (by omega),
    fun hx hy hfree => mxWr_raises_rangeError h hlegal (by omega) (by simp [hfree])⟩
  obtain ⟨⟨-, hmax⟩, -⟩ := hs.built (by rcases hstate with e | e <;> simp [e])
  have hbit : s.arg0.getLsbD 0 = decide (s.arg0.toNat = 1) := by
    rw [← BitVec.testBit_toNat, Nat.testBit_zero, Nat.mod_eq_of_lt (by omega)]
  change symbolSize s ≤ Config.maxSize at hmax
  rw [complete_planes, Planes.setDark_dark, Plane.get_set, hbit]
  refine if_congr ⟨fun h => ⟨h.1, h.2.1⟩, fun h => ⟨h.1, h.2, ?_, ?_⟩⟩ rfl rfl <;> omega

/-! ### Placement (R178, R179) -/

/-- A list paired with a shorter one keeps its first elements. -/
theorem map_fst_zip_eq_take {α β : Type} (l : List α) (bs : List β) :
    (l.zip bs).map Prod.fst = l.take bs.length := by
  induction l generalizing bs with
  | nil => simp
  | cons a l ih => cases bs <;> simp [ih]

/-- `DARK <- b` at each of the modules of the list with its bit `b`. -/
def writeModules (dark : Plane) (l : List ((Nat × Nat) × Bool)) : Plane :=
  l.foldl (fun dark m => dark.set m.1.1 m.1.2 m.2) dark

theorem get_writeModules_of_not_mem {l : List ((Nat × Nat) × Bool)} {dark : Plane} {x y : Nat}
    (h : (x, y) ∉ l.map Prod.fst) : (writeModules dark l).get x y = dark.get x y := by
  induction l generalizing dark with
  | nil => rfl
  | cons m l ih =>
    rw [List.map_cons, List.mem_cons, not_or] at h
    refine (ih h.2).trans ?_
    rw [Plane.get_set, if_neg fun h' => h.1 (Prod.ext h'.1 h'.2.1)]

theorem get_writeModules_of_mem {l : List ((Nat × Nat) × Bool)} {dark : Plane} (hnodup : (l.map Prod.fst).Nodup)
    {m : (Nat × Nat) × Bool} (hm : m ∈ l) (hbounds : m.1.1 < Config.maxSize ∧ m.1.2 < Config.maxSize) :
    (writeModules dark l).get m.1.1 m.1.2 = m.2 := by
  induction l generalizing dark with
  | nil => cases hm
  | cons m' l ih =>
    obtain ⟨hnotMem, hnodup⟩ := List.nodup_cons.mp hnodup
    rcases List.mem_cons.mp hm with rfl | hm
    · refine (get_writeModules_of_not_mem hnotMem).trans ?_
      rw [Plane.get_set, if_pos ⟨rfl, rfl, hbounds⟩]
    · exact ih hnodup hm

/-- The bits go to the non-function modules in turn, until the modules or the bits run out. -/
theorem placeBits_eq (func : Plane) (ms : List (Nat × Nat)) (bs : List Bool) (placed : Nat) (dark : Plane) :
    placeBits func ms bs placed dark =
      (writeModules dark ((ms.filter fun m => !func.get m.1 m.2).zip bs),
        placed + ((ms.filter fun m => !func.get m.1 m.2).zip bs).length) := by
  induction ms generalizing bs placed dark with
  | nil => rfl
  | cons m ms ih =>
    cases bs with
    | nil => simp [placeBits, writeModules]
    | cons b bs =>
      by_cases hfunc : func.get m.1 m.2 = true
      · rw [placeBits, if_pos hfunc, ih, List.filter_cons_of_neg (by simp [hfunc])]
      · rw [placeBits, if_neg hfunc, ih, List.filter_cons_of_pos (by simp [hfunc]), List.zip_cons_cons,
          List.length_cons, Nat.add_assoc, Nat.add_comm 1]
        rfl

theorem place_eq (size : Nat) (cw : List Byte) (p : Planes) : place size cw p =
    ({ p with dark := writeModules p.dark ((freeModules size p.func).zip (codewordBits cw)) },
      ((freeModules size p.func).zip (codewordBits cw)).length) := by
  rw [place, placeBits_eq, Nat.zero_add]
  rfl

/-- The codewords' bits, each codeword's most significant bit first (R64). -/
theorem codewordBits_readList (m : Memory) (n : Nat) : codewordBits (m.readList 0 n) =
    (List.range (8 * n)).map fun j => (m.read (j / 8)).getLsbD (7 - j % 8) := by
  rw [codewordBits, Memory.readList, List.flatMap_map, ← flatMap_range_map fun k j => (m.read k).getLsbD (7 - j)]
  refine List.flatMap_congr fun k _ => (msbBits_eq_map 8 _).trans (List.map_congr_left fun j _ => ?_)
  rw [BitVec.testBit_toNat, Nat.zero_add]

section

variable {s : State} (h : s.err = none)
include h

theorem mxPlace_raises_sequenceError (hstate : s.mxState ≠ .patterns) : Raises .mxPlace s .sequenceError :=
  raises_of_error (e := .sequenceError) (o := execMxPlace s) rfl rfl h (if_pos hstate) ErrCode.noConfusion

theorem mxPlace_raises_invalidArgument (hstate : s.mxState = .patterns) (hn : s.arg0.toNat ≠ rawCw s.mxVer.toNat) :
    Raises .mxPlace s .invalidArgument :=
  raises_of_error (e := .invalidArgument) (o := execMxPlace s) rfl rfl h
    ((if_neg (not_not_intro hstate)).trans (if_pos hn)) ErrCode.noConfusion

end

/-- A symbol under construction has room for its codewords (R55). -/
theorem State.Inv.codewords_le_free {s : State} (hs : s.Inv) (hbuilt : s.mxState ≠ .unbuilt) :
    8 * rawCw s.mxVer.toNat ≤ (freeModules (symbolSize s) s.planes.func).length := by
  obtain ⟨-, -, -, -, -, hok, -⟩ := hs
  obtain ⟨hv, hfunc, -⟩ := hok hbuilt
  rw [hfunc, length_freeModules hv]
  exact Nat.mul_div_le _ _

/-- The modules MX_PLACE writes, each with its bit. -/
def placedModules (s : State) : List ((Nat × Nat) × Bool) :=
  (freeModules (symbolSize s) s.planes.func).zip (codewordBits (s.raw.readList 0 (rawCw s.mxVer.toNat)))

theorem map_fst_placedModules (s : State) : (placedModules s).map Prod.fst =
    (freeModules (symbolSize s) s.planes.func).take (8 * rawCw s.mxVer.toNat) := by
  rw [placedModules, map_fst_zip_eq_take, length_codewordBits, Memory.length_readList]

theorem nodup_placedModules (s : State) : ((placedModules s).map Prod.fst).Nodup := by
  have hnodup : (freeModules (symbolSize s) s.planes.func).Nodup := nodup_zigzag.filter _
  rw [map_fst_placedModules]
  exact hnodup.take

theorem mem_placedModules {s : State} {j : Nat} (hfree : j < (freeModules (symbolSize s) s.planes.func).length)
    (hj : j < 8 * rawCw s.mxVer.toNat) :
    ((freeModules (symbolSize s) s.planes.func)[j], (s.raw.read (j / 8)).getLsbD (7 - j % 8)) ∈ placedModules s := by
  have hlen : j < (placedModules s).length := by
    rw [placedModules, List.length_zip, length_codewordBits, Memory.length_readList]
    omega
  have hget : (placedModules s)[j] =
      ((freeModules (symbolSize s) s.planes.func)[j], (s.raw.read (j / 8)).getLsbD (7 - j % 8)) := by
    simp only [placedModules, codewordBits_readList, List.getElem_zip, List.getElem_map, List.getElem_range]
  exact hget ▸ List.getElem_mem hlen

theorem State.Inv.execMxPlace_eq {s : State} (hs : s.Inv) (h : s.err = none) (hstate : s.mxState = .patterns)
    (hn : s.arg0.toNat = rawCw s.mxVer.toNat) : Machine.execMxPlace s = .next (complete { s with
      planes := { s.planes with dark := writeModules s.planes.dark (placedModules s) }, mxState := .placed
      result0 := word (8 * rawCw s.mxVer.toNat) }) := by
  have hroom := hs.codewords_le_free (by simp [hstate])
  have hcount : (placedModules s).length = 8 * rawCw s.mxVer.toNat := by
    rw [← List.length_map, map_fst_placedModules, List.length_take, Nat.min_eq_left hroom]
  rw [Machine.execMxPlace_eq h hstate hn, hn, place_eq, ← hcount]
  rfl

/-- Settles O54: MX_PLACE writes the free modules, which are distinct, in turn, and they outnumber the bits. -/
theorem mxPlaceFillsTheZigzag : Obligations.MxPlaceFillsTheZigzag := by
  refine fun s h hs => ⟨fun hstate hn => ?_, mxPlace_raises_sequenceError h, mxPlace_raises_invalidArgument h⟩
  have hbuilt : s.mxState ≠ .unbuilt := by simp [hstate]
  obtain ⟨⟨-, hmax⟩, -⟩ := hs.built hbuilt
  refine ⟨hs.codewords_le_free hbuilt, _, hs.execMxPlace_eq h hstate hn, rfl, fun j hfree hj => ?_,
    fun x y hout => ?_⟩
  · obtain ⟨hx, hy⟩ := lt_of_mem_zigzag (List.mem_of_mem_filter (List.getElem_mem hfree))
    have hget := get_writeModules_of_mem (dark := s.planes.dark) (nodup_placedModules s) (mem_placedModules hfree hj)
      ⟨hx.trans_le hmax, hy.trans_le hmax⟩
    exact hget
  · rw [complete_planes]
    exact get_writeModules_of_not_mem ((map_fst_placedModules s).symm ▸ hout)

/-! ### MX_INIT (R170) -/

/-- Settles O51: the two cases of MX_INIT's one check. -/
theorem mxInitStartsAConstruction : Obligations.MxInitStartsAConstruction :=
  fun s h => ⟨execMxInit_eq h, fun hv =>
    raises_of_error (e := .invalidArgument) (o := execMxInit s) rfl rfl h (if_pos hv) ErrCode.noConfusion⟩

end Sys2Proof.Machine

/-! ## What the matrix commands may change -/

namespace Sys2Proof.Machine

/-! ### Where a command may write DARK (R185) -/

/-- `q` is `p` but for DARK of modules of the region. -/
structure Planes.ChangesIn (region : Nat → Nat → Prop) (p q : Planes) : Prop where
  func_eq : q.func = p.func
  dark_eq : ∀ x y, ¬ region x y → q.dark.get x y = p.dark.get x y

namespace Planes.ChangesIn

variable {A : Nat → Nat → Prop} {p q r : Planes} {size : Nat}

theorem of_eq (h : q = p) : p.ChangesIn A q := h ▸ ⟨rfl, fun _ _ _ => rfl⟩

theorem trans (h : p.ChangesIn A q) (h' : q.ChangesIn A r) : p.ChangesIn A r :=
  ⟨h'.func_eq.trans h.func_eq, fun x y hout => (h'.dark_eq x y hout).trans (h.dark_eq x y hout)⟩

theorem setDark {x y : Nat} (d : Bool) (hA : A x y) : p.ChangesIn A (p.setDark x y d) where
  func_eq := rfl
  dark_eq x' y' hout := by
    rw [Planes.setDark_dark, Plane.get_set, if_neg]
    rintro ⟨rfl, rfl, -⟩
    exact hout hA

theorem applyMask (k : Nat) (hA : ∀ x y, p.func.get x y = false → A x y) :
    p.ChangesIn A (applyMask size k p) where
  func_eq := (inverts_applyMask size k).func_eq p
  dark_eq x y hout := by
    by_contra hne
    obtain ⟨-, -, hfree, -⟩ := ((inverts_applyMask size k).dark_ne_iff p x y).mp hne
    exact hout (hA x y hfree)

theorem place (cw : List Byte) (hA : ∀ x y, p.func.get x y = false → A x y) :
    p.ChangesIn A (place size cw p).1 where
  func_eq := rfl
  dark_eq x y hout := by
    rw [place_eq]
    refine get_writeModules_of_not_mem fun hmem => hout (hA x y ?_)
    rw [map_fst_zip_eq_take] at hmem
    simpa [freeModules] using (List.mem_filter.mp (List.mem_of_mem_take hmem)).2

section

variable (hs : 21 ≤ size) (hmax : size ≤ Config.maxSize)
  (hformat : ∀ m ∈ formatModules size, p.func.get m.1 m.2.1 = true) (e : Ecl)
include hs hmax hformat

theorem drawFormat (mask : Nat) (hA : ∀ x y, formatRegion size x y → A x y) :
    p.ChangesIn A (drawFormat size e mask p) :=
  ⟨drawFormat_func hs hmax hformat e mask,
    fun x y hout => (paints_drawFormat hs hmax e mask).dark_not_mem p x y fun h => hout (hA x y h)⟩

variable (hfree : ∀ x y, p.func.get x y = false → A x y) (hA : ∀ x y, formatRegion size x y → A x y)
include hfree hA

theorem masked (k : Nat) : p.ChangesIn A (masked size e k p) := by
  have h := applyMask (size := size) k hfree
  exact h.trans (drawFormat hs hmax (h.func_eq ▸ hformat) e k hA)

theorem selectMask : p.ChangesIn A (selectMask size e p).1 := by
  refine loop_induction (P := fun r : Planes × Option (Nat × Nat) => p.ChangesIn A r.1) (of_eq rfl)
    fun k r _ hr => ?_
  have h := hr.trans (masked hs hmax (hr.func_eq ▸ hformat) e (hr.func_eq ▸ hfree) hA k)
  exact h.trans (applyMask k (h.func_eq ▸ hfree))

end

end Planes.ChangesIn

/-- A check that fails raises an error, so what follows it may take it as passed. -/
theorem Yields.of_check {p : State → Prop} {c : Prop} [Decidable c] {e : Raised} {r : Except Raised State}
    (hr : ¬ c → Yields p r) : Yields p (if c then .error e else r) :=
  Yields.ite_iff.mpr ⟨fun _ => Yields.error e, hr⟩

/-- A command that is dropped or raises an error writes no plane. -/
theorem changesIn_of_yields {opc : BitVec 8} {body : State → Except Raised State} {s t : State}
    {A : Nat → Nat → Prop} (hbody : Yields (fun u => s.planes.ChangesIn A u.planes) (body s))
    (h : command opc body s = .next t) : s.planes.ChangesIn A t.planes := by
  rcases Yields.command hbody h with ⟨-, rfl⟩ | ⟨-, u, hu, rfl⟩ | ⟨-, e, opc, rfl⟩
  · exact .of_eq (drop_planes s)
  · exact hu
  · exact .of_eq (raise_planes e opc s)

/-- The modules whose DARK a command other than MX_INIT may write (R185). -/
def mayWriteDark (i : Instr) (s : State) (x y : Nat) : Prop :=
  match i with
  | .mxPlace | .mxMask _ | .mxWr _ _ => s.planes.func.get x y = false
  | .mxFmt _ => s.planes.func.get x y = true ∧ formatRegion (symbolSize s) x y
  | .msel => s.planes.func.get x y = false ∨ formatRegion (symbolSize s) x y
  | _ => False

theorem State.Inv.exec_changesIn {s t : State} (hs : s.Inv) {i : Instr} (hi : i ≠ .mxInit)
    (h : Machine.exec i s = .next t) : s.planes.ChangesIn (mayWriteDark i s) t.planes := by
  have hexec := h
  unfold Machine.exec at hexec
  cases i with
  | mxInit => exact absurd rfl hi
  | mxPlace =>
    refine changesIn_of_yields (.of_check fun _ => .of_check fun _ => Yields.ok_iff.mpr ?_) hexec
    exact .place _ fun _ _ => id
  | mxMask k =>
    refine changesIn_of_yields (.of_check fun _ => Yields.ok_iff.mpr ?_) hexec
    exact .applyMask k fun _ _ => id
  | mxFmt k =>
    refine changesIn_of_yields (.of_check fun hstate => Yields.ok_iff.mpr ?_) hexec
    obtain ⟨⟨hlo, hmax⟩, -, hformat⟩ := hs.built (by simp [not_not.mp hstate])
    refine .drawFormat hlo hmax hformat s.mxEcl k ?_
    rintro _ _ ⟨m, hm, rfl, rfl⟩
    exact ⟨hformat m hm, m, hm, rfl, rfl⟩
  | mxWr x y =>
    refine changesIn_of_yields (.of_check fun _ => .of_check fun _ => .of_check fun hfree => .of_check fun _ =>
      Yields.ok_iff.mpr ?_) hexec
    exact .setDark _ (Bool.eq_false_iff.mpr hfree)
  | msel =>
    refine changesIn_of_yields (.of_check fun hstate => .of_check fun _ => Yields.ok_iff.mpr ?_) hexec
    obtain ⟨⟨hlo, hmax⟩, -, hformat⟩ := hs.built (by simp [not_not.mp hstate])
    have hfree : ∀ x y, s.planes.func.get x y = false → mayWriteDark .msel s x y := fun _ _ => .inl
    have hinfo : ∀ x y, formatRegion s.mxSize x y → mayWriteDark .msel s x y := fun _ _ => .inr
    dsimp only
    split
    · have h := Planes.ChangesIn.selectMask hlo hmax hformat s.mxEcl hfree hinfo
      exact h.trans (.masked hlo hmax (h.func_eq ▸ hformat) _ (h.func_eq ▸ hfree) hinfo _)
    · exact .masked hlo hmax hformat _ hfree hinfo _
  | _ =>
    rcases exec_cases _ h with ⟨-, rfl⟩ | ⟨-, u, hu, rfl⟩ | ⟨-, e, opc, rfl⟩
    · exact .of_eq (drop_planes s)
    · rw [Writes] at hu
      exact .of_eq (by rw [complete_planes, hu])
    · exact .of_eq (raise_planes e opc s)

/-- Settles O11: each command writes DARK only where R185 lets it. -/
theorem functionModulesAreWrittenOnce : Obligations.FunctionModulesAreWrittenOnce := by
  intro i s t hs h hi
  obtain ⟨hfunc, hdark⟩ := hs.exec_changesIn hi h
  refine ⟨hfunc, fun x y hfunction hkept => hdark x y ?_, fun hplace hmask hwr hmsel x y hfree => hdark x y ?_⟩
  · cases i with
    | mxPlace | mxMask _ | mxWr _ _ => simpa [mayWriteDark] using hfunction
    | mxFmt k =>
      rintro ⟨-, m, hm, rfl, rfl⟩
      rcases hkept with h | h
      · exact h.1 k rfl
      · exact h m hm rfl
    | msel =>
      rintro (hfree | ⟨m, hm, rfl, rfl⟩)
      · exact absurd hfunction (by simp [hfree])
      · rcases hkept with h | h
        · exact h.2 rfl
        · exact h m hm rfl
    | _ => exact not_false
  · cases i with
    | mxPlace => exact absurd rfl hplace
    | mxMask k => exact absurd rfl (hmask k)
    | mxWr x y => exact absurd rfl (hwr x y)
    | msel => exact absurd rfl hmsel
    | mxFmt k => simp [mayWriteDark, hfree]
    | _ => exact not_false

/-! ### The state of the construction (R186) -/

/-- The result of a command's checks and writes is one R186 allows where the command is legal: MXSTATE becomes `m`, or
an error other than SequenceError is raised. -/
def LeavesMxState (m : MxState) (r : Except Raised State) : Prop :=
  match r with
  | .ok u => u.err = none ∧ u.mxState = m
  | .error e => e.code ≠ .sequenceError

theorem LeavesMxState.ite {m : MxState} {c : Prop} [Decidable c] {a b : Except Raised State}
    (ha : c → LeavesMxState m a) (hb : ¬ c → LeavesMxState m b) : LeavesMxState m (if c then a else b) := by
  split
  · exact ha ‹_›
  · exact hb ‹_›

theorem command_leaves_mxState {opc : BitVec 8} {body : State → Except Raised State} {s : State} {m : MxState}
    (h : s.err = none) (hbody : LeavesMxState m (body s)) :
    ∃ t, command opc body s = .next t ∧ t.err ≠ some .sequenceError ∧ (t.err = none → t.mxState = m) ∧
      (t.err ≠ none → t.mxState = s.mxState) := by
  cases hb : body s with
  | ok u =>
    rw [hb] at hbody
    obtain ⟨herr, hm⟩ := hbody
    exact ⟨_, command_of_ok h hb, by simp [herr], fun _ => hm, fun hne => absurd herr hne⟩
  | error e =>
    rw [hb] at hbody
    refine ⟨_, command_of_error h hb, ?_, fun hnone => ?_, fun _ => raise_mxState e opc s⟩
    · rw [raise_err]
      exact fun heq => hbody (Option.some.inj heq)
    · simp at hnone

section

variable {s : State} (h : s.err = none)
include h

theorem mxPen_raises_sequenceError (hstate : s.mxState = .unbuilt) : Raises .mxPen s .sequenceError :=
  raises_of_error (e := .sequenceError) (o := execMxPen s) rfl rfl h (if_pos hstate) ErrCode.noConfusion

theorem msel_raises_sequenceError (hstate : s.mxState ≠ .placed) : Raises .msel s .sequenceError :=
  raises_of_error (e := .sequenceError) (o := execMsel s) rfl rfl h (if_pos hstate) ErrCode.noConfusion

/-- The states marked Seq in R186. -/
theorem raises_sequenceError_of_not_legal {i : Instr} (hi : isMatrix i = true)
    (hlegal : legalIn i s.mxState = false) : Raises i s .sequenceError := by
  cases i with
  | mxInit => cases hlegal
  | mxPlace => exact mxPlace_raises_sequenceError h (by simpa [legalIn] using hlegal)
  | mxMask k => exact mxMask_raises_sequenceError h (by simpa [legalIn] using hlegal)
  | mxFmt k => exact mxFmt_raises_sequenceError h (by simpa [legalIn] using hlegal)
  | mxRead x y => exact mxRead_raises_sequenceError h x y (by simpa [legalIn] using hlegal)
  | mxWr x y =>
    obtain ⟨hpatterns, hplaced⟩ : s.mxState ≠ .patterns ∧ s.mxState ≠ .placed := by simpa [legalIn] using hlegal
    exact mxWr_raises_sequenceError h hpatterns hplaced
  | mxPen => exact mxPen_raises_sequenceError h (by simpa [legalIn] using hlegal)
  | msel => exact msel_raises_sequenceError h (by simpa [legalIn] using hlegal)
  | _ => cases hi

/-- The states marked ok in R186, with the state after success. -/
theorem leaves_stateAfter_of_legal {i : Instr} (hi : isMatrix i = true) (hlegal : legalIn i s.mxState = true) :
    ∃ t, exec i s = .next t ∧ t.err ≠ some .sequenceError ∧
      (t.err = none → t.mxState = stateAfter i s.mxState) ∧ (t.err ≠ none → t.mxState = s.mxState) := by
  unfold exec
  cases i with
  | mxInit => exact command_leaves_mxState h (.ite (fun _ => ErrCode.noConfusion) fun _ => ⟨h, rfl⟩)
  | mxPlace =>
    replace hlegal : s.mxState = .patterns := by simpa [legalIn] using hlegal
    exact command_leaves_mxState h (.ite (absurd hlegal) fun _ =>
      .ite (fun _ => ErrCode.noConfusion) fun _ => ⟨h, rfl⟩)
  | mxMask k | mxFmt k =>
    replace hlegal : s.mxState = .placed := by simpa [legalIn] using hlegal
    exact command_leaves_mxState h (.ite (absurd hlegal) fun _ => ⟨h, rfl⟩)
  | mxRead x y =>
    replace hlegal : s.mxState ≠ .unbuilt := by simpa [legalIn] using hlegal
    exact command_leaves_mxState h (.ite (absurd · hlegal) fun _ => .ite (fun _ => ⟨h, rfl⟩) fun _ => ⟨h, rfl⟩)
  | mxWr x y =>
    replace hlegal : ¬ (s.mxState ≠ .patterns ∧ s.mxState ≠ .placed) := by
      simpa [legalIn, or_iff_not_imp_left] using hlegal
    exact command_leaves_mxState h (.ite (absurd · hlegal) fun _ => .ite (fun _ => ErrCode.noConfusion) fun _ =>
      .ite (fun _ => ErrCode.noConfusion) fun _ => .ite (fun _ => ErrCode.noConfusion) fun _ => ⟨h, rfl⟩)
  | mxPen =>
    replace hlegal : s.mxState ≠ .unbuilt := by simpa [legalIn] using hlegal
    exact command_leaves_mxState h (.ite (absurd · hlegal) fun _ => ⟨h, rfl⟩)
  | msel =>
    replace hlegal : s.mxState = .placed := by simpa [legalIn] using hlegal
    exact command_leaves_mxState h (.ite (absurd hlegal) fun _ =>
      .ite (fun _ => ErrCode.noConfusion) fun _ => ⟨h, rfl⟩)
  | _ => cases hi

end

/-- Settles O14: each command's first check is the table's column, and its other errors are not SequenceError. -/
theorem matrixCommandsAreLegalInTheirStates : Obligations.MatrixCommandsAreLegalInTheirStates :=
  fun _ _ hi h => ⟨raises_sequenceError_of_not_legal h hi, leaves_stateAfter_of_legal h hi⟩

end Sys2Proof.Machine

/-! ## The penalty score and mask selection -/

namespace Sys2Proof.Machine

/-! ### The N1 points of one run (R202, R207) -/

/-- Where two parts of a line meet in different colours, or one is empty, no run crosses from one to the other. -/
theorem runLengths_append {before after : List Bool} (h : ∀ c ∈ before.getLast?, after.head? ≠ some c) :
    runLengths (before ++ after) = runLengths before ++ runLengths after := by
  induction before with
  | nil => rfl
  | cons b before ih =>
    cases before with
    | nil =>
      cases after with
      | nil => rfl
      | cons c after =>
        have hne : b ≠ c := fun hbc => h b rfl (congrArg some hbc.symm)
        exact runLengths_replicate_append hne 0 after
    | cons c before =>
      have happend := ih fun d hd => h d (by rwa [List.getLast?_cons_cons])
      obtain ⟨n, ns, hruns⟩ := List.exists_cons_of_ne_nil (runLengths_ne_nil c before)
      rw [hruns] at happend
      simp only [List.cons_append] at happend ⊢
      simp only [runLengths, happend, hruns]
      split <;> rfl

theorem lineRunPoints_append {before after : List Bool} (h : ∀ c ∈ before.getLast?, after.head? ≠ some c) :
    lineRunPoints (before ++ after) = lineRunPoints before + lineRunPoints after := by
  rw [lineRunPoints, runLengths_append h, List.map_append, List.sum_append]
  rfl

theorem lineRunPoints_replicate {len : Nat} (hlen : 0 < len) (c : Bool) :
    lineRunPoints (List.replicate len c) = if 5 ≤ len then 3 + (len - 5) else 0 := by
  obtain ⟨n, rfl⟩ := Nat.exists_eq_add_of_lt hlen
  rw [Nat.zero_add, lineRunPoints, runLengths_replicate, List.map_singleton, List.sum_singleton]

/-- Settles O58: a scan counts the points of the line's runs, and the run crosses neither of its ends. -/
theorem runScoresThreePlusExcess : Obligations.RunScoresThreePlusExcess := by
  intro size len c before after hlen hbefore hafter
  have hstart : ∀ d ∈ before.getLast?, (List.replicate len c).head? ≠ some d := by
    rintro d hd hhead
    obtain rfl : c = d := by simpa [List.head?_replicate, hlen.ne'] using hhead
    exact hbefore hd
  have hend : ∀ d ∈ (before ++ List.replicate len c).getLast?, after.head? ≠ some d := by
    intro d hd
    obtain rfl : c = d := by simpa [List.getLast?_append, List.getLast?_replicate, hlen.ne'] using hd
    exact hafter
  simp only [scanLine_fst]
  rw [lineRunPoints_append hend, lineRunPoints_append hstart, lineRunPoints_replicate hlen]

/-! ### What the penalty depends on (R201 to R204, R207) -/

theorem sumTo_eq_sum (n : Nat) (f : Nat → Nat) : sumTo n f = ∑ i ∈ Finset.range n, f i := rfl

theorem mem_square {n : Nat} {m : Nat × Nat} : m ∈ square n ↔ m.1 < n ∧ m.2 < n := by
  obtain ⟨x, y⟩ := m
  simp [square, and_comm]

theorem length_square (n : Nat) : (square n).length = n * n := by simp [square]

theorem countP_square_congr {n : Nat} {P Q : Nat × Nat → Bool}
    (h : ∀ x y, x < n → y < n → P (x, y) = Q (x, y)) : (square n).countP P = (square n).countP Q := by
  refine List.countP_congr fun m hm => ?_
  obtain ⟨hx, hy⟩ := mem_square.mp hm
  rw [h m.1 m.2 hx hy]

/-- A square holds as many modules with a property as their mirror images. -/
theorem countP_square_swap (n : Nat) (P : Nat × Nat → Bool) :
    (square n).countP P = (square n).countP fun m => P m.swap := by
  simp only [countP_square, sumTo_eq_sum]
  exact Finset.sum_comm

theorem symbolLines_eq (size : Nat) (dark : Plane) : symbolLines size dark =
    (List.range size).map (dark.row size) ++ (List.range size).map (dark.column size) := rfl

section

variable {size : Nat} {p q : Plane}

/-- The penalty is determined by the lines, in any order, the uniform blocks and the dark modules. -/
theorem scoreOf_congr (hlines : (symbolLines size p).Perm (symbolLines size q))
    (hblocks : uniformBlocks size p = uniformBlocks size q) (hdark : darkModules size p = darkModules size q) :
    scoreOf size p = scoreOf size q := by
  simp only [scoreOf, (hlines.map lineRunPoints).sum_eq, (hlines.map (lineFinders size)).sum_eq, hblocks, hdark]

theorem scoreOf_eq_of_agree (h : ∀ x y, x < size → y < size → p.get x y = q.get x y) :
    scoreOf size p = scoreOf size q := by
  refine scoreOf_congr (.of_eq ?_) (countP_square_congr fun x y hx hy => ?_) (countP_square_congr h)
  · have hrow : ∀ y ∈ List.range size, p.row size y = q.row size y := fun y hy =>
      List.map_congr_left fun x hx => h x y (List.mem_range.mp hx) (List.mem_range.mp hy)
    have hcolumn : ∀ x ∈ List.range size, p.column size x = q.column size x := fun x hx =>
      List.map_congr_left fun y hy => h x y (List.mem_range.mp hx) (List.mem_range.mp hy)
    rw [symbolLines_eq, List.map_congr_left hrow, List.map_congr_left hcolumn, symbolLines_eq]
  · rw [h x y (by omega) (by omega), h (x + 1) y (by omega) (by omega), h x (y + 1) (by omega) (by omega),
      h (x + 1) (y + 1) (by omega) (by omega)]

/-- Transposing makes the rows the columns and mirrors the blocks and the modules. -/
theorem scoreOf_eq_of_transposed (h : ∀ x y, x < size → y < size → p.get x y = q.get y x) :
    scoreOf size p = scoreOf size q := by
  refine scoreOf_congr ?_ ((countP_square_swap _ _).trans (countP_square_congr fun x y hx hy => ?_))
    ((countP_square_swap _ _).trans (countP_square_congr fun x y hx hy => h y x hy hx))
  · have hrow : ∀ y ∈ List.range size, p.row size y = q.column size y := fun y hy =>
      List.map_congr_left fun x hx => h x y (List.mem_range.mp hx) (List.mem_range.mp hy)
    have hcolumn : ∀ x ∈ List.range size, p.column size x = q.row size x := fun x hx =>
      List.map_congr_left fun y hy => h x y (List.mem_range.mp hx) (List.mem_range.mp hy)
    rw [symbolLines_eq, List.map_congr_left hrow, List.map_congr_left hcolumn]
    exact List.perm_append_comm
  · rw [decide_eq_decide, Prod.fst_swap, Prod.snd_swap, h y x (by omega) (by omega), h (y + 1) x (by omega) (by omega),
      h y (x + 1) (by omega) (by omega), h (y + 1) (x + 1) (by omega) (by omega), and_left_comm]

end

theorem darkCount_le (size : Nat) (dark : Plane) : darkCount size dark ≤ size * size := by
  rw [darkCount_eq, ← length_square]
  exact List.countP_le_length

/-- The dark count is off half the modules by at most half of them, ten steps of 5 %, of which R204 counts one less. -/
theorem balanceSteps_le {size dk : Nat} (hdk : dk ≤ size * size) : balanceSteps size dk ≤ 9 := by
  have hdist : dist (dk * 20) (size * size * 10) + size * size - 1 < 11 * (size * size) ∨ size * size = 0 := by
    simp only [dist]
    omega
  simp only [balanceSteps]
  rcases hdist with hlt | hzero
  · have := Nat.div_lt_of_lt_mul (Nat.mul_comm 11 _ ▸ hlt)
    omega
  · simp [hzero]

/-- The score of the rules also where the symbol has no modules, which have no lines and score nothing. -/
theorem penalty_eq_scoreOf_all_sizes (size : Nat) (dark : Plane) : penalty size dark = scoreOf size dark := by
  rcases Nat.eq_zero_or_pos size with rfl | hs
  · rfl
  · exact penalty_eq_scoreOf hs dark

/-- Settles O59: the penalty is the score of R201 to R204, which is a sum over lines, blocks and modules. -/
theorem penaltyIsTransposeInvariant : Obligations.PenaltyIsTransposeInvariant := by
  intro size p q
  rw [penalty_eq_scoreOf_all_sizes, penalty_eq_scoreOf_all_sizes]
  exact ⟨rfl, darkCount_eq size p, scoreOf_eq_of_agree, scoreOf_eq_of_transposed,
    Nat.mul_le_mul_left 10 (balanceSteps_le (darkCount_le size p))⟩

/-! ### Trials of masks (R205) -/

/-- Painting the same region of two symbols that differ only there makes them equal. -/
theorem Paints.eq_of_changesIn {f : Planes → Planes} {A : Nat → Nat → Prop} {val : Nat → Nat → Bool}
    (hf : Paints f A val) {p q : Planes} (h : p.ChangesIn A q) : f q = f p := by
  have hfunc : (f q).func = (f p).func := Plane.ext_get fun x y => by
    rw [Bool.eq_iff_iff, hf.func_iff, hf.func_iff, h.func_eq]
  have hdark : (f q).dark = (f p).dark := Plane.ext_get fun x y => by
    by_cases hA : A x y
    · rw [hf.dark_mem q x y hA, hf.dark_mem p x y hA]
    · rw [hf.dark_not_mem q x y hA, hf.dark_not_mem p x y hA, h.dark_eq x y hA]
  exact congrArg₂ Planes.mk hfunc hdark

/-- Inverting the same modules of two symbols keeps where they differ. -/
theorem Inverts.changesIn {f : Planes → Planes} {R : Plane → Nat → Nat → Prop} (hf : Inverts f R)
    {A : Nat → Nat → Prop} {p q : Planes} (h : p.ChangesIn A q) : (f p).ChangesIn A (f q) where
  func_eq := (hf.func_eq q).trans (h.func_eq.trans (hf.func_eq p).symm)
  dark_eq x y hout := by
    have hp := hf.dark_ne_iff p x y
    have hq := hf.dark_ne_iff q x y
    rw [h.func_eq, h.dark_eq x y hout, ← hp] at hq
    revert hq
    cases (f q).dark.get x y <;> cases (f p).dark.get x y <;> cases p.dark.get x y <;> simp

section

variable {size : Nat} (hs : 21 ≤ size) (hmax : size ≤ Config.maxSize) (e : Ecl)
include hs hmax

/-- A masked symbol does not show what the format area held before (R176). -/
theorem masked_eq_of_changesIn (k : Nat) {p q : Planes} (h : p.ChangesIn (formatRegion size) q) :
    masked size e k q = masked size e k p :=
  (paints_drawFormat hs hmax e k).eq_of_changesIn ((inverts_applyMask size k).changesIn h)

variable {p : Planes} (hformat : ∀ m ∈ formatModules size, p.func.get m.1 m.2.1 = true)
include hformat

/-- A mask applied, hidden by format information and applied again is undone but for the format area. -/
theorem unmask_changesIn (k : Nat) :
    p.ChangesIn (formatRegion size) (applyMask size k (masked size e k p)) := by
  have hmask := inverts_applyMask size k
  have hdraw : (applyMask size k p).ChangesIn (formatRegion size) (masked size e k p) :=
    .drawFormat hs hmax (hmask.func_eq p ▸ hformat) e k fun _ _ => id
  simpa only [hmask.self_inverse p] using hmask.changesIn hdraw

theorem isMasked_masked {k : Nat} (hk : k ≤ 7) : IsMasked size e k p (masked size e k p) := by
  have hmask := inverts_applyMask size k
  have hpaints := paints_drawFormat hs hmax e k
  refine ⟨?_, ⟨_, isFormatWord_formatBits e k (by omega), fun m hm => ?_⟩, fun x y hout => ?_⟩
  · exact (drawFormat_func hs hmax (hmask.func_eq p ▸ hformat) e k).trans (hmask.func_eq p)
  · rw [masked, hpaints.dark_mem _ _ _ ⟨m, hm, rfl, rfl⟩, (formatModules_place hs m hm).2]
  · have hregion : ¬ formatRegion size x y := by
      rintro ⟨m, hm, rfl, rfl⟩
      exact hout m hm rfl
    rw [masked, hpaints.dark_not_mem _ x y hregion, hmask.dark_ne_iff p x y, maskAt_iff_inverted hk]
    constructor
    · rintro ⟨⟨hx, hy⟩, -, hfree⟩
      exact ⟨hx, hy, hfree⟩
    · rintro ⟨hx, hy, hfree⟩
      exact ⟨⟨hx, hy⟩, ⟨hx.trans_le hmax, hy.trans_le hmax⟩, hfree⟩

end

/-! ### The mask the trials choose (R205, R206) -/

/-- `k` has the lowest of the scores 0 to `n - 1`, and is the lowest of those that have it. -/
def IsLowest (score : Nat → Nat) (n k : Nat) : Prop :=
  k < n ∧ ∀ j < n, score k ≤ score j ∧ (j < k → score k < score j)

/-- The best mask and score that MSEL holds after `n` trials. -/
def BestOf (score : Nat → Nat) (n : Nat) : Option (Nat × Nat) → Prop
  | none => n = 0
  | some (k, v) => v = score k ∧ IsLowest score n k

/-- A score below the best so far is the best. -/
theorem IsLowest.of_lt {score : Nat → Nat} {n k : Nat} (h : IsLowest score n k) (hlt : score n < score k) :
    IsLowest score (n + 1) n := by
  obtain ⟨-, hbest⟩ := h
  refine ⟨Nat.lt_succ_self n, fun j hj => ?_⟩
  rcases Nat.lt_succ_iff_lt_or_eq.mp hj with hj | rfl
  · have := hbest j hj
    omega
  · exact ⟨le_rfl, fun hjj => absurd hjj (lt_irrefl j)⟩

/-- A later score replaces the best only if it is strictly lower. -/
theorem IsLowest.of_le {score : Nat → Nat} {n k : Nat} (h : IsLowest score n k) (hle : score k ≤ score n) :
    IsLowest score (n + 1) k := by
  obtain ⟨hk, hbest⟩ := h
  refine ⟨Nat.lt_succ_of_lt hk, fun j hj => ?_⟩
  rcases Nat.lt_succ_iff_lt_or_eq.mp hj with hj | rfl
  · exact hbest j hj
  · exact ⟨hle, fun hjk => absurd hjk hk.asymm⟩

theorem BestOf.trial {score : Nat → Nat} {size k : Nat} {e : Ecl} {r : Planes × Option (Nat × Nat)}
    (h : BestOf score k r.2) (hscore : penalty size (masked size e k r.1).dark = score k) :
    BestOf score (k + 1) (trial size e k r).2 := by
  obtain ⟨p, best⟩ := r
  cases best with
  | none =>
    obtain rfl : k = 0 := h
    refine ⟨hscore, Nat.one_pos, fun j hj => ?_⟩
    obtain rfl := Nat.lt_one_iff.mp hj
    exact ⟨le_rfl, fun hjj => absurd hjj (lt_irrefl 0)⟩
  | some b =>
    obtain ⟨k', v⟩ := b
    obtain ⟨rfl, hlowest⟩ := h
    simp only [Machine.trial, hscore]
    split
    next hlt => exact ⟨rfl, hlowest.of_lt hlt⟩
    next hge => exact ⟨rfl, hlowest.of_le (Nat.le_of_not_lt hge)⟩

/-- The trials leave the symbol as it was but for the format area, and choose the lowest mask of the lowest score. -/
theorem selectMask_spec {size : Nat} (hs : 21 ≤ size) (hmax : size ≤ Config.maxSize) (e : Ecl) {p : Planes}
    (hformat : ∀ m ∈ formatModules size, p.func.get m.1 m.2.1 = true) :
    p.ChangesIn (formatRegion size) (selectMask size e p).1 ∧
      IsLowest (fun k => penalty size (masked size e k p).dark) 8 (selectMask size e p).2 := by
  have htrials : p.ChangesIn (formatRegion size) (loop 8 (trial size e) (p, none)).1 ∧
      BestOf (fun k => penalty size (masked size e k p).dark) 8 (loop 8 (trial size e) (p, none)).2 := by
    refine loop_invariant (P := fun k (r : Planes × Option (Nat × Nat)) => p.ChangesIn (formatRegion size) r.1 ∧
      BestOf (fun k => penalty size (masked size e k p).dark) k r.2) ⟨.of_eq rfl, rfl⟩ fun k r _ hr => ?_
    obtain ⟨hplanes, hbest⟩ := hr
    exact ⟨hplanes.trans (unmask_changesIn hs hmax e (hplanes.func_eq ▸ hformat) k),
      hbest.trial (by rw [masked_eq_of_changesIn hs hmax e k hplanes])⟩
  obtain ⟨hplanes, hbest⟩ := htrials
  refine ⟨hplanes, ?_⟩
  rw [selectMask]
  cases hchosen : (loop 8 (trial size e) (p, none)).2 with
  | none => simp [hchosen, BestOf] at hbest
  | some b =>
    rw [hchosen] at hbest
    exact hbest.2

/-! ### MSEL (R205, R206) -/

/-- The symbol under construction finished with mask `k` (R205). -/
def State.finalizedWith (s : State) (k : Nat) : State :=
  { s with
    planes := masked s.mxSize s.mxEcl k s.planes, mxMask := BitVec.ofNat 3 k, mxMaskV := true, mxState := .finalized
    result0 := word k, result1 := word (penalty s.mxSize (masked s.mxSize s.mxEcl k s.planes).dark) }

section

variable {s : State} (h : s.err = none) (hstate : s.mxState = .placed)
include h hstate

theorem msel_raises_invalidArgument (hreq : 8 ≤ s.cfg.maskReq.toNat ∧ s.cfg.maskReq.toNat ≤ 14) :
    Raises .msel s .invalidArgument :=
  raises_of_error (e := .invalidArgument) (o := execMsel s) rfl rfl h
    ((if_neg (not_not_intro hstate)).trans (if_pos hreq)) ErrCode.noConfusion

theorem execMsel_of_forced (hreq : s.cfg.maskReq.toNat ≤ 7) :
    execMsel s = .next (complete (s.finalizedWith s.cfg.maskReq.toNat)) := by
  refine command_of_ok h ((if_neg (not_not_intro hstate)).trans ((if_neg (by omega)).trans ?_))
  rw [if_neg (by omega)]
  rfl

theorem execMsel_of_automatic (hreq : s.cfg.maskReq.toNat = 15)
    (hmasked : ∀ k, masked s.mxSize s.mxEcl k (selectMask s.mxSize s.mxEcl s.planes).1 =
      masked s.mxSize s.mxEcl k s.planes) :
    execMsel s = .next (complete (s.finalizedWith (selectMask s.mxSize s.mxEcl s.planes).2)) := by
  refine command_of_ok h ((if_neg (not_not_intro hstate)).trans ((if_neg (by omega)).trans ?_))
  simp only [if_pos hreq, hmasked]
  rfl

end

/-- Settles O60: the trials undo each mask but for the format area, which the chosen mask draws anew. -/
theorem mselFinishesWithTheBestMask : Obligations.MselFinishesWithTheBestMask := by
  refine fun s h hs => ⟨fun hstate hreq => ?_, msel_raises_sequenceError h,
    fun hstate hlo hhi => msel_raises_invalidArgument h hstate ⟨hlo, hhi⟩⟩
  obtain ⟨⟨hlo, hmax⟩, -, hformat⟩ := hs.built (by simp [hstate])
  refine ⟨fun k => masked s.mxSize s.mxEcl k s.planes,
    fun j hj => isMasked_masked hlo hmax s.mxEcl hformat (Nat.le_of_lt_succ hj), ?_⟩
  simp only [← penalty_eq_scoreOf_all_sizes]
  rcases hreq with hforced | hauto
  · exact ⟨_, Nat.lt_succ_of_le hforced, execMsel_of_forced h hstate hforced, fun _ => rfl, fun hauto => by omega⟩
  · obtain ⟨hplanes, hchosen, hbest⟩ := selectMask_spec hlo hmax s.mxEcl hformat
    have hmasked := fun k => masked_eq_of_changesIn hlo hmax s.mxEcl k hplanes
    exact ⟨_, hchosen, execMsel_of_automatic h hstate hauto hmasked, fun hforced => by omega, fun _ => hbest⟩

end Sys2Proof.Machine

/-! ## Errors, drops, completion and the interrupt line -/

namespace Sys2Proof.Machine

/-! ### Issue and drop (R221) -/

/-- A word that ends its run is a command, whether it decodes or not. -/
theorem runWord_is_command (w : Word) : ∃ opc body, ∀ s, runWord w s = command opc body s := by
  cases hw : decode w with
  | ok i =>
    obtain ⟨body, hbody⟩ := exec_is_command i
    exact ⟨_, body, fun s => by simpa only [runWord, hw] using hbody s⟩
  | error e => exact ⟨_, fun _ => .error .illegalCommand, fun s => by simp only [runWord, hw]; rfl⟩

theorem step_of_running_zero {s : State} {w : Word} (he : s.engine = .running w 0) : step s = runWord w s := by
  simp only [step, he]

/-- Settles O6: every instruction and every word is a command, and a command issued in an error is dropped. -/
theorem stickyErrorDropsEveryCommand : Obligations.StickyErrorDropsEveryCommand := by
  refine fun s herr => ⟨fun i => ?_, fun w he => ?_, fun w he => ?_⟩
  · obtain ⟨body, hbody⟩ := exec_is_command i
    exact (hbody s).trans (command_of_err herr)
  · obtain ⟨opc, body, hbody⟩ := runWord_is_command w
    exact (step_of_running_zero he).trans ((hbody s).trans (command_of_err herr))
  · rw [hostWrite_of_idle (r := .cmd) rfl w he]
    rfl

/-! ### The errors of each command (R217, R219) -/

/-- The checks and writes of a command record no error themselves and raise only the errors listed. -/
def RaisesOnly (cs : List ErrCode) (r : Except Raised State) : Prop :=
  match r with
  | .ok u => u.err = none
  | .error e => e.code ∈ cs

namespace RaisesOnly

variable {cs : List ErrCode}

@[simp] theorem error_iff {e : Raised} : RaisesOnly cs (.error e) ↔ e.code ∈ cs := Iff.rfl

@[simp] theorem ok_iff {u : State} : RaisesOnly cs (.ok u) ↔ u.err = none := Iff.rfl

@[simp] theorem ite_iff {c : Prop} [Decidable c] {a b : Except Raised State} :
    RaisesOnly cs (if c then a else b) ↔ (c → RaisesOnly cs a) ∧ (¬ c → RaisesOnly cs b) := by
  split <;> simp [*]

/-- An append raises BufferFull only (R111). -/
theorem appendBits {bs : List Bool} {s : State} (h : s.err = none) (hmem : .bufferFull ∈ cs) :
    RaisesOnly cs (appendBits bs s) := by
  rcases appendBits_cases bs s with ⟨-, e⟩ | ⟨-, e⟩ <;> rw [e]
  · exact h
  · exact hmem

/-- Issued with no error recorded, a command completes or records one of its body's errors. -/
theorem command {opc : BitVec 8} {body : State → Except Raised State} {s t : State} (h : s.err = none)
    (hbody : RaisesOnly cs (body s)) (ht : command opc body s = .next t) :
    t.err = none ∨ ∃ e, e.code ∈ cs ∧ t = raise e opc s := by
  obtain ⟨t', ht', hcases⟩ := command_cases (opc := opc) (body := body) (s := s)
  obtain rfl : t' = t := by simpa using ht'.symm.trans ht
  rcases hcases with ⟨herr, -⟩ | ⟨-, u, hu, rfl⟩ | ⟨-, e, he, rfl⟩
  · exact absurd h herr
  · rw [hu] at hbody
    exact .inl hbody
  · rw [he] at hbody
    exact .inr ⟨e, hbody, rfl⟩

end RaisesOnly

@[simp] theorem spaceWrite_err (s : State) (space a : Nat) (v : Byte) : (spaceWrite s space a v).err = s.err := by
  unfold spaceWrite
  split <;> rfl

/-- Every body is a chain of checks, each raising an error of the command's row of R219, that ends in an append or a
write of other fields than ERR. -/
theorem exec_raises (i : Instr) {s t : State} (h : s.err = none) (ht : exec i s = .next t) :
    t.err = none ∨ ∃ e : Raised, e.code ∈ raisable i ∧ t = raise e (BitVec.ofNat 8 i.opc) s := by
  unfold exec at ht
  cases i with
  | memwr _ | memrd _ | bbGet | segHdr _ =>
    refine RaisesOnly.command h ?_ ht
    split <;> simp [h, RaisesOnly.appendBits h, raisable, Raised.code]
  | bbApaln n =>
    refine RaisesOnly.command h ?_ ht
    simp only [RaisesOnly.ite_iff]
    refine ⟨fun _ => ?_, fun _ => ⟨fun _ => ?_, fun _ => ⟨fun _ => ?_, fun _ => ?_⟩⟩⟩
    · simp [raisable, Raised.code]
    · simp [raisable, Raised.code]
    · split <;> simp [RaisesOnly.appendBits h, raisable, Raised.code]
    · split <;> simp [RaisesOnly.appendBits h, raisable, Raised.code]
  | vsel minver maxver boost =>
    refine RaisesOnly.command h ?_ ht
    simp only [RaisesOnly.ite_iff]
    refine ⟨fun _ => ?_, fun _ => ⟨fun _ => ?_, fun _ => ?_⟩⟩
    · simp [raisable, Raised.code]
    · simp [raisable, Raised.code]
    · split
      · simp [raisable, Raised.code]
      · split <;> simp [h, raisable, Raised.code]
  | _ => exact RaisesOnly.command h (by simp [h, RaisesOnly.appendBits h, raisable, Raised.code]) ht

/-- A command that leaves an error raised it, and the error is of the command's row. -/
theorem exec_raises_of_err {i : Instr} {s t : State} {c : ErrCode} (h : s.err = none) (ht : exec i s = .next t)
    (hc : t.err = some c) :
    ∃ e : Raised, e.code = c ∧ c ∈ raisable i ∧ t = raise e (BitVec.ofNat 8 i.opc) s := by
  rcases exec_raises i h ht with hnone | ⟨e, hmem, rfl⟩
  · simp [hnone] at hc
  · obtain rfl : e.code = c := by simpa using hc
    exact ⟨e, rfl, hmem, rfl⟩

/-- Settles O8: the state left is the one `raise` makes, and `raise` writes a result for DataTooLong only. -/
theorem errorsArePrecise : Obligations.ErrorsArePrecise := by
  intro i s t c h ht hc
  obtain ⟨e, rfl, -, rfl⟩ := exec_raises_of_err h ht hc
  refine ⟨fun hne => ?_, ?_⟩
  · rw [Raises, ht, raise_of_ne _ s hne]
  · cases e <;> rfl

/-- Settles O9: each check of a command raises an error of its row. -/
theorem onlyTheListedErrorsAreRaised : Obligations.OnlyTheListedErrorsAreRaised := by
  intro i s t c h ht hc
  obtain ⟨-, -, hmem, -⟩ := exec_raises_of_err h ht hc
  exact hmem

/-! ### Completion (R222) -/

/-- The bookkeeping of a completion: DONE, BUSY, and CMDCNT unless the command was dropped. -/
def Completes (s t : State) : Prop :=
  t.done = true ∧ t.busy = false ∧ t.cmdcnt = if s.err = none then s.cmdcnt + 1 else s.cmdcnt

/-- Dropped, completed or in error, a command does the bookkeeping if its body leaves CMDCNT alone. -/
theorem completes_of_cases {p : State → Prop} {s t : State} (hp : ∀ u, p u → u.cmdcnt = s.cmdcnt)
    (h : (s.err ≠ none ∧ t = drop s) ∨ (s.err = none ∧ ∃ u, p u ∧ t = complete u) ∨
      (s.err = none ∧ ∃ e opc, t = raise e opc s)) : Completes s t := by
  rcases h with ⟨herr, rfl⟩ | ⟨herr, u, hu, rfl⟩ | ⟨herr, e, opc, rfl⟩
  · simp [Completes, State.busy, herr]
  · simp [Completes, State.busy, herr, hp u hu]
  · simp [Completes, State.busy, raise, herr]

theorem Writes.cmdcnt_eq {i : Instr} {s u : State} (h : Writes i s u) : u.cmdcnt = s.cmdcnt := by
  cases i <;> rw [Writes] at h <;> rw [h]

theorem exec_completes {i : Instr} {s t : State} (h : exec i s = .next t) : Completes s t :=
  completes_of_cases (fun _ => Writes.cmdcnt_eq) (exec_cases i h)

theorem runWord_completes {w : Word} {s t : State} (h : runWord w s = .next t) : Completes s t := by
  cases hw : decode w with
  | ok i => exact exec_completes (by simpa only [runWord, hw] using h)
  | error e =>
    simp only [runWord, hw] at h
    exact completes_of_cases (p := fun u => u.cmdcnt = s.cmdcnt) (fun _ => id) (Yields.command (Yields.error _) h)

/-! ### What clears DONE (R222) -/

theorem Reg.ofOffset_eq_ctrl : ∀ o : BitVec 8, Reg.ofOffset o = some .ctrl ↔ o = 0x04 := by decide

theorem writeCtrl_of_no_reset {v : Word} (hv : v.getLsbD 1 = false) (s : State) :
    writeCtrl v s = { s with ie := v.getLsbD 0 } := by
  rw [writeCtrl, hv]
  rfl

theorem writeStatus_done (v : Word) (s : State) : (writeStatus v s).done = (s.done && !v.getLsbD 1) := by
  rw [writeStatus_eq]

/-- A write clears DONE only through STATUS bit 1 or, as a reset, CTRL bit 1. -/
theorem hostWrite_keeps_done {o : BitVec 8} {v : Word} (s : State)
    (hkeep : o = 0x04 ∨ o = 0x08 → v.getLsbD 1 = false) : (hostWrite o v s).done = s.done := by
  simp only [← Reg.ofOffset_eq_ctrl, ← Reg.ofOffset_eq_status] at hkeep
  unfold hostWrite
  split
  · rfl
  · next r hr =>
    simp only [hr, Option.some.injEq] at hkeep
    split
    · cases r with
      | ctrl => rw [writeIdle, writeCtrl_of_no_reset (hkeep (.inl rfl))]
      | status => rw [writeIdle, writeStatus_done, hkeep (.inr rfl), Bool.not_false, Bool.and_true]
      | _ => rfl
    · cases r with
      | ctrl => rw [writeRunning, writeCtrl_of_no_reset (hkeep (.inl rfl))]
      | _ => rfl
    · rfl

/-- The host's next operation may clear DONE: a write of 1 to bit 1 of STATUS or of CTRL, or the reset input. -/
def State.DoneMayClear (s : State) : Prop :=
  (∃ v rest, s.host = .wr 0x08 .word v :: rest ∧ v.getLsbD 1 = true) ∨
    (∃ v rest, s.host = .wr 0x04 .word v :: rest ∧ v.getLsbD 1 = true) ∨ ∃ rest, s.host = .resetInput :: rest

theorem hostTurn_keeps_done {s t : State} (hdone : s.done = true) (h : hostTurn s = .next t) :
    t.done = true ∨ s.DoneMayClear := by
  rcases hostTurn_cases s with ⟨-, e⟩ | ⟨o, v, rest, hh, -, e⟩ | ⟨o, rest, -, -, e⟩ | ⟨rest, -, -, e⟩ |
    ⟨rest, -, -, e⟩ | ⟨rest, hh, e⟩ | ⟨op, rest, -, -, e⟩ <;> cases e.symm.trans h
  · exact .inl hdone
  · by_cases hkeep : o = 0x04 ∨ o = 0x08 → v.getLsbD 1 = false
    · exact .inl ((hostWrite_keeps_done _ hkeep).trans hdone)
    · obtain ⟨rfl | rfl, hv⟩ := Classical.not_imp.mp hkeep
      · exact .inr (.inr (.inl ⟨v, rest, hh, Bool.eq_true_of_not_eq_false hv⟩))
      · exact .inr (.inl ⟨v, rest, hh, Bool.eq_true_of_not_eq_false hv⟩)
  · rw [hostRead_eq]
    exact .inl hdone
  · exact .inl hdone
  · exact .inl hdone
  · exact .inr (.inr (.inr ⟨rest, hh⟩))

theorem step_keeps_done {s t : State} (hdone : s.done = true) (h : step s = .next t) :
    t.done = true ∨ s.DoneMayClear := by
  by_cases hrun : ∃ w, s.engine = .running w 0
  · obtain ⟨w, he⟩ := hrun
    rw [step_of_running_zero he] at h
    obtain ⟨hdone', -⟩ := runWord_completes h
    exact .inl hdone'
  by_cases hreset : s.engine = .resetting 0
  · simp only [step, hreset] at h
    cases h
    exact .inl hdone
  · obtain ⟨e, he⟩ := step_eq_hostTurn (not_exists.mp hrun) hreset
    exact hostTurn_keeps_done (s := { s with engine := e }) hdone (he.symm.trans h)

/-- Settles O7: a command ends in the bookkeeping of a drop, a completion or an error, and a step that ends none keeps
DONE but for the host's clearing. -/
theorem everyCommandCompletes : Obligations.EveryCommandCompletes := by
  refine ⟨fun i s => ?_, fun w s he => ?_, fun s t => step_keeps_done⟩
  · obtain ⟨body, hbody⟩ := exec_is_command i
    obtain ⟨t, ht, -⟩ := command_cases (opc := BitVec.ofNat 8 i.opc) (body := body) (s := s)
    have hexec : exec i s = .next t := (hbody s).trans ht
    exact ⟨t, hexec, exec_completes hexec⟩
  · obtain ⟨t, ht, -⟩ := runWord_next w s
    exact ⟨t, (step_of_running_zero he).trans ht, runWord_completes ht⟩

/-! ### The interrupt line (R228) -/

/-- Outside a reset a write to CTRL takes effect, idle or while a command runs (R252). -/
theorem hostWrite_ctrl (v : Word) {s : State} (hs : ∀ n, s.engine ≠ .resetting n) :
    hostWrite 0x04 v s = writeCtrl v s := by
  have hreg : Reg.ofOffset 0x04 = some .ctrl := rfl
  cases he : s.engine with
  | idle => exact hostWrite_of_idle hreg v he
  | running w left => simp only [hostWrite, hreg, he, writeRunning]
  | resetting n => exact absurd he (hs n)

/-- Settles O15: a completion sets DONE and keeps IE, and the host's writes set IE or clear DONE. -/
theorem interruptLineFollowsCompletion : Obligations.InterruptLineFollowsCompletion := by
  refine fun s => ⟨rfl, fun i t h => ?_, fun v hs hv => ?_, fun v hs hv => ?_⟩
  · obtain ⟨hie, -⟩ := exec_sameHostSide i h
    obtain ⟨hdone, -⟩ := exec_completes h
    simp [State.irq, hie, hdone]
  · rw [hostWrite_ctrl v hs, writeCtrl_of_no_reset hv]
    rfl
  · rw [hostWrite_of_idle (r := .status) rfl v hs, writeIdle, State.irq, writeStatus_done, hv, Bool.not_true,
      Bool.and_false, Bool.and_false]

end Sys2Proof.Machine

/-! ## Hazards, waiting and resets -/

namespace Sys2Proof.Machine

/-! ### Writes while a command runs (R252) -/

theorem hostWrite_of_running {o : BitVec 8} {r : Reg} (ho : Reg.ofOffset o = some r) (v : Word) {s : State} {w : Word}
    {left : Nat} (hs : s.engine = .running w left) : hostWrite o v s = writeRunning r v s := by
  simp only [hostWrite, ho, hs]

/-- Bit 1 of CTRL is SRST (R242). -/
theorem writeCtrl_of_reset {v : Word} (hv : v.getLsbD 1 = true) (s : State) : writeCtrl v s = startReset s :=
  if_pos hv

/-- Settles O25: the effect of a write on each writable register. -/
theorem writesWhileACommandRuns : Obligations.WritesWhileACommandRuns := by
  intro s w v left hs
  have hctrl : hostWrite 0x04 v s = writeCtrl v s := hostWrite_of_running (r := .ctrl) rfl v hs
  refine ⟨?_, fun hv => hctrl.trans (writeCtrl_of_no_reset hv s), fun hv => hctrl.trans (writeCtrl_of_reset hv s),
    fun o ho => hostWrite_of_not_writable v s ho⟩
  simp only [List.forall_mem_cons]
  exact ⟨hostWrite_of_running (r := .status) rfl v hs, hostWrite_of_running (r := .cfg) rfl v hs,
    hostWrite_of_running (r := .arg0) rfl v hs, hostWrite_of_running (r := .arg1) rfl v hs,
    hostWrite_of_running (r := .cmd) rfl v hs, List.forall_mem_nil _⟩

/-! ### Runs of the machine -/

theorem run_succ {s t : State} (h : step s = .next t) (k : Nat) :
    Host.Core.run Sys2Proof.core (k + 1) s = Host.Core.run Sys2Proof.core k t := by
  have hcore : Sys2Proof.core.step s = .next t := h
  simp only [Host.Core.run, hcore]

theorem step_of_idle {s : State} (he : s.engine = .idle) : step s = hostTurn s := by
  simp only [step, he]

/-- An engine that only counts down ends its count. -/
theorem run_countdown {s : State} {e : Nat → Engine}
    (hstep : ∀ n, step { s with engine := e (n + 1) } = .next { s with engine := e n }) (n k : Nat) :
    Host.Core.run Sys2Proof.core (k + n) { s with engine := e n } =
      Host.Core.run Sys2Proof.core k { s with engine := e 0 } := by
  induction n with
  | zero => rfl
  | succ n ih => exact (run_succ (hstep n) (k + n)).trans ih

/-! ### Resets (R240, R242) -/

/-- With no host operation left a host turn does nothing. -/
theorem hostTurn_of_no_host {s : State} (hs : s.host = []) : hostTurn s = .next s := by
  rw [hostTurn, hs]

/-- With no host operation left a reset ends after its count. -/
theorem run_of_resetting {s : State} {n : Nat} (he : s.engine = .resetting n) (hs : s.host = []) :
    Host.Core.run Sys2Proof.core (1 + n) s = .next { s with engine := .idle } := by
  have hcount := run_countdown (s := s) (e := .resetting) (fun _ => hostTurn_of_no_host hs) n 1
  rw [← he] at hcount
  exact hcount.trans (run_succ rfl 0)

/-- Settles O21: both resets begin with `startReset`, which already holds the reset values and counts down. -/
theorem resetsReachTheResetState : Obligations.ResetsReachTheResetState := by
  refine fun s => ⟨fun rest hhost => ?_, fun v hs hv => ?_, rfl, _, run_of_resetting rfl rfl⟩
  · rw [hostTurn, hhost]
  · exact (hostWrite_ctrl v hs).trans (writeCtrl_of_reset hv s)

/-! ### Issue and poll (R37, R96, R250) -/

section

variable {s : State} {rest : List HostOp} (hs : s.host = .poll :: rest)
include hs

theorem hostTurn_of_poll_busy (hbusy : s.busy = true) : hostTurn s = .next s := by
  rw [hostTurn, hs]
  simp only [hbusy, if_true]

theorem hostTurn_of_poll_idle (hbusy : s.busy = false) : hostTurn s = .next { s with host := rest } := by
  rw [hostTurn, hs]
  simp [hbusy]

end

theorem State.engine_eq_idle_of_not_busy {s : State} (hs : s.busy = false) : s.engine = .idle := by
  cases he : s.engine with
  | idle => rfl
  | running w left => simp [State.busy, he] at hs
  | resetting left => simp [State.busy, he] at hs

/-- A `poll` behind an issued command waits until the command's completion and then leaves the list. -/
theorem run_of_running_poll {s t : State} {w : Word} {left : Nat} {rest : List HostOp}
    (he : s.engine = .running w left) (hs : s.host = .poll :: rest)
    (ht : runWord w { s with engine := .running w 0 } = .next t) :
    Host.Core.run Sys2Proof.core (2 + left) s = .next { t with host := rest } := by
  have hcount := run_countdown (s := s) (e := .running w) (fun _ => hostTurn_of_poll_busy hs rfl) left 2
  rw [← he] at hcount
  obtain ⟨-, hbusy, -⟩ := runWord_completes ht
  obtain ⟨t', ht', hhost⟩ := runWord_next w { s with engine := .running w 0 }
  obtain rfl : t' = t := by simpa using ht'.symm.trans ht
  have hpoll : step t' = .next { t' with host := rest } :=
    (step_of_idle (State.engine_eq_idle_of_not_busy hbusy)).trans (hostTurn_of_poll_idle (hhost.trans hs) hbusy)
  calc Host.Core.run Sys2Proof.core (2 + left) s
      = Host.Core.run Sys2Proof.core 2 { s with engine := .running w 0 } := hcount
    _ = Host.Core.run Sys2Proof.core 1 t' := run_succ ((step_of_running_zero rfl).trans ht) 1
    _ = .next { t' with host := rest } := run_succ hpoll 0

/-- The idle machine performs a write to CMD by issuing the word (R30, R37). -/
theorem step_of_idle_wr_cmd {s : State} {w : Word} {rest : List HostOp} (he : s.engine = .idle)
    (hs : s.host = .wr 0x18 .word w :: rest) : step s = .next (issue w { s with host := rest }) := by
  have hissue : hostWrite 0x18 w { s with host := rest } = issue w { s with host := rest } :=
    hostWrite_of_idle (r := .cmd) rfl w he
  rw [step_of_idle he, hostTurn, hs]
  exact congrArg Host.Outcome.next hissue

/-- Settles O19: one step issues the word, the polls wait out its latency, and the last one finds BUSY = 0. -/
theorem everyIssuedCommandCompletes : Obligations.EveryIssuedCommandCompletes := fun _ _ _ _ he hs ht =>
  ⟨_, (run_succ (step_of_idle_wr_cmd he hs) _).trans (run_of_running_poll rfl rfl ht)⟩

/-! ### The latched version (R257) -/

/-- CFG replaced, as the host does between two commands. -/
def State.setCfg (s : State) (c : Cfg) : State := { s with cfg := c }

theorem raise_setCfg (e : Raised) (opc : BitVec 8) (s : State) (c : Cfg) :
    raise e opc (s.setCfg c) = (raise e opc s).setCfg c := by
  cases e <;> rfl

/-- Dropped, completed or in error, a command does the same with CFG replaced if its body does. -/
theorem command_setCfg {opc : BitVec 8} {body : State → Except Raised State} {s t : State} {c : Cfg}
    (hbody : body (s.setCfg c) = (body s).map (State.setCfg · c)) (h : command opc body s = .next t) :
    command opc body (s.setCfg c) = .next (t.setCfg c) := by
  obtain ⟨t', ht', hcases⟩ := command_cases (opc := opc) (body := body) (s := s)
  obtain rfl : t' = t := by simpa using ht'.symm.trans h
  rcases hcases with ⟨herr, rfl⟩ | ⟨herr, u, hu, rfl⟩ | ⟨herr, e, he, rfl⟩
  · exact command_of_err herr
  · exact command_of_ok (s := s.setCfg c) herr (hbody.trans (congrArg (Except.map _) hu))
  · rw [← raise_setCfg]
    exact command_of_error (s := s.setCfg c) herr (hbody.trans (congrArg (Except.map _) he))

/-- After MX_INIT the matrix commands read of CFG at most MASKREQ, and only MSEL reads that. -/
theorem exec_setCfg {i : Instr} {s t : State} {c : Cfg} (hmatrix : isMatrix i = true) (hinit : i ≠ .mxInit)
    (hmask : i = .msel → c.maskReq = s.cfg.maskReq) (h : exec i s = .next t) :
    exec i (s.setCfg c) = .next (t.setCfg c) := by
  unfold exec at h ⊢
  cases i with
  | mxInit => exact absurd rfl hinit
  | mxPlace | mxMask _ | mxFmt _ | mxRead _ _ | mxWr _ _ | mxPen =>
    refine command_setCfg ?_ h
    simp only [apply_ite (Except.map _)]
    rfl
  | msel =>
    obtain ⟨version, ecl, maskReq, nseg⟩ := c
    obtain rfl : maskReq = s.cfg.maskReq := hmask rfl
    refine command_setCfg ?_ h
    simp only [apply_ite (Except.map _)]
    rfl
  | _ => cases hmatrix

/-- A matrix command writes no store but the planes (R257). -/
theorem exec_keeps_stores_of_isMatrix {i : Instr} {s t : State} (hmatrix : isMatrix i = true)
    (h : exec i s = .next t) : t.bb = s.bb ∧ t.segtab = s.segtab ∧ t.data = s.data ∧ t.raw = s.raw := by
  rcases exec_cases i h with ⟨-, rfl⟩ | ⟨-, u, hu, rfl⟩ | ⟨-, e, opc, rfl⟩
  · simp
  · cases i with
    | mxInit | mxPlace | mxMask _ | mxFmt _ | mxRead _ _ | mxWr _ _ | mxPen | msel =>
      rw [Writes] at hu
      rw [hu]
      simp
    | _ => cases hmatrix
  · simp

/-- Settles O13: no matrix command writes the stores, and replacing CFG commutes with all but MX_INIT. -/
theorem matrixCommandsUseTheLatchedVersion : Obligations.MatrixCommandsUseTheLatchedVersion :=
  fun _ _ _ hmatrix h =>
    ⟨exec_keeps_stores_of_isMatrix hmatrix h, fun _ hinit hmask => exec_setCfg hmatrix hinit hmask h⟩

end Sys2Proof.Machine
